-- ==== Sys2Proof/Word.lean ====
section
/-!
DEFINITION. Word.lean: the word types of the link block (00_scope.md R10 to R12) and the names of its small enumerations.
Every value is unsigned; a byte has 8 bits and bit 7 is the most significant (R12).
-/

namespace Sys2Proof

/-- A byte: 8 bits (00_scope.md R11). -/
abbrev Byte := BitVec 8

/-- The CRC's width, the only multi-byte quantity of the block (20_memory.md R47). -/
abbrev Word16 := BitVec 16

/-- A point of time, or the retry interval, in `TIME_UNIT`: a natural number with no wrap
(10_state.md R28, 92_eei_decisions.md D3; log entry 10). -/
abbrev Instant := Nat

/-- The transport's hard-error payload, the open type `E` of 00_scope.md R10. The block passes a value of it
through and never inspects it. DESIGN CHOICE (log entry 9): natural numbers stand for the values of `E`. -/
abbrev TransportErr := Nat

/-- The kind of an S-frame (10_state.md R30). -/
inductive SKind where
  | ack
  | nack
  deriving DecidableEq, Repr, Inhabited

/-- The spec's own encoding of `sq_kind` and `s_kind` (10_state.md R30, 92_eei_decisions.md D18). -/
def SKind.code : SKind → BitVec 1
  | .ack => 0
  | .nack => 1

/-- The header byte of an S-frame of this kind (30_encoding.md R62). -/
def SKind.header : SKind → Byte
  | .ack => 0x02#8
  | .nack => 0x03#8

end Sys2Proof
end

