-- ==== Sys2Proof/Machine/Crc.lean ====
section
/-!
DEFINITION. Machine/Crc.lean: CRC-16/X.25 in the spec's two forms (41_crc.md R111 and R112). The block uses the first;
that the second computes the same value is a statement. `crc_reg` is a working register and no state (R113).
-/

namespace Sys2Proof.Machine

/-- The byte whose bit `j` is `b[7-j]` (41_crc.md R111). -/
def reflect8 (b : Byte) : Byte := b.reverse

/-- The 16-bit value whose bit `j` is `c[15-j]` (41_crc.md R111). -/
def reflect16 (c : Word16) : Word16 := c.reverse

/-- One shift of the register, high bit first, polynomial `0x1021` (41_crc.md R111). -/
def crcShift (c : Word16) : Word16 :=
  if c.getLsbD 15 then (c <<< 1) ^^^ 0x1021#16 else c <<< 1

/-- One byte enters the register reflected, at its high end (41_crc.md R111). -/
def crcByte (c : Word16) (b : Byte) : Word16 :=
  Nat.repeat crcShift 8 (c ^^^ ((reflect8 b).setWidth 16 <<< 8))

/-- `crc16_x25` (41_crc.md R111): initial value `0xFFFF`, reflected output, final XOR `0xFFFF` (R110). -/
def crc16X25 (s : List Byte) : Word16 :=
  reflect16 (s.foldl crcByte 0xFFFF#16) ^^^ 0xFFFF#16

/-- One shift of the byte-serial form, low bit first, polynomial `0x8408` (41_crc.md R112). -/
def crcSerialShift (c : Word16) : Word16 :=
  if c.getLsbD 0 then (c >>> 1) ^^^ 0x8408#16 else c >>> 1

/-- `crc_step` (41_crc.md R112). -/
def crcStep (c : Word16) (b : Byte) : Word16 :=
  Nat.repeat crcSerialShift 8 (c ^^^ b.setWidth 16)

/-- `crc_final` (41_crc.md R112). -/
def crcFinal (c : Word16) : Word16 := c ^^^ 0xFFFF#16

/-- The byte-serial form of the CRC: `crc_final` of `crc_step` folded from `crc_init` (41_crc.md R112). -/
def crcSerial (s : List Byte) : Word16 :=
  crcFinal (s.foldl crcStep 0xFFFF#16)

/-- `crc[15:8]`, sent first (20_memory.md R47). -/
def crcHi (c : Word16) : Byte := c.extractLsb' 8 8

/-- `crc[7:0]`, sent second (20_memory.md R47). -/
def crcLo (c : Word16) : Byte := c.extractLsb' 0 8

/-- The CRC of a received frame, assembled big-endian (30_encoding.md R64). -/
def crcOfBytes (hi lo : Byte) : Word16 := hi ++ lo

end Sys2Proof.Machine
end

