-- ==== Sys2Proof/Config.lean ====
section
/-!
DEFINITION. Config.lean: the implementation parameters (00_scope.md R7 to R9) and the free values, which nothing
constrains: the values the spec calls unspecified after CONSTRUCT (93_implementation_defined.md U1) and the
transport's answers, "a draw of the environment" (92_eei_decisions.md D2, U10).
-/

namespace Sys2Proof

/-- What the transport answers to one `TxWrite` (60_exceptions.md R205). -/
inductive TxResponse where
  | ready
  | wouldBlock
  | error (e : TransportErr)
  deriving DecidableEq, Repr, Inhabited

/-- What the transport answers to one `RxRead` (60_exceptions.md R205). -/
inductive RxResponse where
  | ready (b : Byte)
  | wouldBlock
  | error (e : TransportErr)
  deriving DecidableEq, Repr, Inhabited

/-- `N` of the instance that `State.reset` describes. DESIGN CHOICE (log entry 3): 95_test_vectors.md constructs
every peer with `CONSTRUCT(16, 16, 100)` unless it says otherwise. -/
def Config.resetN : Nat := 16

/-- `M` of the instance that `State.reset` describes (log entry 3). -/
def Config.resetM : Nat := 16

/-- `RETRY_INTERVAL` of the instance that `State.reset` describes (log entry 3). -/
def Config.resetInterval : Nat := 100

/-- FREE VALUE: `tx_retry_deadline` after a CONSTRUCT, "unspecified" (10_state.md R41; log entry 4). -/
opaque Config.freeInstant : Nat → Instant

/-- FREE VALUE: `sq_kind` or `s_kind` after a CONSTRUCT, "unspecified" (10_state.md R41; log entry 4). -/
opaque Config.freeKind : Nat → SKind

/-- FREE VALUE: the byte at an index of a buffer that nothing has written since CONSTRUCT, "unspecified"
(10_state.md R41, 93_implementation_defined.md U1, U2; log entry 5). The first argument numbers the contents, so that
the two buffers, and the buffers of two instances, need not agree. -/
opaque Config.freeByte : Nat → Nat → Byte

/-- FREE VALUE: the transport's answer to a write that no script answers (92_eei_decisions.md D2; log entry 2). -/
opaque Config.txDraw : Nat → TxResponse

/-- FREE VALUE: the transport's answer to a read that no script answers (92_eei_decisions.md D2; log entry 2). -/
opaque Config.rxDraw : Nat → RxResponse

end Sys2Proof
end

