-- ==== Sys2Proof/Syntax.lean ====
section
/-!
DEFINITION. Syntax.lean: the rows of spec/opcode_table.json as one inductive, and the three things they are decoded
from: host command words (30_encoding.md R73), received frames (R60) and wire bytes (R66). The three encoding spaces
overlap (log entry 11).
-/

namespace Sys2Proof

/-- An operand of a host command word: "the operands are values, not bit fields" (30_encoding.md R73). -/
inductive Operand where
  | nat (n : Nat)
  | bytes (p : List Byte)
  deriving DecidableEq, Repr

/-- A host command word: "an 8-bit `cmd` field plus operands" (30_encoding.md R73; log entry 12). -/
structure Command where
  cmd : Byte
  operands : List Operand
  deriving DecidableEq, Repr

/-- The fields of a pre-COBS frame of at least 4 bytes (30_encoding.md R60). `payload` is what lies between the
length byte and the last two bytes, whether or not the length byte agrees with it. -/
structure Frame where
  hdr : Byte
  len : Byte
  payload : List Byte
  crc : Word16
  deriving DecidableEq, Repr

/-- What a non-zero wire byte is depends on the decoder's registers (40_cobs.md R90): a code byte is due, or a data
byte of the current run is due. -/
inductive WirePos where
  | codeDue
  | dataDue
  deriving DecidableEq, Repr

/-- One constructor for each row of spec/opcode_table.json. -/
inductive Instr where
  /-- CONSTRUCT, 44_host_ops.md R172. -/
  | construct (n m interval : Nat)
  /-- SEND, 44_host_ops.md R174. -/
  | send (p : List Byte)
  /-- POLL_TX, 44_host_ops.md R176. -/
  | pollTx (now : Instant)
  /-- POLL_RX, 44_host_ops.md R178. -/
  | pollRx
  /-- IS_IDLE, 44_host_ops.md R180. -/
  | isIdle
  /-- RESERVED_CMD, the codes `0x05` to `0xFF`, 30_encoding.md R74. -/
  | reservedCmd (code : Byte)
  /-- FRAME_I, a received frame with header `0x01`, 43_arq_rx.md R156. -/
  | frameI (len : Byte) (payload : List Byte) (crc : Word16)
  /-- FRAME_ACK, a received frame with header `0x02`, 43_arq_rx.md R160. -/
  | frameAck (len : Byte) (payload : List Byte) (crc : Word16)
  /-- FRAME_NACK, a received frame with header `0x03`, 43_arq_rx.md R161. -/
  | frameNack (len : Byte) (payload : List Byte) (crc : Word16)
  /-- FRAME_BAD_HEADER, a received frame with any other header, 43_arq_rx.md R152. -/
  | frameBadHeader (hdr len : Byte) (payload : List Byte) (crc : Word16)
  /-- WIRE_DELIM, the byte `0x00`, 40_cobs.md R92. -/
  | wireDelim
  /-- WIRE_CODE, a code byte `0x01` to `0xFE`, 40_cobs.md R93 and R95. -/
  | wireCode (b : Byte)
  /-- WIRE_CODE_CHAIN, the code byte `0xFF`, 30_encoding.md R66, 40_cobs.md R93 and R95. -/
  | wireCodeChain
  /-- WIRE_DATA, a data byte inside a run, 40_cobs.md R94. -/
  | wireData (b : Byte)
  deriving DecidableEq, Repr

/-- An instruction as it is encoded: in the host command space, as a frame, or as a byte on the wire together with
the position that fixes its class. -/
inductive Encoding where
  | command (c : Command)
  | frame (bytes : List Byte)
  | wire (pos : WirePos) (b : Byte)
  deriving DecidableEq, Repr

end Sys2Proof
end

