-- ==== Sys2Proof/WellFormed.lean ====
section
/-!
DEFINITION. WellFormed.lean: which instructions the spec's encodings admit. A frame row is well-formed when its fields
are those 30_encoding.md R61 to R64 ask for; a frame whose header is right and whose other fields are not is still
decoded and still runs (it is malformed, R71, and is NACKed).
-/

namespace Sys2Proof

/-- The length byte is the payload's length (30_encoding.md R61, R63). -/
def Frame.lengthOk (f : Frame) : Bool := f.payload.length == f.len.toNat

/-- The CRC field is the CRC of header, length and payload (30_encoding.md R64). -/
def Frame.crcOk (f : Frame) : Bool :=
  Machine.crc16X25 (f.hdr :: f.len :: f.payload) == f.crc

/-- An S-frame carries no payload: "length must be `0x00`" (30_encoding.md R62). -/
def Frame.sLengthOk (f : Frame) : Bool := f.len == 0#8

/-- Well-formedness of an instruction as syntax. -/
def Instr.wellFormed : Instr → Bool
  | .construct n _ _ => decide (4 ≤ n)
  | .send _ => true
  | .pollTx _ => true
  | .pollRx => true
  | .isIdle => true
  | .reservedCmd code => decide (5 ≤ code.toNat)
  | .frameI len p crc => Frame.lengthOk ⟨0x01#8, len, p, crc⟩ && Frame.crcOk ⟨0x01#8, len, p, crc⟩
  | .frameAck len p crc =>
    Frame.lengthOk ⟨0x02#8, len, p, crc⟩ && Frame.crcOk ⟨0x02#8, len, p, crc⟩ && Frame.sLengthOk ⟨0x02#8, len, p, crc⟩
  | .frameNack len p crc =>
    Frame.lengthOk ⟨0x03#8, len, p, crc⟩ && Frame.crcOk ⟨0x03#8, len, p, crc⟩ && Frame.sLengthOk ⟨0x03#8, len, p, crc⟩
  | .frameBadHeader hdr _ _ _ => hdr != 0x01#8 && hdr != 0x02#8 && hdr != 0x03#8
  | .wireDelim => true
  | .wireCode b => b != 0x00#8 && b != 0xFF#8
  | .wireCodeChain => true
  | .wireData b => b != 0x00#8

end Sys2Proof
end

