-- ==== Sys2Proof/Decode.lean ====
section
/-!
DEFINITION. Decode.lean: the decoders of the three encoding spaces (30_encoding.md R60 to R74) and, after them, the
encoders. Decoding is total and rejects by name.
-/

namespace Sys2Proof

/-- Why a decoder gives no instruction. -/
inductive DecodeError where
  /-- The operands of a command word are not those of its code (30_encoding.md R73; log entry 12). -/
  | wrongOperands (cmd : Byte)
  /-- A frame has fewer than 4 bytes (30_encoding.md R61; cause SHORT of 43_arq_rx.md R152). -/
  | shortFrame
  deriving DecidableEq, Repr

/-- The operation a host command word names (30_encoding.md R73, R74). -/
def decodeCommand (c : Command) : Except DecodeError Instr :=
  if c.cmd = 0x00#8 then
    match c.operands with
    | [.nat n, .nat m, .nat interval] => .ok (.construct n m interval)
    | _ => .error (.wrongOperands c.cmd)
  else if c.cmd = 0x01#8 then
    match c.operands with
    | [.bytes p] => .ok (.send p)
    | _ => .error (.wrongOperands c.cmd)
  else if c.cmd = 0x02#8 then
    match c.operands with
    | [.nat now] => .ok (.pollTx now)
    | _ => .error (.wrongOperands c.cmd)
  else if c.cmd = 0x03#8 then
    match c.operands with
    | [] => .ok .pollRx
    | _ => .error (.wrongOperands c.cmd)
  else if c.cmd = 0x04#8 then
    match c.operands with
    | [] => .ok .isIdle
    | _ => .error (.wrongOperands c.cmd)
  else .ok (.reservedCmd c.cmd)

/-- The fields of a frame (30_encoding.md R60): the header, the length byte, what lies between it and the last two
bytes, and the CRC field, assembled big-endian (R64). -/
def parseFrame (d : List Byte) : Except DecodeError Frame :=
  match d with
  | hdr :: len :: rest =>
    match rest.drop (rest.length - 2) with
    | [hi, lo] => .ok ⟨hdr, len, rest.take (rest.length - 2), Machine.crcOfBytes hi lo⟩
    | _ => .error .shortFrame
  | _ => .error .shortFrame

/-- The header byte selects the frame kind (30_encoding.md R62). -/
def frameInstr (f : Frame) : Instr :=
  if f.hdr = 0x01#8 then .frameI f.len f.payload f.crc
  else if f.hdr = 0x02#8 then .frameAck f.len f.payload f.crc
  else if f.hdr = 0x03#8 then .frameNack f.len f.payload f.crc
  else .frameBadHeader f.hdr f.len f.payload f.crc

/-- The frame row a received frame belongs to. -/
def decodeFrame (d : List Byte) : Except DecodeError Instr :=
  match parseFrame d with
  | .error e => .error e
  | .ok f => .ok (frameInstr f)

/-- Where the decoder stands: a data byte is due exactly while a code byte has been received and its run is not over
(40_cobs.md R90). -/
def wirePos (decCode decCnt : Byte) : WirePos :=
  if decCode ≠ 0#8 ∧ decCnt ≠ 0#8 then .dataDue else .codeDue

/-- The class of a wire byte (40_cobs.md R90, 30_encoding.md R66, R68). -/
def decodeWire (pos : WirePos) (b : Byte) : Instr :=
  if b = 0x00#8 then .wireDelim
  else
    match pos with
    | .dataDue => .wireData b
    | .codeDue => if b = 0xFF#8 then .wireCodeChain else .wireCode b

/-- The decoder of all three spaces. -/
def decode : Encoding → Except DecodeError Instr
  | .command c => decodeCommand c
  | .frame d => decodeFrame d
  | .wire pos b => .ok (decodeWire pos b)

/-! ### The encoders, from the same tables -/

/-- The bytes of a frame in order (30_encoding.md R60), CRC big-endian (20_memory.md R47). -/
def frameBytes (f : Frame) : List Byte :=
  f.hdr :: f.len :: (f.payload ++ [Machine.crcHi f.crc, Machine.crcLo f.crc])

/-- The encoding of an instruction: a command word (30_encoding.md R73), a frame (R60), or a wire byte (R66). -/
def encode : Instr → Encoding
  | .construct n m interval => .command ⟨0x00#8, [.nat n, .nat m, .nat interval]⟩
  | .send p => .command ⟨0x01#8, [.bytes p]⟩
  | .pollTx now => .command ⟨0x02#8, [.nat now]⟩
  | .pollRx => .command ⟨0x03#8, []⟩
  | .isIdle => .command ⟨0x04#8, []⟩
  | .reservedCmd code => .command ⟨code, []⟩
  | .frameI len p crc => .frame (frameBytes ⟨0x01#8, len, p, crc⟩)
  | .frameAck len p crc => .frame (frameBytes ⟨0x02#8, len, p, crc⟩)
  | .frameNack len p crc => .frame (frameBytes ⟨0x03#8, len, p, crc⟩)
  | .frameBadHeader hdr len p crc => .frame (frameBytes ⟨hdr, len, p, crc⟩)
  | .wireDelim => .wire .codeDue 0x00#8
  | .wireCode b => .wire .codeDue b
  | .wireCodeChain => .wire .codeDue 0xFF#8
  | .wireData b => .wire .dataDue b

/-- The I-frame of a payload (20_memory.md R49, 30_encoding.md R60 to R64). -/
def iFrame (p : List Byte) : List Byte :=
  frameBytes ⟨0x01#8, BitVec.ofNat 8 p.length, p,
    Machine.crc16X25 (0x01#8 :: BitVec.ofNat 8 p.length :: p)⟩

/-- The frame of an S-frame (30_encoding.md R60, R62, R70). -/
def sFrame (k : SKind) : List Byte :=
  frameBytes ⟨k.header, 0x00#8, [], Machine.crc16X25 [k.header, 0x00#8]⟩

/-- The three operations of one turn of the loop that the pseudo-operation SEND_WAIT expands to: POLL_TX, POLL_RX,
IS_IDLE (30_encoding.md R76; log entry 23). -/
def sendWaitTurn (now : Instant) : List Command :=
  [⟨0x02#8, [.nat now]⟩, ⟨0x03#8, []⟩, ⟨0x04#8, []⟩]

/-- The longest command list SEND_WAIT can issue for these instants: SEND, IS_IDLE, then one turn for each. The host
stops after the IS_IDLE that returns true (30_encoding.md R76; log entry 23). -/
def sendWait (p : List Byte) (nows : List Instant) : List Command :=
  ⟨0x01#8, [.bytes p]⟩ :: ⟨0x04#8, []⟩ :: nows.flatMap sendWaitTurn

/-! ### The opcode table's words -/

/-- Operands all of whose bits are zero, in the number and of the kinds the code asks for (30_encoding.md R73). -/
def zeroOperands (cmd : Byte) : List Operand :=
  if cmd = 0x00#8 then [.nat 0, .nat 0, .nat 0]
  else if cmd = 0x01#8 then [.bytes []]
  else if cmd = 0x02#8 then [.nat 0]
  else []

/-- The command word a word of spec/opcode_table.json stands for in the host command space: its low 8 bits are `cmd`
and its operands are zero (log entry 11). -/
def tableCommand (nbits w : Nat) : Command :=
  let cmd := BitVec.ofNat 8 (w % 2 ^ nbits)
  ⟨cmd, zeroOperands cmd⟩

/-- The instruction the command decoder reads from a word of spec/opcode_table.json. -/
def decodeTableWord (nbits w : Nat) : Option Instr :=
  match decodeCommand (tableCommand nbits w) with
  | .ok i => some i
  | .error _ => none

end Sys2Proof
end

