-- ==== Sys2Proof/Machine/Memory.lean ====
section
/-!
DEFINITION. Machine/Memory.lean: a byte-addressed buffer as plain data (20_memory.md R45, R46). The bytes written since
CONSTRUCT are listed, with strictly rising indices; every other byte reads as a free value, the unspecified reset value
of R53 (log entry 5).
-/

namespace Sys2Proof.Machine

/-- The byte of a cell list at an index, none where no cell is listed. -/
def cellAt : List Host.Cell → Nat → Option Byte
  | [], _ => none
  | (b, w) :: m, a => if a = b then some w else cellAt m a

/-- Set the cell at an index, in place or where it belongs. -/
def setCell : List Host.Cell → Nat → Byte → List Host.Cell
  | [], a, v => [(a, v)]
  | (b, w) :: m, a, v =>
    if a < b then (a, v) :: (b, w) :: m
    else if a = b then (a, v) :: m
    else (b, w) :: setCell m a v

/-- Indices strictly rising. -/
def rising : List Host.Cell → Bool
  | [] => true
  | [_] => true
  | (a, _) :: (b, w) :: m => decide (a < b) && rising ((b, w) :: m)

/-- A buffer: its written bytes, and the number of its unspecified reset contents, an argument of `Config.freeByte`. -/
structure Memory where
  contents : Nat
  cells : List Host.Cell
  deriving DecidableEq, Repr

/-- A buffer right after CONSTRUCT: no byte is written (10_state.md R41). -/
def Memory.fresh (contents : Nat) : Memory := ⟨contents, []⟩

/-- The byte at an index: "the value of the most recent `MemWrite` to that byte, or the unspecified reset value if
there was none" (20_memory.md R53). -/
def Memory.get (m : Memory) (a : Nat) : Byte := (cellAt m.cells a).getD (Config.freeByte m.contents a)

/-- Whether a byte has been written since CONSTRUCT. -/
def Memory.written (m : Memory) (a : Nat) : Bool := (cellAt m.cells a).isSome

/-- Set the byte at an index (`MemWrite` of 20_memory.md R46, less its range check). -/
def Memory.set (m : Memory) (a : Nat) (v : Byte) : Memory := { m with cells := setCell m.cells a v }

/-- The canonical form: indices strictly rising. What an unlisted index reads as is a free value, so no listed byte can
be told to equal it, and a written byte stays listed (log entry 5). -/
def Memory.wf (m : Memory) : Bool := rising m.cells

end Sys2Proof.Machine
end

