-- ==== Sys2Proof/Machine/State.lean ====
section
/-!
DEFINITION. Machine/State.lean: the architectural state of one instance of the link block (10_state.md R20 to R44),
with, after it, the model's own fields for the outside of the block; why a step can stop; and the state right after
reset (R41, 70_reset_and_hazards.md R210).
-/

namespace Sys2Proof.Machine

/-- `tx_state` (10_state.md R25). WaitingRetry is listed and never entered (R26; log entry 8). -/
inductive TxState where
  | idle
  | sending
  | awaitingAck
  | waitingRetry
  deriving DecidableEq, Repr

/-- The spec's own encoding of `tx_state` (10_state.md R25). -/
def TxState.code : TxState → BitVec 2
  | .idle => 0
  | .sending => 1
  | .awaitingAck => 2
  | .waitingRetry => 3

/-- `enc_phase` (10_state.md R29). -/
inductive EncPhase where
  | prefixByte
  | data
  | delim
  | done
  deriving DecidableEq, Repr

/-- The spec's own encoding of `enc_phase` (10_state.md R29). -/
def EncPhase.code : EncPhase → BitVec 2
  | .prefixByte => 0
  | .data => 1
  | .delim => 2
  | .done => 3

/-- `tx_cobs_encoder`, the four registers of the I-frame encoder (10_state.md R29). -/
structure Encoder where
  pos : BitVec 9
  rem : BitVec 8
  chain : Bool
  phase : EncPhase
  deriving DecidableEq, Repr

/-- `cur_op`, the operation in progress (10_state.md R42). -/
inductive CurOp where
  | none
  | pollTx (now : Instant)
  | pollRx
  deriving DecidableEq, Repr

/-- The result of an operation (60_exceptions.md R190). -/
inductive Result where
  /-- OK of CONSTRUCT, SEND and POLL_TX. -/
  | ok
  /-- OK of POLL_RX: `OK(None)` or `OK(Some(payload))`. -/
  | okMessage (m : Option (List Byte))
  /-- OK of IS_IDLE, with its Boolean. -/
  | okBool (b : Bool)
  /-- BUSY, of SEND only. -/
  | busy
  /-- TOO_LONG, of SEND only. -/
  | tooLong
  /-- TRANSPORT_ERROR, of POLL_TX and POLL_RX, with the transport's own value. -/
  | transportError (e : TransportErr)
  deriving DecidableEq, Repr

/-- The spec's own result codes (60_exceptions.md R190). -/
def Result.code : Result → Nat
  | .ok => 0
  | .okMessage _ => 0
  | .okBool _ => 0
  | .busy => 1
  | .tooLong => 2
  | .transportError _ => 3

/-- One instance of the link block (10_state.md), and the outside it is driven by. -/
structure State where
  /-- `N`, the length of tx_buffer (R22). -/
  N : Nat
  /-- `M`, the length of rx_buffer (R22). -/
  M : Nat
  /-- `RETRY_INTERVAL` (R22). -/
  retryInterval : Nat
  /-- `tx_buffer` (R23). -/
  txBuffer : Memory
  /-- `tx_len` (R24). -/
  txLen : BitVec 8
  /-- `tx_state` (R25). -/
  txState : TxState
  /-- `tx_cursor` (R27). -/
  txCursor : BitVec 9
  /-- `tx_retry_deadline` (R28). -/
  txRetryDeadline : Instant
  /-- `tx_cobs_encoder` (R29). -/
  enc : Encoder
  /-- `sq_valid` (R30). -/
  sqValid : Bool
  /-- `sq_kind` (R30). -/
  sqKind : SKind
  /-- `s_kind` (R31). -/
  sKind : SKind
  /-- `s_idx` (R31). -/
  sIdx : BitVec 3
  /-- `rx_buffer` (R32). -/
  rxBuffer : Memory
  /-- `rx_cursor` (R33). -/
  rxCursor : Nat
  /-- `dec_code` (R34). -/
  decCode : BitVec 8
  /-- `dec_cnt` (R34). -/
  decCnt : BitVec 8
  /-- `rx_overflow` (R35). -/
  rxOverflow : Bool
  /-- `cur_op` (R42). -/
  curOp : CurOp
  /-- The model's own field: the operations the host is going to issue, oldest first (log entry 15). -/
  requests : List Command
  /-- The model's own field: the result the last operation returned, none while one runs (log entry 16). -/
  result : Option Result
  /-- The model's own field: the bytes the transport has accepted, oldest first (log entry 16). -/
  txWire : List Byte
  /-- The model's own field: the transport's answers to the coming writes (log entry 2). -/
  txScript : List TxResponse
  /-- The model's own field: the transport's answers to the coming reads (log entry 2). -/
  rxScript : List RxResponse
  /-- The model's own field: how many free values have been read (log entry 19). -/
  freeCount : Nat
  deriving DecidableEq, Repr

/-- Faults of the model. Every one is safe: it stops in a state that the spec's rules do not reach
(10_state.md R37, R41, 20_memory.md R46), and none is a trap of the block, which has none (60_exceptions.md R195). -/
inductive Fault where
  /-- A buffer or S-frame constant was addressed out of its range (20_memory.md R46,
  93_implementation_defined.md U9). Raised by every buffer access, and by POLL_TX when `s_idx > 5`. Safe. -/
  | indexOutOfRange
  /-- POLL_TX asked the encoder for a byte while `enc_phase = DONE`: `enc_peek` offers none (40_cobs.md R85).
  Safe (log entry 7). -/
  | encoderDone
  /-- `tx_state = WaitingRetry`: "stuck: no rule gives it a step" (93_implementation_defined.md U3). Raised by step.
  Safe (log entry 8). -/
  | waitingRetryStuck
  deriving DecidableEq, Repr

/-- Why a request is refused: no operation runs and no state changes (60_exceptions.md R190). All are safe. -/
inductive Refusal where
  /-- Raised by exec for an instruction that has no meaning yet. Safe. -/
  | notModelled (mnemonic : String)
  /-- A host operation was requested while another is in progress: "the request has no move"
  (44_host_ops.md R170; log entry 17). Raised by CONSTRUCT, SEND, POLL_TX, POLL_RX and IS_IDLE. Safe. -/
  | operationInProgress
  /-- CONSTRUCT with `N < 4` (44_host_ops.md R172). Safe. -/
  | txBufferTooShort
  /-- A reserved command code (30_encoding.md R74). Safe. -/
  | reservedCommand (code : Byte)
  /-- Raised by step for a command word the decoder rejects (log entry 12). Safe. -/
  | undecodable (e : DecodeError)
  deriving DecidableEq, Repr

/-- What a meaning answers. -/
abbrev Out := Host.Outcome State Fault Refusal

/-- The encoder's initial state (40_cobs.md R84, 10_state.md R29). -/
def Encoder.init : Encoder := ⟨0#9, 0#8, false, .prefixByte⟩

/-- The machine right after reset, which is CONSTRUCT (70_reset_and_hazards.md R210, 10_state.md R41).
DESIGN CHOICE: the operands 16, 16, 100 (log entry 3); 0 and ACK for the registers whose reset value is unspecified,
`txRetryDeadline`, `sqKind`, `sKind` (log entry 4). Every byte of both buffers is a free value (log entry 5). -/
def State.reset : State where
  N := Config.resetN
  M := Config.resetM
  retryInterval := Config.resetInterval
  txBuffer := Memory.fresh 0
  txLen := 0#8
  txState := .idle
  txCursor := 0#9
  txRetryDeadline := 0
  enc := Encoder.init
  sqValid := false
  sqKind := .ack
  sKind := .ack
  sIdx := 0#3
  rxBuffer := Memory.fresh 1
  rxCursor := 0
  decCode := 0#8
  decCnt := 0#8
  rxOverflow := false
  curOp := .none
  requests := []
  result := some .ok
  txWire := []
  txScript := []
  rxScript := []
  freeCount := 0

end Sys2Proof.Machine
end

