-- ==== Sys2Proof/Machine/Flags.lean ====
section
/-!
DEFINITION. Machine/Flags.lean: the conditions behind the block's three one-bit registers and its one status output
(10_state.md R38). The block has no condition codes.
-/

namespace Sys2Proof.Machine

/-- `enc_chain` for a run of `k` data bytes: its code byte is `0xFF` (40_cobs.md R86). -/
def chainFlag (k : Nat) : Bool := k == 254

/-- Whether storing one more byte sets `rx_overflow` (40_cobs.md R97). -/
def overflows (s : State) : Bool := s.rxCursor == s.M

/-- The idle status that IS_IDLE returns (10_state.md R38 (a), 44_host_ops.md R180). -/
def idleStatus (s : State) : Bool := s.txState == .idle

/-- A frame's bytes are in progress on the wire: the S-frame in progress (42_arq_tx.md R129). -/
def sInProgress (s : State) : Bool := s.sIdx != 0#3

/-- A frame's bytes are in progress on the wire: the I-frame in progress (42_arq_tx.md R129). -/
def iInProgress (s : State) : Bool := s.txState == .sending && s.txCursor != 0#9

/-- The retry timer is due (42_arq_tx.md R136, R137): true at equality. -/
def timerDue (now : Instant) (s : State) : Bool :=
  s.txState == .awaitingAck && decide (now ≥ s.txRetryDeadline)

end Sys2Proof.Machine
end

