-- ==== Sys2Proof/Machine/Operands.lean ====
section
/-!
DEFINITION. Machine/Operands.lean: what an operation reads: buffer bytes (20_memory.md R46), the message capacity
(00_scope.md R7), the I-frame encoder's source (40_cobs.md R83) and the S-frame constants (42_arq_tx.md R126).
-/

namespace Sys2Proof.Machine

/-- `MemRead` of a buffer with `len` bytes (20_memory.md R46): byte `i` of the buffer, written or not. Only an index out
of range is a fault of the model (log entry 6). -/
def readByte (len : Nat) (m : Memory) (i : Nat) : Except Fault Byte :=
  if i < len then .ok (m.get i) else .error .indexOutOfRange

/-- `n` bytes of a buffer from index `i` on, one access each. -/
def readBytes (len : Nat) (m : Memory) : Nat → Nat → Except Fault (List Byte)
  | _, 0 => .ok []
  | i, n + 1 =>
    match readByte len m i with
    | .error f => .error f
    | .ok b =>
      match readBytes len m (i + 1) n with
      | .error f => .error f
      | .ok bs => .ok (b :: bs)

/-- `CAP = min(255, N - 4)`, the message capacity (00_scope.md R7, 10_state.md R22). -/
def cap (s : State) : Nat := min 255 (s.N - 4)

/-- The length of the encoder's source, `n = tx_len + 4` (40_cobs.md R83). -/
def txSourceLen (s : State) : Nat := s.txLen.toNat + 4

/-- The encoder's source, `S = tx_buffer[0 .. n)` (40_cobs.md R83). -/
def txSource (s : State) : Except Fault (List Byte) :=
  readBytes s.N s.txBuffer 0 (txSourceLen s)

/-- `SBYTES(k)`, the six wire bytes of an S-frame (42_arq_tx.md R126, 30_encoding.md R70). -/
def sBytes : SKind → List Byte
  | .ack => [0x02#8, 0x02#8, 0x03#8, 0x3C#8, 0xF7#8, 0x00#8]
  | .nack => [0x02#8, 0x03#8, 0x03#8, 0x25#8, 0x2F#8, 0x00#8]

/-- Byte `i` of an S-frame constant, `i` in `0 .. 5` (20_memory.md R45; log entry 6). -/
def sByte (k : SKind) (i : BitVec 3) : Except Fault Byte :=
  match (sBytes k)[i.toNat]? with
  | some b => .ok b
  | none => .error .indexOutOfRange

/-- The kind of the S-frame whose byte is offered (42_arq_tx.md R128): the slot's while none is in progress. -/
def offeredKind (s : State) : SKind := if s.sIdx = 0#3 then s.sqKind else s.sKind

end Sys2Proof.Machine
end

