-- ==== Sys2Proof/Machine/Ops.lean ====
section
/-!
DEFINITION. Machine/Ops.lean: the named operations the meanings share: buffer writes (20_memory.md R46), the start and
the end of a host operation (44_host_ops.md R170, R176, R178), the transport's two calls (60_exceptions.md R205),
the S-frame queue (42_arq_tx.md R124) and the sender's attempts (R121, R133, R136).

The block has no traps (60_exceptions.md R195): there is no exception entry and no return from one. What takes their
place is `finish`, the one way an operation ends, with its result (R190).
-/

namespace Sys2Proof.Machine

/-- The next state of an answer, none if it is a fault or a refusal. -/
def nextState? : Out → Option State
  | .next s => some s
  | .fault _ => none
  | .refused _ => none

/-- An answer from an operation that can only fault. -/
def orFault : Except Fault State → Out
  | .ok s => .next s
  | .error f => .fault f

/-! ### Buffer writes -/

/-- `MemWrite` of a buffer with `len` bytes (20_memory.md R46; log entry 6). -/
def writeByte (len : Nat) (m : Memory) (i : Nat) (v : Byte) : Except Fault Memory :=
  if i < len then .ok (m.set i v) else .error .indexOutOfRange

/-- Bytes written one after the other from index `i` on. -/
def writeBytes (len : Nat) : Memory → Nat → List Byte → Except Fault Memory
  | m, _, [] => .ok m
  | m, i, v :: vs =>
    match writeByte len m i v with
    | .error f => .error f
    | .ok m' => writeBytes len m' (i + 1) vs

/-! ### The start and the end of a host operation -/

/-- A POLL_TX or POLL_RX starts: `cur_op` holds it until it ends (10_state.md R42). -/
def begin (op : CurOp) (s : State) : State := { s with curOp := op, result := none }

/-- An operation ends with its result (60_exceptions.md R190, R195). -/
def finish (r : Result) (s : State) : State := { s with curOp := .none, result := some r }

/-- A host operation runs only while none is in progress (44_host_ops.md R170; log entry 17). -/
def whenFree (s : State) (answer : Out) : Out :=
  match s.curOp with
  | .none => answer
  | .pollTx _ => .refused .operationInProgress
  | .pollRx => .refused .operationInProgress

/-- The next host operation, if the host has one to issue (log entry 15). -/
def fetch (s : State) : Option (Command × State) :=
  match s.requests with
  | [] => none
  | c :: rest => some (c, { s with requests := rest })

/-! ### The transport's two calls -/

/-- The transport's answer to a `TxWrite`: scripted, or else a free value (92_eei_decisions.md D2; log entry 2). -/
def drawTx (s : State) : TxResponse × State :=
  match s.txScript with
  | r :: rest => (r, { s with txScript := rest })
  | [] => (Config.txDraw s.freeCount, { s with freeCount := s.freeCount + 1 })

/-- The transport's answer to an `RxRead`: scripted, or else a free value (92_eei_decisions.md D2; log entry 2). -/
def drawRx (s : State) : RxResponse × State :=
  match s.rxScript with
  | r :: rest => (r, { s with rxScript := rest })
  | [] => (Config.rxDraw s.freeCount, { s with freeCount := s.freeCount + 1 })

/-- An accepted byte is on the wire, after every byte accepted before it (20_memory.md R51, R54). -/
def putOnWire (b : Byte) (s : State) : State := { s with txWire := s.txWire ++ [b] }

/-! ### The S-frame queue and the sender's attempts -/

/-- `sq_put(k)`: the newer S-frame replaces one that is still queued (42_arq_tx.md R124). -/
def sqPut (k : SKind) (s : State) : State := { s with sqValid := true, sqKind := k }

/-- `start_attempt()` (42_arq_tx.md R121), with `enc_init()` (40_cobs.md R84). -/
def startAttempt (s : State) : State := { s with enc := Encoder.init, txCursor := 0#9 }

/-- `timeout()` (42_arq_tx.md R136). -/
def timeout (s : State) : State := startAttempt { s with txState := .sending }

/-- `attempt_complete(now)` (42_arq_tx.md R133), less the return of POLL_TX that follows it. -/
def attemptComplete (now : Instant) (s : State) : State :=
  { s with txState := .awaitingAck, txRetryDeadline := now + s.retryInterval, txCursor := 0#9 }

end Sys2Proof.Machine
end

