-- ==== Sys2Proof/Machine/Cobs.lean ====
section
/-!
DEFINITION. Machine/Cobs.lean: the COBS function (40_cobs.md R80) and the streaming I-frame encoder (R83 to R86).
-/

namespace Sys2Proof.Machine

/-- The number of non-zero bytes a list starts with, at most `limit`. -/
def leadingNonZero : Nat → List Byte → Nat
  | 0, _ => 0
  | _ + 1, [] => 0
  | limit + 1, b :: bs => if b = 0#8 then 0 else leadingNonZero limit bs + 1

/-- `nz_run(F, i)` (40_cobs.md R80). -/
def nzRun (F : List Byte) (i : Nat) : Nat := leadingNonZero 254 (F.drop i)

/-- The code byte of a run of `k` data bytes (40_cobs.md R80, R85). -/
def codeByte (k : Nat) : Byte := if k = 254 then 0xFF#8 else BitVec.ofNat 8 (k + 1)

/-- The loop of `cobs_encode` from source index `i` on (40_cobs.md R80), for at most `fuel` runs. -/
def cobsLoop (F : List Byte) : Nat → Nat → List Byte
  | 0, _ => []
  | fuel + 1, i =>
    let k := nzRun F i
    if k = 254 then codeByte k :: ((F.drop i).take k ++ cobsLoop F fuel (i + k))
    else if i + k = F.length then codeByte k :: (F.drop i).take k
    else codeByte k :: ((F.drop i).take k ++ cobsLoop F fuel (i + k + 1))

/-- `cobs_encode(F)` (40_cobs.md R80). Every run but the last takes at least one source byte, so `|F| + 1` runs are
enough. -/
def cobsEncode (F : List Byte) : List Byte := cobsLoop F (F.length + 1) 0

/-- The wire frame of a frame: its COBS encoding and the delimiter (30_encoding.md R65). -/
def wireFrame (F : List Byte) : List Byte := cobsEncode F ++ [0x00#8]

/-- `enc_seg(S)`, the encoding of a segment with no zero byte (40_cobs.md R81). -/
def encSegment (S : List Byte) : List Byte :=
  (List.range (S.length / 254)).flatMap (fun j => 0xFF#8 :: (S.drop (254 * j)).take 254) ++
    BitVec.ofNat 8 (S.length % 254 + 1) :: S.drop (254 * (S.length / 254))

/-- The segments of a frame, which its zero bytes separate (40_cobs.md R81). -/
def segments : List Byte → List (List Byte)
  | [] => [[]]
  | b :: bs =>
    if b = 0#8 then [] :: segments bs
    else
      match segments bs with
      | [] => [[b]]
      | S :: rest => (b :: S) :: rest

/-- The number of code bytes of a frame's encoding (40_cobs.md R81). -/
def codeByteCount (F : List Byte) : Nat :=
  ((segments F).map (fun S => S.length / 254 + 1)).sum

/-! ### The streaming encoder. `S` is its source (40_cobs.md R83). -/

/-- `enc_peek()`, the byte the encoder offers now, none when the attempt is over (40_cobs.md R85). A DATA byte is read
at `enc_pos` of the source. -/
def encPeek (S : List Byte) (e : Encoder) : Except Fault Byte :=
  match e.phase with
  | .prefixByte => .ok (codeByte (nzRun S e.pos.toNat))
  | .data =>
    match S[e.pos.toNat]? with
    | some b => .ok b
    | none => .error .indexOutOfRange
  | .delim => .ok 0x00#8
  | .done => .error .encoderDone

/-- `after_run(p, chain)` (40_cobs.md R86). -/
def afterRun (S : List Byte) (p : BitVec 9) (chain : Bool) (e : Encoder) : Encoder :=
  if chain then { e with phase := .prefixByte }
  else if p.toNat = S.length then { e with phase := .delim }
  else { e with pos := p + 1#9, phase := .prefixByte }

/-- `enc_advance()`, past the byte just accepted (40_cobs.md R86). It is not called in DONE. -/
def encAdvance (S : List Byte) (e : Encoder) : Encoder :=
  match e.phase with
  | .prefixByte =>
    let k := nzRun S e.pos.toNat
    let e' := { e with rem := BitVec.ofNat 8 k, chain := chainFlag k }
    if k > 0 then { e' with phase := .data } else afterRun S e.pos false e'
  | .data =>
    let p := e.pos + 1#9
    let r := e.rem - 1#8
    let e' := { e with pos := p, rem := r }
    if r = 0#8 then afterRun S p e.chain e' else e'
  | .delim => { e with phase := .done }
  | .done => e

/-- The encoder after `k` accepted bytes from `enc_init` (40_cobs.md R87). -/
def encAfter (S : List Byte) : Nat → Encoder
  | 0 => Encoder.init
  | k + 1 => encAdvance S (encAfter S k)

end Sys2Proof.Machine
end

