-- ==== Sys2Proof/Machine/Transmit.lean ====
section
/-!
DEFINITION. Machine/Transmit.lean: the transmit arbiter (42_arq_tx.md R130) and the micro-step of POLL_TX
(R131 to R135, 44_host_ops.md R176).
-/

namespace Sys2Proof.Machine

/-- Where the next wire byte comes from (42_arq_tx.md R130). -/
inductive TxSource where
  | sCont
  | iCont
  | sStart
  | iStart
  deriving DecidableEq, Repr

/-- `select(now)` (42_arq_tx.md R130), `none` for NONE: finish the S-frame in progress, finish the I-frame in progress,
start the pending S-frame, start the I-frame, take the timeout. -/
def select (now : Instant) (s : State) : Option TxSource × State :=
  if sInProgress s then (some .sCont, s)
  else if iInProgress s then (some .iCont, s)
  else if s.sqValid then (some .sStart, s)
  else if s.txState = .sending then (some .iStart, s)
  else if timerDue now s then (some .iStart, timeout s)
  else (none, s)

/-- The S-frame byte offered (42_arq_tx.md R128). -/
def offerS (s : State) : Except Fault Byte := sByte (offeredKind s) s.sIdx

/-- The I-frame byte offered, `enc_peek()` (40_cobs.md R85, 42_arq_tx.md R132). -/
def offerI (s : State) : Except Fault Byte :=
  match txSource s with
  | .error f => .error f
  | .ok S => encPeek S s.enc

/-- The byte a source offers (44_host_ops.md R176). -/
def offer (src : TxSource) (s : State) : Except Fault Byte :=
  match src with
  | .sCont => offerS s
  | .sStart => offerS s
  | .iCont => offerI s
  | .iStart => offerI s

/-- An S-frame byte has been accepted (42_arq_tx.md R131). -/
def acceptS (s : State) : State :=
  let s' := if s.sIdx = 0#3 then { s with sKind := s.sqKind, sqValid := false } else s
  { s' with sIdx := if s.sIdx + 1#3 = 6#3 then 0#3 else s.sIdx + 1#3 }

/-- An I-frame byte has been accepted (42_arq_tx.md R132). The byte that completes the attempt ends POLL_TX
(R133, 44_host_ops.md R176). -/
def acceptI (now : Instant) (s : State) : Except Fault State :=
  match txSource s with
  | .error f => .error f
  | .ok S =>
    let s' := { s with enc := encAdvance S s.enc, txCursor := s.txCursor + 1#9 }
    if s'.enc.phase = .done then .ok (finish .ok (attemptComplete now s')) else .ok s'

/-- A byte of this source has been accepted (44_host_ops.md R176). -/
def accept (src : TxSource) (now : Instant) (s : State) : Except Fault State :=
  match src with
  | .sCont => .ok (acceptS s)
  | .sStart => .ok (acceptS s)
  | .iCont => acceptI now s
  | .iStart => acceptI now s

/-- One micro-step of POLL_TX: at most one `TxWrite` (44_host_ops.md R176). Nothing advances on would-block or on an
error; a timeout that `select` took stays taken (42_arq_tx.md R134, R135). -/
def txMicro (now : Instant) (s : State) : Out :=
  match select now s with
  | (none, s') => .next (finish .ok s')
  | (some src, s') =>
    match offer src s' with
    | .error f => .fault f
    | .ok b =>
      match drawTx s' with
      | (.wouldBlock, s'') => .next (finish .ok s'')
      | (.error e, s'') => .next (finish (.transportError e) s'')
      | (.ready, s'') => orFault (accept src now (putOnWire b s''))

end Sys2Proof.Machine
end

