-- ==== Sys2Proof/Machine/Decoder.lean ====
section
/-!
DEFINITION. Machine/Decoder.lean: the streaming COBS decoder `dec_step` and `store` (40_cobs.md R90 to R97).
-/

namespace Sys2Proof.Machine

/-- Why a received frame is malformed (43_arq_rx.md R153). The cause is internal: every cause has the same effect. -/
inductive Cause where
  | empty
  | truncated
  | overflow
  | short
  | badHeader
  | badLength
  | badCrc
  | sLength
  deriving DecidableEq, Repr

/-- The event of one received byte (40_cobs.md R90). -/
inductive Event where
  | none
  | complete (L : Nat)
  | malformed (cause : Cause)
  deriving DecidableEq, Repr

/-- `store(v)` (40_cobs.md R97). -/
def store (v : Byte) (s : State) : Except Fault State :=
  if s.rxOverflow then .ok s
  else if overflows s then .ok { s with rxOverflow := true }
  else
    match writeByte s.M s.rxBuffer s.rxCursor v with
    | .error f => .error f
    | .ok m => .ok { s with rxBuffer := m, rxCursor := s.rxCursor + 1 }

/-- The event of a delimiter (40_cobs.md R92): the causes in the order EMPTY, TRUNCATED, OVERFLOW. -/
def delimEvent (s : State) : Event :=
  if s.decCode = 0#8 then .malformed .empty
  else if s.decCnt ≠ 0#8 then .malformed .truncated
  else if s.rxOverflow then .malformed .overflow
  else .complete s.rxCursor

/-- The decoder's registers in their initial state, where a delimiter leaves them (40_cobs.md R92). -/
def decReset (s : State) : State :=
  { s with decCode := 0#8, decCnt := 0#8, rxCursor := 0, rxOverflow := false }

/-- A code byte starts a run of `b - 1` data bytes (40_cobs.md R93, R95). -/
def startRun (b : Byte) (s : State) : State := { s with decCode := b, decCnt := b - 1#8 }

/-- `dec_step(b)` (40_cobs.md R90): the delimiter (R92), the first code byte (R93), a data byte (R94) or a later code
byte (R95), exactly one of them for each byte in each state (R91). -/
def decStep (b : Byte) (s : State) : Except Fault (Event × State) :=
  if b = 0x00#8 then .ok (delimEvent s, decReset s)
  else if s.decCode = 0#8 then .ok (.none, startRun b s)
  else if s.decCnt ≠ 0#8 then
    match store b s with
    | .error f => .error f
    | .ok s' => .ok (.none, { s' with decCnt := s'.decCnt - 1#8 })
  else if s.decCode ≠ 0xFF#8 then
    match store 0x00#8 s with
    | .error f => .error f
    | .ok s' => .ok (.none, startRun b s')
  else .ok (.none, startRun b s)

/-- The decoder fed a sequence of bytes: the event of each, and the state after the last (40_cobs.md R98). -/
def decRun : List Byte → State → Except Fault (List Event × State)
  | [], s => .ok ([], s)
  | b :: bs, s =>
    match decStep b s with
    | .error f => .error f
    | .ok (ev, s') =>
      match decRun bs s' with
      | .error f => .error f
      | .ok (evs, s'') => .ok (ev :: evs, s'')

end Sys2Proof.Machine
end

