-- ==== Sys2Proof/Machine/Frames.lean ====
section
/-!
DEFINITION. Machine/Frames.lean: validation of a completed frame (43_arq_rx.md R152), the dispatch of each frame kind
(R156 to R161), and the meanings of the four frame rows of the opcode table.
-/

namespace Sys2Proof.Machine

/-- What validation answers (43_arq_rx.md R152). -/
inductive Verdict where
  | i (len : Nat)
  | ack
  | nack
  | malformed (cause : Cause)
  deriving DecidableEq, Repr

/-- `validate(L)` of the frame `d = rx_buffer[0 .. L)`, the checks in the spec's order (43_arq_rx.md R152). -/
def validate (d : List Byte) : Verdict :=
  match parseFrame d with
  | .error _ => .malformed .short
  | .ok f =>
    if f.hdr ≠ 0x01#8 ∧ f.hdr ≠ 0x02#8 ∧ f.hdr ≠ 0x03#8 then .malformed .badHeader
    else if d.length ≠ f.len.toNat + 4 then .malformed .badLength
    else if crc16X25 (d.take (d.length - 2)) ≠ f.crc then .malformed .badCrc
    else if f.hdr ≠ 0x01#8 ∧ f.len ≠ 0#8 then .malformed .sLength
    else if f.hdr = 0x01#8 then .i f.len.toNat
    else if f.hdr = 0x02#8 then .ack
    else .nack

/-- The verdict on a received frame by its content: one longer than `rx_buffer` overflowed it (30_encoding.md R71 (c),
43_arq_rx.md R153; log entry 14). -/
def frameVerdict (d : List Byte) (s : State) : Verdict :=
  if s.M < d.length then .malformed .overflow else validate d

/-- `on_malformed()`: a NACK is queued and the frame is discarded (43_arq_rx.md R157). -/
def onMalformed (s : State) : State := sqPut .nack s

/-- `on_i(len)`: an ACK is queued, the payload is returned by value and POLL_RX ends (43_arq_rx.md R156, R150). -/
def onI (d : List Byte) (len : Nat) (s : State) : State :=
  finish (.okMessage (some ((d.drop 2).take len))) (sqPut .ack s)

/-- `on_ack()` (43_arq_rx.md R160). -/
def onAck (s : State) : State :=
  if s.txState = .awaitingAck then { s with txState := .idle, txLen := 0#8 } else s

/-- `on_nack()` (43_arq_rx.md R161). -/
def onNack (s : State) : State :=
  if s.txState = .awaitingAck then startAttempt { s with txState := .sending } else s

/-- What a verdict does (43_arq_rx.md R150): only a valid I-frame ends the POLL_RX. -/
def onVerdict (d : List Byte) (v : Verdict) (s : State) : State :=
  match v with
  | .i len => onI d len s
  | .ack => onAck s
  | .nack => onNack s
  | .malformed _ => onMalformed s

/-- A received frame with the bytes `d` is validated and dispatched (43_arq_rx.md R151). -/
def receiveFrame (d : List Byte) (s : State) : Out := .next (onVerdict d (frameVerdict d s) s)

/-! ### The frame rows. The decoder has the frame's bytes; the row's fields are those bytes (log entry 14). -/

/-- FRAME_I (43_arq_rx.md R156). -/
def execFrameI (len : Byte) (payload : List Byte) (crc : Word16) (s : State) : Out :=
  receiveFrame (frameBytes ⟨0x01#8, len, payload, crc⟩) s

/-- FRAME_ACK (43_arq_rx.md R160). -/
def execFrameAck (len : Byte) (payload : List Byte) (crc : Word16) (s : State) : Out :=
  receiveFrame (frameBytes ⟨0x02#8, len, payload, crc⟩) s

/-- FRAME_NACK (43_arq_rx.md R161). -/
def execFrameNack (len : Byte) (payload : List Byte) (crc : Word16) (s : State) : Out :=
  receiveFrame (frameBytes ⟨0x03#8, len, payload, crc⟩) s

/-- FRAME_BAD_HEADER (43_arq_rx.md R152, R157). -/
def execFrameBadHeader (hdr len : Byte) (payload : List Byte) (crc : Word16) (s : State) : Out :=
  receiveFrame (frameBytes ⟨hdr, len, payload, crc⟩) s

/-- A frame the decoder completed runs as the frame row its header selects (30_encoding.md R62). A frame of fewer than
4 bytes has no row: it is malformed, cause SHORT (43_arq_rx.md R152). -/
def runFrame (d : List Byte) (s : State) : Out :=
  match parseFrame d with
  | .error _ => .next (onMalformed s)
  | .ok f =>
    if f.hdr = 0x01#8 then execFrameI f.len f.payload f.crc s
    else if f.hdr = 0x02#8 then execFrameAck f.len f.payload f.crc s
    else if f.hdr = 0x03#8 then execFrameNack f.len f.payload f.crc s
    else execFrameBadHeader f.hdr f.len f.payload f.crc s

end Sys2Proof.Machine
end

