-- ==== Sys2Proof/Machine/Wire.lean ====
section
/-!
DEFINITION. Machine/Wire.lean: what a received byte does (43_arq_rx.md R150, the `Ready(b)` arm), the meanings of the
four wire rows of the opcode table, and the micro-step of POLL_RX.
-/

namespace Sys2Proof.Machine

/-- What a decoder event does (43_arq_rx.md R150). A completed frame is read from `rx_buffer[0 .. L)`
(20_memory.md R50). -/
def onEvent (ev : Event) (s : State) : Out :=
  match ev with
  | .none => .next s
  | .malformed _ => .next (onMalformed s)
  | .complete L =>
    match readBytes s.M s.rxBuffer 0 L with
    | .error f => .fault f
    | .ok d => runFrame d s

/-- A received byte enters the decoder once, and its event is acted on in the same micro-step (43_arq_rx.md R150). -/
def receiveByte (b : Byte) (s : State) : Out :=
  match decStep b s with
  | .error f => .fault f
  | .ok (ev, s') => onEvent ev s'

/-! ### The wire rows. A row is the byte; its class is the decoder's (40_cobs.md R90; log entry 13). -/

/-- WIRE_DELIM (40_cobs.md R92). -/
def execWireDelim (s : State) : Out := receiveByte 0x00#8 s

/-- WIRE_CODE (40_cobs.md R93, R95). -/
def execWireCode (b : Byte) (s : State) : Out := receiveByte b s

/-- WIRE_CODE_CHAIN (40_cobs.md R93, R95). -/
def execWireCodeChain (s : State) : Out := receiveByte 0xFF#8 s

/-- WIRE_DATA (40_cobs.md R94). -/
def execWireData (b : Byte) (s : State) : Out := receiveByte b s

/-- A byte that POLL_RX has read runs as the wire row it is in this state (40_cobs.md R90). -/
def runWireByte (b : Byte) (s : State) : Out :=
  if b = 0x00#8 then execWireDelim s
  else
    match wirePos s.decCode s.decCnt with
    | .dataDue => execWireData b s
    | .codeDue => if b = 0xFF#8 then execWireCodeChain s else execWireCode b s

/-- `rx_micro()`, one micro-step of POLL_RX: one `RxRead` (43_arq_rx.md R150, 44_host_ops.md R178). -/
def rxMicro (s : State) : Out :=
  match drawRx s with
  | (.wouldBlock, s') => .next (finish (.okMessage none) s')
  | (.error e, s') => .next (finish (.transportError e) s')
  | (.ready b, s') => runWireByte b s'

end Sys2Proof.Machine
end

