-- ==== Sys2Proof/Machine/HostOps.lean ====
section
/-!
DEFINITION. Machine/HostOps.lean: the meanings of the host commands (44_host_ops.md R172 to R180, 30_encoding.md R74).
-/

namespace Sys2Proof.Machine

/-- The instance CONSTRUCT creates (44_host_ops.md R172): the configuration from the operands, every register at its
reset value (10_state.md R41). The registers whose reset value is unspecified, and every byte of both buffers, take
free values (93_implementation_defined.md U1; log entries 4 and 5). Only the outside of the block is kept
(log entry 22). -/
def constructed (n m interval : Nat) (s : State) : State :=
  { s with
    N := n
    M := m
    retryInterval := interval
    txBuffer := Memory.fresh (s.freeCount + 3)
    txLen := 0#8
    txState := .idle
    txCursor := 0#9
    txRetryDeadline := Config.freeInstant s.freeCount
    enc := Encoder.init
    sqValid := false
    sqKind := Config.freeKind (s.freeCount + 1)
    sKind := Config.freeKind (s.freeCount + 2)
    sIdx := 0#3
    rxBuffer := Memory.fresh (s.freeCount + 4)
    rxCursor := 0
    decCode := 0#8
    decCnt := 0#8
    rxOverflow := false
    curOp := .none
    freeCount := s.freeCount + 5 }

/-- CONSTRUCT (44_host_ops.md R172). -/
def execConstruct (n m interval : Nat) (s : State) : Out :=
  whenFree s
    (if n < 4 then .refused .txBufferTooShort
     else .next (finish .ok (constructed n m interval s)))

/-- The buffer after SEND has written the I-frame of `p` into it (44_host_ops.md R174, 20_memory.md R49): the header,
the length and the payload, then their CRC, read back from the buffer, high byte first. -/
def writeIFrame (len : Nat) (m : Memory) (p : List Byte) : Except Fault Memory :=
  match writeBytes len m 0 (0x01#8 :: BitVec.ofNat 8 p.length :: p) with
  | .error f => .error f
  | .ok m' =>
    match readBytes len m' 0 (p.length + 2) with
    | .error f => .error f
    | .ok covered =>
      writeBytes len m' (p.length + 2) [crcHi (crc16X25 covered), crcLo (crc16X25 covered)]

/-- An accepted SEND (44_host_ops.md R174). -/
def sendAccepted (p : List Byte) (s : State) : Out :=
  match writeIFrame s.N s.txBuffer p with
  | .error f => .fault f
  | .ok m =>
    .next (finish .ok
      (startAttempt { s with txBuffer := m, txLen := BitVec.ofNat 8 p.length, txState := .sending }))

/-- SEND (44_host_ops.md R174): BUSY is checked before TOO_LONG, and neither writes anything. -/
def execSend (p : List Byte) (s : State) : Out :=
  whenFree s
    (if s.txState ≠ .idle then .next (finish .busy s)
     else if cap s < p.length then .next (finish .tooLong s)
     else sendAccepted p s)

/-- POLL_TX (44_host_ops.md R176): it starts, and its first micro-step runs (log entry 1). -/
def execPollTx (now : Instant) (s : State) : Out :=
  whenFree s (txMicro now (begin (.pollTx now) s))

/-- POLL_RX (44_host_ops.md R178): it starts, and its first micro-step runs (log entry 1). -/
def execPollRx (s : State) : Out :=
  whenFree s (rxMicro (begin .pollRx s))

/-- IS_IDLE (44_host_ops.md R180). -/
def execIsIdle (s : State) : Out :=
  whenFree s (.next (finish (.okBool (idleStatus s)) s))

/-- RESERVED_CMD (30_encoding.md R74): "A model refuses it, so it has no step and no state change." -/
def execReservedCmd (code : Byte) (_s : State) : Out :=
  .refused (.reservedCommand code)

end Sys2Proof.Machine
end

