-- ==== Sys2Proof/Machine/Dispatch.lean ====
section
/-!
DEFINITION. Machine/Dispatch.lean: one arm for each row of spec/opcode_table.json.
-/

namespace Sys2Proof.Machine

/-- What an instruction does. -/
def exec (i : Instr) (s : State) : Host.Outcome State Fault Refusal :=
  match i with
  -- host commands
  | .construct n m interval => Sys2Proof.Machine.execConstruct n m interval s
  | .send p => Sys2Proof.Machine.execSend p s
  | .pollTx now => Sys2Proof.Machine.execPollTx now s
  | .pollRx => Sys2Proof.Machine.execPollRx s
  | .isIdle => Sys2Proof.Machine.execIsIdle s
  | .reservedCmd code => Sys2Proof.Machine.execReservedCmd code s
  -- received frames
  | .frameI len payload crc => Sys2Proof.Machine.execFrameI len payload crc s
  | .frameAck len payload crc => Sys2Proof.Machine.execFrameAck len payload crc s
  | .frameNack len payload crc => Sys2Proof.Machine.execFrameNack len payload crc s
  | .frameBadHeader hdr len payload crc => Sys2Proof.Machine.execFrameBadHeader hdr len payload crc s
  -- received wire bytes
  | .wireDelim => Sys2Proof.Machine.execWireDelim s
  | .wireCode b => Sys2Proof.Machine.execWireCode b s
  | .wireCodeChain => Sys2Proof.Machine.execWireCodeChain s
  | .wireData b => Sys2Proof.Machine.execWireData b s

end Sys2Proof.Machine
end

