-- ==== Sys2Proof/Machine/Step.lean ====
section
/-!
DEFINITION. Machine/Step.lean: one step of the block, which is one micro-step (00_scope.md R14; log entry 1).
-/

namespace Sys2Proof.Machine

/-- One step. An operation in progress runs its next micro-step (44_host_ops.md R170). Otherwise the next host request
is decoded and run, and a block with no request "is idle between host operations and holds all its state"
(60_exceptions.md R209; log entry 15). WaitingRetry has no step (93_implementation_defined.md U3; log entry 8). -/
def step (s : State) : Host.Outcome State Fault Refusal :=
  if s.txState = .waitingRetry then .fault .waitingRetryStuck
  else
    match s.curOp with
    | .pollTx now => txMicro now s
    | .pollRx => rxMicro s
    | .none =>
      match fetch s with
      | none => .next s
      | some (c, s') =>
        match decodeCommand c with
        | .error e => .refused (.undecodable e)
        | .ok i => exec i s'

/-- `s` with a word of spec/opcode_table.json as the host's next request, and no operation in progress, so that step
decodes and runs it (log entries 11 and 15). -/
def State.withFetchWord (s : State) (nbits w : Nat) : State :=
  { s with requests := tableCommand nbits w :: s.requests, curOp := .none }

end Sys2Proof.Machine
end

