-- ==== Sys2Proof/Safety.lean ====
section
/-!
DEFINITION. Safety.lean: runs of the block, and the invariant of its reachable states: the items of 10_state.md R37,
and what makes the buffers' reads defined (R41, 20_memory.md R46).
-/

namespace Sys2Proof.Machine

/-- `k` steps of the block. -/
def run (k : Nat) (s : State) : Out := Host.Core.run Sys2Proof.core k s

/-- The operation whose micro-step the next step runs: the one in progress, or else the host's next request
(44_host_ops.md R170). -/
def stepOp (s : State) : Option Instr :=
  match s.curOp with
  | .pollTx now => some (.pollTx now)
  | .pollRx => some .pollRx
  | .none =>
    match s.requests with
    | [] => none
    | c :: _ =>
      match decodeCommand c with
      | .ok i => some i
      | .error _ => none

/-- The decoder's initial state, in which every frame begins (40_cobs.md R92, R98). -/
def decoderAtStart (s : State) : Prop :=
  s.decCode = 0#8 ∧ s.decCnt = 0#8 ∧ s.rxCursor = 0 ∧ s.rxOverflow = false

/-- The state with a NACK queued and nothing else changed (43_arq_rx.md R157). -/
def nackQueued (s : State) : State := { s with sqValid := true, sqKind := .nack }

/-- Every listed index of a buffer with `len` bytes is in range (20_memory.md R45). -/
def Memory.inRange (len : Nat) (m : Memory) : Bool := m.cells.all (fun c => decide (c.1 < len))

/-- The first `n` bytes of a buffer have been written since CONSTRUCT, so none of them is unspecified
(10_state.md R41). -/
def Memory.writtenBelow (m : Memory) (n : Nat) : Bool := (List.range n).all m.written

/-- The state with other unspecified contents in both buffers, and the same written bytes (10_state.md R41). -/
def State.withContents (u v : Nat) (s : State) : State :=
  { s with txBuffer := { s.txBuffer with contents := u }, rxBuffer := { s.rxBuffer with contents := v } }

/-- `tx_buffer[0 .. tx_len+4)` holds an I-frame whose payload has `tx_len` bytes (10_state.md R23, 20_memory.md R49). -/
def holdsIFrame (s : State) : Bool :=
  match txSource s with
  | .ok S => S == iFrame ((S.drop 2).take s.txLen.toNat)
  | .error _ => false

/-- The encoder has emitted the first `tx_cursor` bytes of the wire frame of its source, and not the whole of it
(10_state.md R27, 40_cobs.md R87). -/
def encoderInStep (s : State) : Bool :=
  match txSource s with
  | .ok S => s.enc == encAfter S s.txCursor.toNat && decide (s.txCursor.toNat < (wireFrame S).length)
  | .error _ => false

/-- What holds in every reachable state. -/
structure Inv (s : State) : Prop where
  /-- 00_scope.md R7. -/
  bufferLength : 4 ≤ s.N
  /-- 10_state.md R37 (a). -/
  lengthInCap : s.txLen.toNat ≤ cap s
  /-- 10_state.md R37 (b). -/
  idleHasNoLength : s.txState = .idle → s.txLen = 0#8
  /-- 10_state.md R37 (c). -/
  rxCursorInBuffer : s.rxCursor ≤ s.M
  /-- 10_state.md R35: overflow is set with the cursor at `M`, where it stays. -/
  overflowAtEnd : s.rxOverflow = true → s.rxCursor = s.M
  /-- 10_state.md R37 (e). -/
  cursorOnlySending : s.txCursor ≠ 0#9 → s.txState = .sending
  /-- 10_state.md R37 (f). -/
  oneFrameInProgress : ¬(s.sIdx ≠ 0#3 ∧ s.txCursor ≠ 0#9)
  /-- 10_state.md R37 (g). -/
  neverWaitingRetry : s.txState ≠ .waitingRetry
  /-- 10_state.md R37 (h), first part. -/
  countInRun : s.decCnt.toNat ≤ 254
  /-- 10_state.md R37 (h), second part. -/
  countNeedsCode : s.decCode = 0#8 → s.decCnt = 0#8
  /-- 10_state.md R34: before its first code byte a frame has no byte stored. -/
  frameStart : s.decCode = 0#8 → s.rxCursor = 0 ∧ s.rxOverflow = false
  /-- 10_state.md R31. -/
  sIndexInFrame : s.sIdx.toNat ≤ 5
  /-- The buffers keep their canonical form, within their ranges (20_memory.md R45). -/
  txBufferForm : s.txBuffer.wf = true ∧ s.txBuffer.inRange s.N = true
  rxBufferForm : s.rxBuffer.wf = true ∧ s.rxBuffer.inRange s.M = true
  /-- 10_state.md R23. -/
  holdsFrame : s.txState ≠ .idle → holdsIFrame s = true
  /-- 10_state.md R41: the frame's bytes have all been written, so none is unspecified. -/
  frameWritten : s.txState ≠ .idle → s.txBuffer.writtenBelow (txSourceLen s) = true
  /-- 10_state.md R27, 40_cobs.md R87. -/
  encoderTracks : s.txState = .sending → encoderInStep s = true
  /-- 10_state.md R32: every byte of the frame in progress has been stored. -/
  frameStored : s.rxBuffer.writtenBelow s.rxCursor = true
  /-- 10_state.md R42, 60_exceptions.md R190: an operation in progress has returned nothing yet. -/
  noResultYet : s.curOp ≠ .none → s.result = none

end Sys2Proof.Machine
end

