-- ==== Sys2Proof/Certificates/Slice0/Obligations.lean ====
section
/-!
DEFINITION. Certificates/Slice0/Obligations.lean: the statements about the link block, from the numbered rules of
spec/. `readBytes` and `Memory.get` are the model's reads of buffer bytes; `Memory.written` says which bytes have been
written since CONSTRUCT; `run k` is `k` steps; `Inv` is the invariant of Safety.lean.
-/

open Sys2Proof Sys2Proof.Machine

/-! ### Reset and CONSTRUCT -/

/-- 10_state.md R41, the rows whose value the spec states, of `State.reset`, and that no byte of either buffer has been
written, so that every one reads as a free value (log entry 5). -/
def Obligations.ResetHoldsSpecifiedValues : Prop :=
  (∀ a, State.reset.txBuffer.written a = false ∧ State.reset.rxBuffer.written a = false) ∧
  State.reset.txLen = 0#8 ∧ State.reset.txState = .idle ∧ State.reset.txCursor = 0#9 ∧
  State.reset.enc = ⟨0#9, 0#8, false, .prefixByte⟩ ∧ State.reset.sqValid = false ∧ State.reset.sIdx = 0#3 ∧
  State.reset.rxCursor = 0 ∧ State.reset.decCode = 0#8 ∧ State.reset.decCnt = 0#8 ∧
  State.reset.rxOverflow = false ∧ State.reset.curOp = .none

/-- 44_host_ops.md R172: CONSTRUCT is refused for `N < 4`; otherwise it sets the configuration and every register to
its reset value (10_state.md R41), returns OK, and nothing of the old instance survives: the answer is the same for
every state with the same outside (requests, wire, scripts, and the count that the free values depend on). That the
unspecified bytes are the unwritten ones, and that the requests, the wire and the scripts are kept, is the model's choice
(log entries 5 and 22). -/
def Obligations.ConstructLeavesResetValues : Prop :=
  ∀ (n m interval : Nat) (s : State), s.curOp = .none →
    (n < 4 → exec (.construct n m interval) s = .refused .txBufferTooShort) ∧
    (4 ≤ n → ∃ t, exec (.construct n m interval) s = .next t ∧
      t.N = n ∧ t.M = m ∧ t.retryInterval = interval ∧ cap t = min 255 (n - 4) ∧
      (∀ a, t.txBuffer.written a = false ∧ t.rxBuffer.written a = false) ∧
      t.txLen = 0#8 ∧ t.txState = .idle ∧ t.txCursor = 0#9 ∧ t.enc = ⟨0#9, 0#8, false, .prefixByte⟩ ∧
      t.sqValid = false ∧ t.sIdx = 0#3 ∧ t.rxCursor = 0 ∧ t.decCode = 0#8 ∧ t.decCnt = 0#8 ∧
      t.rxOverflow = false ∧ t.curOp = .none ∧ t.result = some .ok ∧
      t.requests = s.requests ∧ t.txWire = s.txWire ∧ t.txScript = s.txScript ∧ t.rxScript = s.rxScript) ∧
    (∀ s', s'.curOp = .none → s'.requests = s.requests → s'.txWire = s.txWire → s'.txScript = s.txScript →
      s'.rxScript = s.rxScript → s'.freeCount = s.freeCount →
      exec (.construct n m interval) s' = exec (.construct n m interval) s)

/-- 70_reset_and_hazards.md R211, its three items: right after CONSTRUCT, IS_IDLE returns true, POLL_TX returns OK with
no transport call, and POLL_RX takes the first non-zero byte it reads as the first code byte of a frame. -/
def Obligations.FirstOperationsAfterConstruct : Prop :=
  ∀ (n m interval : Nat) (s t : State), s.curOp = .none → 4 ≤ n → exec (.construct n m interval) s = .next t →
    exec .isIdle t = .next { t with result := some (.okBool true) } ∧
    (∀ now, exec (.pollTx now) t = .next { t with result := some .ok }) ∧
    (∀ (b : Byte) (rest : List RxResponse), b ≠ 0#8 → t.rxScript = .ready b :: rest →
      exec .pollRx t = .next { t with
        curOp := .pollRx, result := none, rxScript := rest, decCode := b, decCnt := b - 1#8 })

/-! ### The host's operations -/

/-- 44_host_ops.md R174 and 20_memory.md R49: BUSY first, then TOO_LONG, neither changing any state; otherwise the
I-frame is in `tx_buffer`, the attempt is started, and nothing else changes. -/
def Obligations.SendBuildsTheFrame : Prop :=
  ∀ (p : List Byte) (s : State), s.curOp = .none →
    (s.txState ≠ .idle → exec (.send p) s = .next { s with result := some .busy }) ∧
    (s.txState = .idle → min 255 (s.N - 4) < p.length →
      exec (.send p) s = .next { s with result := some .tooLong }) ∧
    (s.txState = .idle → 4 ≤ s.N → p.length ≤ min 255 (s.N - 4) →
      ∃ m : Memory,
        exec (.send p) s = .next { s with
          txBuffer := m, txLen := BitVec.ofNat 8 p.length, txState := .sending,
          enc := ⟨0#9, 0#8, false, .prefixByte⟩, txCursor := 0#9, result := some .ok } ∧
        m.get 0 = 0x01#8 ∧ m.get 1 = BitVec.ofNat 8 p.length ∧
        (∀ i (h : i < p.length), m.get (i + 2) = p[i]) ∧
        m.get (p.length + 2) = (crc16X25 (0x01#8 :: BitVec.ofNat 8 p.length :: p)).extractLsb' 8 8 ∧
        m.get (p.length + 3) = (crc16X25 (0x01#8 :: BitVec.ofNat 8 p.length :: p)).extractLsb' 0 8 ∧
        (∀ a, p.length + 4 ≤ a → m.get a = s.txBuffer.get a))

/-- 44_host_ops.md R180: IS_IDLE returns `tx_state = Idle` and changes nothing. -/
def Obligations.IsIdleReportsTheSender : Prop :=
  ∀ s : State, s.curOp = .none →
    exec .isIdle s = .next { s with result := some (.okBool (decide (s.txState = .idle))) }

/-- 44_host_ops.md R170: a request made while an operation is in progress has no move. -/
def Obligations.RequestsDuringAnOperationHaveNoMove : Prop :=
  ∀ s : State, s.curOp ≠ .none →
    (∀ n m interval, exec (.construct n m interval) s = .refused .operationInProgress) ∧
    (∀ p, exec (.send p) s = .refused .operationInProgress) ∧
    (∀ now, exec (.pollTx now) s = .refused .operationInProgress) ∧
    exec .pollRx s = .refused .operationInProgress ∧
    exec .isIdle s = .refused .operationInProgress

/-- 30_encoding.md R74: a command code of `0x05` to `0xFF` names no operation and is refused, with no step. -/
def Obligations.ReservedCodesAreRefused : Prop :=
  ∀ (code : Byte) (operands : List Operand) (s : State), 5 ≤ code.toNat →
    decodeCommand ⟨code, operands⟩ = .ok (.reservedCmd code) ∧
    exec (.reservedCmd code) s = .refused (.reservedCommand code) ∧
    (∀ rest, s.txState ≠ .waitingRetry → s.curOp = .none → s.requests = ⟨code, operands⟩ :: rest →
      step s = .refused (.reservedCommand code))

/-- 60_exceptions.md R190: the results each operation can end with, and that a poll which has not ended has none. -/
def Obligations.ResultsOfEachOperation : Prop :=
  ∀ (i : Instr) (s t : State), exec i s = .next t →
    (∀ n m interval, i = .construct n m interval → t.curOp = .none ∧ t.result = some .ok) ∧
    (∀ p, i = .send p → t.curOp = .none ∧
      (t.result = some .ok ∨ (t.result = some .busy ∧ s.txState ≠ .idle) ∨
        (t.result = some .tooLong ∧ s.txState = .idle ∧ min 255 (s.N - 4) < p.length))) ∧
    (∀ now, i = .pollTx now → (t.curOp = .pollTx now ∧ t.result = none) ∨
      (t.curOp = .none ∧ (t.result = some .ok ∨ ∃ e, t.result = some (.transportError e)))) ∧
    (i = .pollRx → (t.curOp = .pollRx ∧ t.result = none) ∨
      (t.curOp = .none ∧ ((∃ msg, t.result = some (.okMessage msg)) ∨ ∃ e, t.result = some (.transportError e)))) ∧
    (i = .isIdle → t.curOp = .none ∧ ∃ b, t.result = some (.okBool b))

/-! ### POLL_TX -/

/-- 42_arq_tx.md R130, last case: with no S-frame, and Idle or before the deadline, POLL_TX writes nothing. -/
def Obligations.PollTxWithNothingToSend : Prop :=
  ∀ (now : Instant) (s : State), s.curOp = .none → s.sIdx = 0#3 → s.sqValid = false →
    (s.txState = .idle ∨ (s.txState = .awaitingAck ∧ now < s.txRetryDeadline)) →
    exec (.pollTx now) s = .next { s with result := some .ok }

/-- 42_arq_tx.md R127, R128, R131: an S-frame in progress goes on, and a queued one starts unless an I-frame is in
progress; its next byte is put on the wire, and only the S-frame queue and transmitter change. -/
def Obligations.PollTxSendsTheSFrame : Prop :=
  ∀ (now : Instant) (s : State) (rest : List TxResponse), s.curOp = .none → s.sIdx.toNat ≤ 5 →
    (s.sIdx ≠ 0#3 ∨ (s.sqValid = true ∧ ¬(s.txState = .sending ∧ s.txCursor ≠ 0#9))) →
    s.txScript = .ready :: rest →
    ∃ b, (sBytes (if s.sIdx = 0#3 then s.sqKind else s.sKind))[s.sIdx.toNat]? = some b ∧
      exec (.pollTx now) s = .next { s with
        curOp := .pollTx now, result := none, txScript := rest, txWire := s.txWire ++ [b],
        sKind := if s.sIdx = 0#3 then s.sqKind else s.sKind,
        sqValid := if s.sIdx = 0#3 then false else s.sqValid,
        sIdx := if s.sIdx = 5#3 then 0#3 else s.sIdx + 1#3 }

/-- 42_arq_tx.md R132, R133: the I-frame's next byte is the byte of its wire frame at `tx_cursor`; the last one, the
delimiter, completes the attempt, arms the retry timer and ends the POLL_TX. -/
def Obligations.PollTxSendsTheNextWireByte : Prop :=
  ∀ (now : Instant) (s : State) (S : List Byte) (rest : List TxResponse), Inv s → s.curOp = .none →
    s.sIdx = 0#3 → s.txState = .sending → (s.txCursor ≠ 0#9 ∨ s.sqValid = false) →
    txSource s = .ok S → s.txScript = .ready :: rest →
    ∃ b, (wireFrame S)[s.txCursor.toNat]? = some b ∧
      (s.txCursor.toNat + 1 < (wireFrame S).length →
        exec (.pollTx now) s = .next { s with
          curOp := .pollTx now, result := none, txScript := rest, txWire := s.txWire ++ [b],
          enc := encAdvance S s.enc, txCursor := s.txCursor + 1#9 }) ∧
      (s.txCursor.toNat + 1 = (wireFrame S).length →
        exec (.pollTx now) s = .next { s with
          curOp := .none, result := some .ok, txScript := rest, txWire := s.txWire ++ [b],
          enc := encAdvance S s.enc, txState := .awaitingAck, txRetryDeadline := now + s.retryInterval,
          txCursor := 0#9 })

/-- 42_arq_tx.md R136: at `now >= tx_retry_deadline`, with no frame in progress and no S-frame pending, AwaitingAck goes
to Sending, a new attempt starts, and its first byte is offered in the same call. -/
def Obligations.TimeoutRestartsTheAttempt : Prop :=
  ∀ (now : Instant) (s : State) (S : List Byte) (rest : List TxResponse), Inv s → s.curOp = .none →
    s.sIdx = 0#3 → s.sqValid = false → s.txState = .awaitingAck → s.txRetryDeadline ≤ now →
    txSource s = .ok S → s.txScript = .ready :: rest →
    ∃ b, (wireFrame S)[0]? = some b ∧
      exec (.pollTx now) s = .next { s with
        curOp := .pollTx now, result := none, txScript := rest, txWire := s.txWire ++ [b],
        txState := .sending, enc := encAdvance S ⟨0#9, 0#8, false, .prefixByte⟩, txCursor := 1#9 }

/-- 40_cobs.md R88, 42_arq_tx.md R134, R135: on would-block and on an error nothing advances, POLL_TX returns OK or
TRANSPORT_ERROR, a timeout that the arbiter took stays taken, and the same byte is on offer afterwards. -/
def Obligations.UnacceptedByteStaysOnOffer : Prop :=
  ∀ (now : Instant) (s s1 : State) (src : TxSource) (rest : List TxResponse), Inv s → s.curOp = .none →
    select now s = (some src, s1) →
    (s1 = s ∨ (s.txState = .awaitingAck ∧ s.txRetryDeadline ≤ now ∧
      s1 = { s with txState := .sending, enc := ⟨0#9, 0#8, false, .prefixByte⟩, txCursor := 0#9 })) ∧
    (s.txScript = .wouldBlock :: rest →
      exec (.pollTx now) s = .next { s1 with curOp := .none, result := some .ok, txScript := rest }) ∧
    (∀ e, s.txScript = .error e :: rest →
      exec (.pollTx now) s =
        .next { s1 with curOp := .none, result := some (.transportError e), txScript := rest }) ∧
    (∀ r, offer src { s1 with curOp := .none, result := some r, txScript := rest } = offer src s1)

/-- 20_memory.md R57, 40_cobs.md R87, 42_arq_tx.md R133: an attempt whose bytes are all accepted puts the whole wire
frame of `tx_buffer[0 .. tx_len+4)` on the wire, contiguously, and ends in AwaitingAck with the timer armed. The
buffer keeps the frame, so every attempt puts the same bytes there. -/
def Obligations.AttemptEmitsTheWireFrame : Prop :=
  ∀ (now : Instant) (s : State) (S : List Byte) (rest : List TxResponse), Inv s → s.curOp = .pollTx now →
    s.sIdx = 0#3 → s.sqValid = false → s.txState = .sending → s.txCursor = 0#9 → txSource s = .ok S →
    s.txScript = List.replicate (wireFrame S).length .ready ++ rest →
    ∃ e : Encoder, e.phase = .done ∧
      run (wireFrame S).length s = .next { s with
        enc := e, txState := .awaitingAck, txRetryDeadline := now + s.retryInterval, txCursor := 0#9,
        txWire := s.txWire ++ wireFrame S, txScript := rest, curOp := .none, result := some .ok }

/-- 42_arq_tx.md R138: a POLL_TX ends within 274 micro-steps, each of which makes at most one transport write, whatever
the transport answers. -/
def Obligations.PollTxAlwaysEnds : Prop :=
  ∀ (now : Instant) (s : State) (rest : List Command), Inv s → s.curOp = .none →
    s.requests = ⟨0x02#8, [.nat now]⟩ :: rest →
    ∃ (k : Nat) (t : State), 1 ≤ k ∧ k ≤ 274 ∧ run k s = .next t ∧ t.curOp = .none ∧ t.requests = rest ∧
      (t.result = some .ok ∨ ∃ e, t.result = some (.transportError e))

/-! ### COBS and CRC -/

/-- 40_cobs.md R87: from `enc_init`, the bytes the encoder offers up to DONE are `cobs_encode(S) ++ [0x00]`. -/
def Obligations.StreamingEncoderMeetsCobs : Prop :=
  ∀ S : List Byte, S.length ≤ 259 →
    (∀ k b, (cobsEncode S ++ [0x00#8])[k]? = some b →
      (encAfter S k).phase ≠ .done ∧ encPeek S (encAfter S k) = .ok b) ∧
    (encAfter S ((cobsEncode S).length + 1)).phase = .done

/-- 40_cobs.md R98, R82 (b): the decoder, fed `cobs_encode(F)` and the delimiter from its initial state, gives no event
before the delimiter, then `Complete(|F|)` with `F` in `rx_buffer[0 .. |F|)`, and is in its initial state again. -/
def Obligations.DecoderInvertsCobs : Prop :=
  ∀ (F : List Byte) (s : State), F.length ≤ s.M → decoderAtStart s →
    ∃ m : Memory,
      decRun (cobsEncode F ++ [0x00#8]) s =
        .ok (List.replicate (cobsEncode F).length .none ++ [.complete F.length], { s with rxBuffer := m }) ∧
      readBytes s.M m 0 F.length = .ok F ∧
      ∀ a, F.length ≤ a → m.get a = s.rxBuffer.get a

/-- 40_cobs.md R81: `cobs_encode` by segments. -/
def Obligations.CobsEncodesSegmentBySegment : Prop :=
  ∀ F : List Byte,
    F = List.intercalate [0x00#8] (segments F) ∧ (∀ S ∈ segments F, 0x00#8 ∉ S) ∧
    cobsEncode F = (segments F).flatMap encSegment

/-- 40_cobs.md R82 (a), (c): the encoding holds no zero, and its overhead is exact and bounded. -/
def Obligations.CobsIsZeroFreeAndShort : Prop :=
  ∀ F : List Byte,
    0x00#8 ∉ cobsEncode F ∧
    (cobsEncode F).length = F.length + ((segments F).map (fun S => S.length / 254)).sum + 1 ∧
    (cobsEncode F).length ≤ F.length + F.length / 254 + 1

/-- 30_encoding.md R69: the length of a wire frame, and its range for a frame of 4 to 259 bytes. -/
def Obligations.WireFrameLength : Prop :=
  ∀ F : List Byte,
    (wireFrame F).length + F.count 0x00#8 = F.length + codeByteCount F + 1 ∧
    (4 ≤ F.length → F.length ≤ 259 → 6 ≤ (wireFrame F).length ∧ (wireFrame F).length ≤ 262)

/-- 30_encoding.md R72: a decoder at the end of a `0xFF` run takes the delimiter, and code `0x01` and the delimiter,
alike; at the end of a shorter run code `0x01` and the delimiter leave one trailing `0x00`. -/
def Obligations.DecoderAcceptsNonCanonicalEnds : Prop :=
  ∀ s : State, s.decCnt = 0#8 →
    (s.decCode = 0xFF#8 → ∀ ev t,
      (decRun [0x01#8, 0x00#8] s = .ok ([.none, ev], t) ↔ decRun [0x00#8] s = .ok ([ev], t))) ∧
    (s.decCode ≠ 0x00#8 → s.decCode ≠ 0xFF#8 → s.rxOverflow = false → s.rxCursor < s.M →
      ∃ t, decRun [0x01#8, 0x00#8] s = .ok ([.none, .complete (s.rxCursor + 1)], t) ∧
        t.rxBuffer.get s.rxCursor = 0x00#8 ∧
        ∀ a, a ≠ s.rxCursor → t.rxBuffer.get a = s.rxBuffer.get a)

/-- 41_crc.md R112: the byte-serial form computes the same value for every input. -/
def Obligations.CrcFormsAgree : Prop :=
  reflect16 0x1021#16 = 0x8408#16 ∧ ∀ s : List Byte, crcSerial s = crc16X25 s

/-- 41_crc.md R116: the worked values, and the register trace of the byte-serial form. -/
def Obligations.CrcWorkedValues : Prop :=
  crc16X25 [0x01#8, 0x03#8, 0x31#8, 0x32#8, 0x33#8] = 0xBB86#16 ∧
  crc16X25 [0x02#8, 0x00#8] = 0x3CF7#16 ∧
  crc16X25 [0x03#8, 0x00#8] = 0x252F#16 ∧
  crc16X25 [0x01#8, 0x00#8] = 0x169F#16 ∧
  crc16X25 [0x01#8, 0x01#8, 0x00#8] = 0x85C8#16 ∧
  crc16X25 [0x01#8, 0x01#8, 0x41#8] = 0xD645#16 ∧
  crc16X25 [0x31#8, 0x32#8, 0x33#8, 0x34#8, 0x35#8, 0x36#8, 0x37#8, 0x38#8, 0x39#8] = 0x906E#16 ∧
  crcStep 0xFFFF#16 0x01#8 = 0x1E0E#16 ∧ crcStep 0x1E0E#16 0x03#8 = 0xDBFB#16 ∧
  crcStep 0xDBFB#16 0x31#8 = 0x698D#16 ∧ crcStep 0x698D#16 0x32#8 = 0x4D15#16 ∧
  crcStep 0x4D15#16 0x33#8 = 0x4479#16 ∧ crcFinal 0x4479#16 = 0xBB86#16

/-- 30_encoding.md R70: the two S-frames, their CRCs, and their wire frames, which are the transmitter's constants. -/
def Obligations.SFrameConstants : Prop :=
  sFrame .ack = [0x02#8, 0x00#8, 0x3C#8, 0xF7#8] ∧ crc16X25 [0x02#8, 0x00#8] = 0x3CF7#16 ∧
  wireFrame (sFrame .ack) = [0x02#8, 0x02#8, 0x03#8, 0x3C#8, 0xF7#8, 0x00#8] ∧
  sFrame .nack = [0x03#8, 0x00#8, 0x25#8, 0x2F#8] ∧ crc16X25 [0x03#8, 0x00#8] = 0x252F#16 ∧
  wireFrame (sFrame .nack) = [0x02#8, 0x03#8, 0x03#8, 0x25#8, 0x2F#8, 0x00#8] ∧
  (∀ k, sBytes k = wireFrame (sFrame k))

/-! ### Received bytes -/

/-- 43_arq_rx.md R150, 60_exceptions.md R193: would-block and an error end the POLL_RX with nothing else changed, and a
byte runs as the wire row it is in the decoder's state. -/
def Obligations.PollRxReadsOneByte : Prop :=
  ∀ (s : State) (rest : List RxResponse), s.curOp = .none →
    (s.rxScript = .wouldBlock :: rest →
      exec .pollRx s = .next { s with result := some (.okMessage none), rxScript := rest }) ∧
    (∀ e, s.rxScript = .error e :: rest →
      exec .pollRx s = .next { s with result := some (.transportError e), rxScript := rest }) ∧
    (∀ b, s.rxScript = .ready b :: rest →
      exec .pollRx s = exec (decodeWire (wirePos s.decCode s.decCnt) b)
        { s with curOp := .pollRx, result := none, rxScript := rest })

/-- 40_cobs.md R92: the delimiter's event, with the causes in order, the registers it resets, and, when the frame is
complete, that the frame in `rx_buffer` runs as its frame row in the same micro-step (43_arq_rx.md R150, R152), or is
NACKed where it is shorter than any frame (R157). That a frame row's fields are the frame's bytes is the model's reading
(log entry 14). -/
def Obligations.DelimiterEndsTheFrame : Prop :=
  ∀ s : State,
    (s.decCode = 0#8 → decStep 0x00#8 s = .ok (.malformed .empty, decReset s)) ∧
    (s.decCode ≠ 0#8 → s.decCnt ≠ 0#8 → decStep 0x00#8 s = .ok (.malformed .truncated, decReset s)) ∧
    (s.decCode ≠ 0#8 → s.decCnt = 0#8 → s.rxOverflow = true →
      decStep 0x00#8 s = .ok (.malformed .overflow, decReset s)) ∧
    (s.decCode ≠ 0#8 → s.decCnt = 0#8 → s.rxOverflow = false →
      decStep 0x00#8 s = .ok (.complete s.rxCursor, decReset s) ∧
      ∀ d, readBytes s.M s.rxBuffer 0 s.rxCursor = .ok d →
        (d.length < 4 → exec .wireDelim s = .next (nackQueued (decReset s))) ∧
        (∀ i, decodeFrame d = .ok i → exec .wireDelim s = exec i (decReset s))) ∧
    decReset s = { s with decCode := 0#8, decCnt := 0#8, rxCursor := 0, rxOverflow := false }

/-- 40_cobs.md R93: the first code byte of a frame starts its run, and no byte is stored. -/
def Obligations.FirstCodeByteStartsARun : Prop :=
  ∀ s : State, s.decCode = 0#8 →
    (∀ b : Byte, b ≠ 0#8 → exec (.wireCode b) s = .next { s with decCode := b, decCnt := b - 1#8 }) ∧
    exec .wireCodeChain s = .next { s with decCode := 0xFF#8, decCnt := 254#8 }

/-- 40_cobs.md R94, R97: a data byte is stored at `rx_cursor`, or sets the overflow flag when the buffer is full, or is
dropped once the flag is set; it counts in every case. An index out of range is a fault of the model (20_memory.md R46;
log entry 6). -/
def Obligations.DataByteIsStored : Prop :=
  ∀ (b : Byte) (s : State), b ≠ 0#8 → s.decCode ≠ 0#8 → s.decCnt ≠ 0#8 →
    (s.rxOverflow = true → exec (.wireData b) s = .next { s with decCnt := s.decCnt - 1#8 }) ∧
    (s.rxOverflow = false → s.rxCursor = s.M →
      exec (.wireData b) s = .next { s with rxOverflow := true, decCnt := s.decCnt - 1#8 }) ∧
    (s.rxOverflow = false → s.rxCursor < s.M →
      ∃ m : Memory,
        exec (.wireData b) s = .next { s with
          rxBuffer := m, rxCursor := s.rxCursor + 1, decCnt := s.decCnt - 1#8 } ∧
        m.get s.rxCursor = b ∧ ∀ a, a ≠ s.rxCursor → m.get a = s.rxBuffer.get a) ∧
    (s.rxOverflow = false → s.M < s.rxCursor → exec (.wireData b) s = .fault .indexOutOfRange)

/-- 40_cobs.md R95: a later code byte restores the source zero of the run before it, unless that run's code was `0xFF`,
and starts its own run. `i` is the row of the code byte `b`. An index out of range is a fault of the model (20_memory.md R46;
log entry 6). -/
def Obligations.LaterCodeByteRestoresTheZero : Prop :=
  ∀ (b : Byte) (i : Instr) (s : State), b ≠ 0#8 → (i = .wireCode b ∨ (i = .wireCodeChain ∧ b = 0xFF#8)) →
    s.decCode ≠ 0#8 → s.decCnt = 0#8 →
    (s.decCode = 0xFF#8 → exec i s = .next { s with decCode := b, decCnt := b - 1#8 }) ∧
    (s.decCode ≠ 0xFF#8 → s.rxOverflow = true →
      exec i s = .next { s with decCode := b, decCnt := b - 1#8 }) ∧
    (s.decCode ≠ 0xFF#8 → s.rxOverflow = false → s.rxCursor = s.M →
      exec i s = .next { s with rxOverflow := true, decCode := b, decCnt := b - 1#8 }) ∧
    (s.decCode ≠ 0xFF#8 → s.rxOverflow = false → s.rxCursor < s.M →
      ∃ m : Memory,
        exec i s = .next { s with
          rxBuffer := m, rxCursor := s.rxCursor + 1, decCode := b, decCnt := b - 1#8 } ∧
        m.get s.rxCursor = 0x00#8 ∧ ∀ a, a ≠ s.rxCursor → m.get a = s.rxBuffer.get a) ∧
    (s.decCode ≠ 0xFF#8 → s.rxOverflow = false → s.M < s.rxCursor → exec i s = .fault .indexOutOfRange)

/-- 70_reset_and_hazards.md R224, R228: a POLL_RX fed one stray `0x00` after another at a frame's start goes on for as
long as they last, each of them queueing a NACK. -/
def Obligations.PollRxMayGoOnForEver : Prop :=
  ∀ (k : Nat) (s : State) (rest : List RxResponse), s.txState ≠ .waitingRetry → s.curOp = .pollRx →
    decoderAtStart s → s.rxScript = List.replicate (k + 1) (.ready 0x00#8) ++ rest →
    run (k + 1) s = .next { nackQueued s with rxScript := rest }

/-! ### Received frames -/

/-- 43_arq_rx.md R156, R163: a valid I-frame queues ACK and returns its payload by value, the empty one too. -/
def Obligations.IFrameIsAckedAndReturned : Prop :=
  ∀ (p : List Byte) (s : State), p.length ≤ 255 → p.length + 4 ≤ s.M →
    exec (.frameI (BitVec.ofNat 8 p.length) p (crc16X25 (0x01#8 :: BitVec.ofNat 8 p.length :: p))) s =
      .next { s with
        sqValid := true, sqKind := .ack, curOp := .none, result := some (.okMessage (some p)) }

/-- 43_arq_rx.md R160: a valid ACK frees a sender that awaits one, and is ignored otherwise. -/
def Obligations.AckFreesTheSender : Prop :=
  ∀ s : State, 4 ≤ s.M →
    (s.txState = .awaitingAck →
      exec (.frameAck 0x00#8 [] 0x3CF7#16) s = .next { s with txState := .idle, txLen := 0#8 }) ∧
    (s.txState ≠ .awaitingAck → exec (.frameAck 0x00#8 [] 0x3CF7#16) s = .next s)

/-- 43_arq_rx.md R161: a valid NACK makes a sender that awaits an answer start a new attempt, and is ignored
otherwise. -/
def Obligations.NackRestartsTheAttempt : Prop :=
  ∀ s : State, 4 ≤ s.M →
    (s.txState = .awaitingAck →
      exec (.frameNack 0x00#8 [] 0x252F#16) s = .next { s with
        txState := .sending, enc := ⟨0#9, 0#8, false, .prefixByte⟩, txCursor := 0#9 }) ∧
    (s.txState ≠ .awaitingAck → exec (.frameNack 0x00#8 [] 0x252F#16) s = .next s)

/-- 30_encoding.md R71, 43_arq_rx.md R157: every malformed frame, (a) to (h), queues a NACK, is discarded, and changes
nothing else. The second form of (c), a frame row longer than `rx_buffer`, is the model's reading (log entry 14). -/
def Obligations.MalformedFramesQueueANack : Prop :=
  ∀ s : State,
    -- (a) empty, (b) truncated, (c) overflowed
    (s.decCode = 0#8 → exec .wireDelim s = .next (nackQueued (decReset s))) ∧
    (s.decCode ≠ 0#8 → s.decCnt ≠ 0#8 → exec .wireDelim s = .next (nackQueued (decReset s))) ∧
    (s.decCode ≠ 0#8 → s.decCnt = 0#8 → s.rxOverflow = true →
      exec .wireDelim s = .next (nackQueued (decReset s))) ∧
    (∀ f : Frame, s.M < f.payload.length + 4 → exec (frameInstr f) s = .next (nackQueued s)) ∧
    -- (d) fewer than 4 bytes
    (s.decCode ≠ 0#8 → s.decCnt = 0#8 → s.rxOverflow = false → s.rxCursor < 4 → s.rxCursor ≤ s.M →
      exec .wireDelim s = .next (nackQueued (decReset s))) ∧
    -- (e) header
    (∀ (hdr len : Byte) (p : List Byte) (crc : Word16), hdr ≠ 0x01#8 → hdr ≠ 0x02#8 → hdr ≠ 0x03#8 →
      exec (.frameBadHeader hdr len p crc) s = .next (nackQueued s)) ∧
    -- (f) length
    (∀ f : Frame, f.payload.length ≠ f.len.toNat → exec (frameInstr f) s = .next (nackQueued s)) ∧
    -- (g) CRC
    (∀ f : Frame, crc16X25 (f.hdr :: f.len :: f.payload) ≠ f.crc →
      exec (frameInstr f) s = .next (nackQueued s)) ∧
    -- (h) an S-frame with a length
    (∀ (len : Byte) (p : List Byte) (crc : Word16), len ≠ 0#8 →
      exec (.frameAck len p crc) s = .next (nackQueued s) ∧
      exec (.frameNack len p crc) s = .next (nackQueued s))

/-- 43_arq_rx.md R154: validation covers the bytes the sender covered and reads the CRC big-endian, and a frame that
SEND built passes it. -/
def Obligations.SentFramesValidate : Prop :=
  (∀ (hdr len : Byte) (p : List Byte) (hi lo : Byte),
    parseFrame (hdr :: len :: (p ++ [hi, lo])) = .ok ⟨hdr, len, p, hi ++ lo⟩ ∧
    (validate (hdr :: len :: (p ++ [hi, lo])) = .malformed .badCrc →
      crc16X25 (hdr :: len :: p) ≠ hi ++ lo) ∧
    (crc16X25 (hdr :: len :: p) ≠ hi ++ lo →
      ∃ cause, validate (hdr :: len :: (p ++ [hi, lo])) = .malformed cause)) ∧
  ∀ p : List Byte, p.length ≤ 255 → validate (iFrame p) = .i p.length

/-- 43_arq_rx.md R155: a received frame is classified in the same way whatever the sender's state: what it queues and
what it returns do not depend on it. -/
def Obligations.ValidationIgnoresTheSender : Prop :=
  ∀ (f : Frame) (s : State) (x : TxState) (len : BitVec 8) (cursor : BitVec 9) (deadline : Instant) (e : Encoder)
    (m : Memory),
    ∃ t t', exec (frameInstr f) s = .next t ∧
      exec (frameInstr f) { s with
        txState := x, txLen := len, txCursor := cursor, txRetryDeadline := deadline, enc := e, txBuffer := m } =
        .next t' ∧
      t'.sqValid = t.sqValid ∧ t'.sqKind = t.sqKind ∧ t'.result = t.result ∧ t'.curOp = t.curOp ∧
      t'.rxBuffer = t.rxBuffer ∧ t'.decCode = t.decCode ∧ t'.decCnt = t.decCnt ∧ t'.rxCursor = t.rxCursor ∧
      t'.rxOverflow = t.rxOverflow

/-- 43_arq_rx.md R158: a POLL_RX micro-step writes the S-frame queue in only two ways, ACK with a payload returned, or
NACK with the sender unchanged; a valid ACK or NACK queues nothing. -/
def Obligations.ReceivePathQueuesOnlyAnswers : Prop :=
  (∀ s t : State, s.curOp = .pollRx → step s = .next t →
    (t.sqValid = s.sqValid ∧ t.sqKind = s.sqKind) ∨
    (t.sqValid = true ∧ t.sqKind = .ack ∧ t.curOp = .none ∧ ∃ p, t.result = some (.okMessage (some p))) ∨
    (t.sqValid = true ∧ t.sqKind = .nack ∧ t.curOp = .pollRx ∧ t.result = s.result ∧ t.txState = s.txState)) ∧
  (∀ s t : State, 4 ≤ s.M →
    (exec (.frameAck 0x00#8 [] 0x3CF7#16) s = .next t ∨ exec (.frameNack 0x00#8 [] 0x252F#16) s = .next t) →
    t.sqValid = s.sqValid ∧ t.sqKind = s.sqKind)

/-! ### Exchanges -/

/-- 43_arq_rx.md R150, R156, 40_cobs.md R98: a POLL_RX in progress at a frame's start that reads the wire frame of a payload
returns that payload and queues ACK, and changes nothing else but `rx_buffer`. -/
def Obligations.WireFrameIsDelivered : Prop :=
  ∀ (p : List Byte) (s : State) (rest : List RxResponse), p.length ≤ 255 → p.length + 4 ≤ s.M →
    s.txState ≠ .waitingRetry → s.curOp = .pollRx → decoderAtStart s →
    s.rxScript = (wireFrame (iFrame p)).map .ready ++ rest →
    ∃ m : Memory, run (wireFrame (iFrame p)).length s = .next { s with
      rxBuffer := m, sqValid := true, sqKind := .ack, curOp := .none,
      result := some (.okMessage (some p)), rxScript := rest }

/-- 95_test_vectors.md V-SRC-L3, for every payload both buffers admit: sender `a` and receiver `b`, over a lossless
transport. SEND and POLL_TX of `a` put the wire frame on the wire; POLL_RX of `b` returns the payload; POLL_TX of `b`
puts an ACK on the wire; POLL_RX of `a` makes `a` idle again. -/
def Obligations.LosslessExchangeCompletes : Prop :=
  ∀ (p : List Byte) (a b : State) (nowA nowB : Instant), Inv a → Inv b →
    a.curOp = .none → a.txState = .idle → a.sIdx = 0#3 → a.sqValid = false → decoderAtStart a → 4 ≤ a.M →
    b.curOp = .none → b.txState = .idle → b.sIdx = 0#3 → b.sqValid = false → decoderAtStart b →
    p.length ≤ min 255 (a.N - 4) → p.length + 4 ≤ b.M →
    ∃ a1 a2 a3 b1 b2,
      run 1 { a with requests := [⟨0x01#8, [.bytes p]⟩] } = .next a1 ∧ a1.result = some .ok ∧
      run (wireFrame (iFrame p)).length
        { a1 with
          requests := [⟨0x02#8, [.nat nowA]⟩],
          txScript := List.replicate (wireFrame (iFrame p)).length .ready } = .next a2 ∧
      a2.txWire = a.txWire ++ wireFrame (iFrame p) ∧ a2.result = some .ok ∧ a2.txState = .awaitingAck ∧
      run (wireFrame (iFrame p)).length
        { b with requests := [⟨0x03#8, []⟩], rxScript := (wireFrame (iFrame p)).map .ready } = .next b1 ∧
      b1.result = some (.okMessage (some p)) ∧
      run 7 { b1 with requests := [⟨0x02#8, [.nat nowB]⟩], txScript := List.replicate 6 .ready } = .next b2 ∧
      b2.txWire = b.txWire ++ sBytes .ack ∧ b2.result = some .ok ∧
      run 7 { a2 with
        requests := [⟨0x03#8, []⟩], rxScript := (sBytes .ack).map .ready ++ [.wouldBlock] } = .next a3 ∧
      a3.result = some (.okMessage none) ∧ a3.txState = .idle ∧ a3.txLen = 0#8

/-! ### The whole machine -/

/-- When step runs what: the host's next request, the byte POLL_RX reads, the next micro-step of POLL_TX, and nothing
when the block is idle (44_host_ops.md R170, 00_scope.md R14, 60_exceptions.md R209). That a step is a micro-step, and
where requests come from, is the model's choice (log entries 1, 12 and 15). -/
def Obligations.StepRunsTheDecodedInstruction : Prop :=
  ∀ s : State, s.txState ≠ .waitingRetry →
    (∀ c rest i, s.curOp = .none → s.requests = c :: rest → decodeCommand c = .ok i →
      step s = exec i { s with requests := rest }) ∧
    (∀ c rest e, s.curOp = .none → s.requests = c :: rest → decodeCommand c = .error e →
      step s = .refused (.undecodable e)) ∧
    (s.curOp = .none → s.requests = [] → step s = .next s) ∧
    (∀ b rest, s.curOp = .pollRx → s.rxScript = .ready b :: rest →
      step s = exec (decodeWire (wirePos s.decCode s.decCnt) b) { s with rxScript := rest }) ∧
    (∀ now, s.curOp = .pollTx now → s.result = none →
      step s = exec (.pollTx now) { s with curOp := .none }) ∧
    (s.curOp = .pollRx → s.result = none → step s = exec .pollRx { s with curOp := .none })

/-- `withFetchWord` places a word of the opcode table where step decodes and runs it (log entries 11 and 15). -/
def Obligations.FetchWordIsRun : Prop :=
  ∀ (s : State) (nbits w : Nat) (i : Instr), s.txState ≠ .waitingRetry → decodeTableWord nbits w = some i →
    step (s.withFetchWord nbits w) = exec i { s with curOp := .none }

/-- 60_exceptions.md R205, 20_memory.md R51: a step makes at most one transport call; only POLL_TX writes and only
POLL_RX reads. -/
def Obligations.OnlyPollsTouchTheTransport : Prop :=
  ∀ s t : State, step s = .next t →
    (t.txWire = s.txWire ∨ ∃ b, t.txWire = s.txWire ++ [b]) ∧
    (t.txScript = s.txScript ∨ ∃ r, s.txScript = r :: t.txScript) ∧
    (t.rxScript = s.rxScript ∨ ∃ r, s.rxScript = r :: t.rxScript) ∧
    ((∀ now, stepOp s ≠ some (.pollTx now)) → t.txWire = s.txWire ∧ t.txScript = s.txScript) ∧
    (stepOp s ≠ some .pollRx → t.rxScript = s.rxScript)

/-- 10_state.md R22, R23, R32, 20_memory.md R52: only CONSTRUCT writes the configuration, only SEND (and CONSTRUCT)
`tx_buffer`, only POLL_RX (and CONSTRUCT) `rx_buffer`. -/
def Obligations.BuffersAndConfigurationHaveOneWriter : Prop :=
  ∀ s t : State, step s = .next t → (∀ n m interval, stepOp s ≠ some (.construct n m interval)) →
    t.N = s.N ∧ t.M = s.M ∧ t.retryInterval = s.retryInterval ∧
    ((∀ p, stepOp s ≠ some (.send p)) → t.txBuffer = s.txBuffer) ∧
    (stepOp s ≠ some .pollRx → t.rxBuffer = s.rxBuffer)

/-- 10_state.md R25: every change of `tx_state`, with the operation that makes it. -/
def Obligations.SenderStateChangesAsListed : Prop :=
  ∀ s t : State, step s = .next t → t.txState ≠ s.txState →
    (s.txState = .idle ∧ t.txState = .sending ∧ ∃ p, stepOp s = some (.send p)) ∨
    (s.txState = .sending ∧ t.txState = .awaitingAck ∧ ∃ now, stepOp s = some (.pollTx now) ∧
      t.txRetryDeadline = now + s.retryInterval) ∨
    (s.txState = .awaitingAck ∧ t.txState = .sending ∧ ∃ now, stepOp s = some (.pollTx now) ∧
      s.txRetryDeadline ≤ now) ∨
    (s.txState = .awaitingAck ∧ t.txState = .idle ∧ stepOp s = some .pollRx) ∨
    (s.txState = .awaitingAck ∧ t.txState = .sending ∧ stepOp s = some .pollRx) ∨
    (t.txState = .idle ∧ ∃ n m interval, stepOp s = some (.construct n m interval))

/-- The invariant holds at `State.reset`, whose `N` and `M` are the model's choice (log entry 3). -/
def Obligations.InvHoldsAtReset : Prop := Inv State.reset

/-- 10_state.md R37: every step keeps the invariant, whose fields are R37 (a), (b), (c), (e), (f), (g), (h) and what
they rest on; and (d): while `rx_overflow` is set, `rx_cursor` does not change. -/
def Obligations.StepKeepsTheInvariant : Prop :=
  ∀ s t : State, Inv s → step s = .next t →
    Inv t ∧ (s.rxOverflow = true → t.rxOverflow = true → t.rxCursor = s.rxCursor)

/-- 20_memory.md R46: where the invariant holds no step and no instruction faults, so no index is out
of range. Which stops are faults is the model's choice (log entries 6 to 8). -/
def Obligations.NothingFaultsWhereTheInvariantHolds : Prop :=
  ∀ (s : State) (f : Fault), Inv s → step s ≠ .fault f ∧ ∀ i, exec i s ≠ .fault f

/-- Every instruction that the spec gives a meaning completes, with the invariant kept: host operations where no
operation is in progress (44_host_ops.md R170) and `N >= 4`, received frames and bytes everywhere (40_cobs.md R91). -/
def Obligations.EveryInstructionCompletes : Prop :=
  ∀ s : State, Inv s →
    (∀ n m interval, s.curOp = .none → 4 ≤ n → ∃ t, exec (.construct n m interval) s = .next t ∧ Inv t) ∧
    (∀ p, s.curOp = .none → ∃ t, exec (.send p) s = .next t ∧ Inv t) ∧
    (∀ now, s.curOp = .none → ∃ t, exec (.pollTx now) s = .next t ∧ Inv t) ∧
    (s.curOp = .none → ∃ t, exec .pollRx s = .next t ∧ Inv t) ∧
    (s.curOp = .none → ∃ t, exec .isIdle s = .next t ∧ Inv t) ∧
    (∀ f : Frame, ∃ t, exec (frameInstr f) s = .next t ∧ Inv t) ∧
    (∃ t, exec .wireDelim s = .next t ∧ Inv t) ∧
    (∀ b, ∃ t, exec (.wireCode b) s = .next t ∧ Inv t) ∧
    (∃ t, exec .wireCodeChain s = .next t ∧ Inv t) ∧
    (∀ b, ∃ t, exec (.wireData b) s = .next t ∧ Inv t)

/-! ### Encodings -/

/-- Decoding the encoding of a well-formed instruction gives it back, every operand at every value. -/
def Obligations.DecodeOfEncode : Prop :=
  ∀ i : Instr, i.wellFormed = true → decode (encode i) = .ok i

/-- What decodes is encoded again as it was, but for the operands of a reserved command, which name nothing
(30_encoding.md R74), and the position of a delimiter, which is one everywhere (R68). -/
def Obligations.EncodeOfDecode : Prop :=
  ∀ (e : Encoding) (i : Instr), decode e = .ok i →
    encode i = e ∨ (∃ c : Command, e = .command c ∧ i = .reservedCmd c.cmd ∧ 5 ≤ c.cmd.toNat) ∨
    (e = .wire .dataDue 0x00#8 ∧ i = .wireDelim)

/-- A few encodings written out (30_encoding.md R70, R73; 95_test_vectors.md V-FRM-3, V-VAL-2). -/
def Obligations.EncodingsWrittenOut : Prop :=
  decode (.command ⟨0x00#8, [.nat 16, .nat 16, .nat 100]⟩) = .ok (.construct 16 16 100) ∧
  decode (.command ⟨0x01#8, [.bytes [0x31#8, 0x32#8, 0x33#8]]⟩) = .ok (.send [0x31#8, 0x32#8, 0x33#8]) ∧
  decode (.command ⟨0x02#8, [.nat 99]⟩) = .ok (.pollTx 99) ∧
  decode (.command ⟨0x03#8, []⟩) = .ok .pollRx ∧
  decode (.command ⟨0x04#8, []⟩) = .ok .isIdle ∧
  decode (.command ⟨0x05#8, []⟩) = .ok (.reservedCmd 0x05#8) ∧
  decode (.frame [0x01#8, 0x01#8, 0x41#8, 0xD6#8, 0x45#8]) = .ok (.frameI 0x01#8 [0x41#8] 0xD645#16) ∧
  decode (.frame [0x02#8, 0x00#8, 0x3C#8, 0xF7#8]) = .ok (.frameAck 0x00#8 [] 0x3CF7#16) ∧
  decode (.frame [0x03#8, 0x00#8, 0x25#8, 0x2F#8]) = .ok (.frameNack 0x00#8 [] 0x252F#16) ∧
  decode (.frame [0x04#8, 0x00#8, 0x68#8, 0x27#8]) = .ok (.frameBadHeader 0x04#8 0x00#8 [] 0x6827#16) ∧
  decode (.wire .codeDue 0x00#8) = .ok .wireDelim ∧ decode (.wire .dataDue 0x00#8) = .ok .wireDelim ∧
  decode (.wire .codeDue 0x08#8) = .ok (.wireCode 0x08#8) ∧
  decode (.wire .codeDue 0xFF#8) = .ok .wireCodeChain ∧
  decode (.wire .dataDue 0xFF#8) = .ok (.wireData 0xFF#8)

/-! ### The buffers -/

/-- 20_memory.md R46, R53: `MemRead` answers the byte at every index of a buffer, and `MemWrite` sets it and leaves every
other byte; a byte that nothing has written reads as its unspecified reset value, which is the model's free value (log
entry 5). An index out of range is a fault of the model (log entry 6). -/
def Obligations.BufferAccess : Prop :=
  ∀ (len : Nat) (m : Memory) (i : Nat) (v : Byte),
    (i < len → readByte len m i = .ok (m.get i)) ∧
    (m.written i = false → m.get i = Config.freeByte m.contents i) ∧
    (i < len → ∃ m', writeByte len m i v = .ok m' ∧ m'.get i = v ∧ m'.written i = true ∧
      m'.contents = m.contents ∧ ∀ a, a ≠ i → m'.get a = m.get a ∧ m'.written a = m.written a) ∧
    (len ≤ i → readByte len m i = .error .indexOutOfRange ∧ writeByte len m i v = .error .indexOutOfRange)

/-- 10_state.md R41, 93_implementation_defined.md U1 and U2: no rule reads an unspecified byte of a buffer. Where the
invariant holds, a state with other unspecified contents has the same answer to every instruction and every step, but
for the unspecified contents themselves. That the unspecified bytes are the unwritten ones is the model's choice (log
entry 5). -/
def Obligations.UnspecifiedBytesAreNeverRead : Prop :=
  ∀ (u v : Nat) (s : State), Inv s →
    (∀ t, step s = .next t → ∃ u' v', step (s.withContents u v) = .next (t.withContents u' v')) ∧
    (∀ r, step s = .refused r → step (s.withContents u v) = .refused r) ∧
    (∀ i t, exec i s = .next t → ∃ u' v', exec i (s.withContents u v) = .next (t.withContents u' v')) ∧
    (∀ i r, exec i s = .refused r → exec i (s.withContents u v) = .refused r)
end

