-- ==== Sys2Proof/Laws/Memory.lean ====
section
/-!
SUPPORT. Laws/Memory.lean: the laws of the buffers (20_memory.md R46, R53): reading after writing, that every memory
operation keeps the canonical form, the buffer's range and what is written, and that a written byte reads the same
whatever the unspecified contents are.
-/

namespace Sys2Proof.Machine

/-! ### Cells -/

theorem cellAt_setCell_same (m : List Host.Cell) (a : Nat) (v : Byte) : cellAt (setCell m a v) a = some v := by
  induction m with
  | nil => simp [setCell, cellAt]
  | cons c m ih =>
    obtain ⟨b, w⟩ := c
    simp only [setCell]
    split
    · simp [cellAt]
    · split
      · simp [cellAt]
      · simp [cellAt, *]

theorem cellAt_setCell_other (m : List Host.Cell) (a c : Nat) (v : Byte) (h : c ≠ a) :
    cellAt (setCell m a v) c = cellAt m c := by
  induction m with
  | nil => simp [setCell, cellAt, h]
  | cons x m ih =>
    obtain ⟨b, w⟩ := x
    simp only [setCell]
    split
    · simp [cellAt, h]
    · split
      · subst a; simp [cellAt, h]
      · simp [cellAt, ih]

/-- The head of a cell list after a write is the written cell or the old head. -/
theorem setCell_head (m : List Host.Cell) (a : Nat) (v : Byte) :
    ∃ c rest, setCell m a v = c :: rest ∧ (c.1 = a ∨ ∃ old, m.head? = some old ∧ c.1 = old.1 ∧ old.1 < a) := by
  cases m with
  | nil => exact ⟨(a, v), [], rfl, .inl rfl⟩
  | cons x m =>
    obtain ⟨b, w⟩ := x
    simp only [setCell]
    split
    · exact ⟨_, _, rfl, .inl rfl⟩
    · split
      · exact ⟨_, _, rfl, .inl rfl⟩
      · exact ⟨_, _, rfl, .inr ⟨(b, w), rfl, rfl, by omega⟩⟩

/-- A cell may stand in front of rising cells when its index is below the first one. -/
theorem rising_cons (a : Nat) (v : Byte) (m : List Host.Cell) (h : rising m = true)
    (hlt : ∀ c, m.head? = some c → a < c.1) : rising ((a, v) :: m) = true := by
  cases m with
  | nil => rfl
  | cons c m => obtain ⟨b, w⟩ := c; simp [rising, h, hlt (b, w) rfl]

theorem rising_tail (c : Host.Cell) (m : List Host.Cell) (h : rising (c :: m) = true) : rising m = true := by
  cases m with
  | nil => rfl
  | cons d m => simp only [rising, Bool.and_eq_true] at h; exact h.2

theorem rising_head (c : Host.Cell) (m : List Host.Cell) (h : rising (c :: m) = true) :
    ∀ d, m.head? = some d → c.1 < d.1 := by
  cases m with
  | nil => simp
  | cons d m =>
    simp only [rising, Bool.and_eq_true, decide_eq_true_eq] at h
    rintro e he
    obtain rfl : d = e := by simpa using he
    exact h.1

theorem setCell_rising (m : List Host.Cell) (a : Nat) (v : Byte) (h : rising m = true) :
    rising (setCell m a v) = true := by
  induction m with
  | nil => rfl
  | cons x m ih =>
    obtain ⟨b, w⟩ := x
    simp only [setCell]
    split
    · exact rising_cons _ _ _ h (by simp; omega)
    · split
      · subst a
        exact rising_cons _ _ _ (rising_tail _ _ h) (fun d hd => rising_head _ _ h d hd)
      · refine rising_cons _ _ _ (ih (rising_tail _ _ h)) fun c hc => ?_
        obtain ⟨d, rest, hset, hd⟩ := setCell_head m a v
        obtain rfl : d = c := by rw [hset] at hc; simpa using hc
        rcases hd with hd | ⟨old, hold, hd, -⟩
        · omega
        · rw [hd]; exact rising_head _ _ h old hold

theorem setCell_all (P : Host.Cell → Bool) (m : List Host.Cell) (a : Nat) (v : Byte) (ha : P (a, v) = true)
    (h : m.all P = true) : (setCell m a v).all P = true := by
  induction m with
  | nil => simp [setCell, ha]
  | cons x m ih =>
    obtain ⟨b, w⟩ := x
    have hb : P (b, w) = true ∧ m.all P = true := by simpa using h
    simp only [setCell]
    split
    · simpa [ha] using h
    · split
      · simpa [ha] using hb.2
      · simpa [hb.1] using ih hb.2

/-! ### Buffers -/

/-- A byte reads as it was last written. -/
@[simp] theorem Memory.get_set_same (m : Memory) (a : Nat) (v : Byte) : (m.set a v).get a = v := by
  simp [Memory.get, Memory.set, cellAt_setCell_same]

/-- A write leaves every other byte alone. -/
theorem Memory.get_set_other (m : Memory) (a c : Nat) (v : Byte) (h : c ≠ a) : (m.set a v).get c = m.get c := by
  simp [Memory.get, Memory.set, cellAt_setCell_other _ _ _ _ h]

@[simp] theorem Memory.set_contents (m : Memory) (a : Nat) (v : Byte) : (m.set a v).contents = m.contents := rfl

/-- What is written after a write: the byte written to, and what was written before. -/
@[simp] theorem Memory.written_set (m : Memory) (a c : Nat) (v : Byte) :
    (m.set a v).written c = (decide (c = a) || m.written c) := by
  by_cases h : c = a
  · subst h; simp [Memory.written, Memory.set, cellAt_setCell_same]
  · simp [Memory.written, Memory.set, cellAt_setCell_other _ _ _ _ h, h]

@[simp] theorem Memory.written_fresh (u a : Nat) : (Memory.fresh u).written a = false := rfl

@[simp] theorem Memory.wf_fresh (u : Nat) : (Memory.fresh u).wf = true := rfl

@[simp] theorem Memory.inRange_fresh (u len : Nat) : (Memory.fresh u).inRange len = true := rfl

/-- A write keeps the canonical form. -/
theorem Memory.set_wf (m : Memory) (a : Nat) (v : Byte) (h : m.wf = true) : (m.set a v).wf = true :=
  setCell_rising _ _ _ h

/-- A write within a buffer keeps its range. -/
theorem Memory.set_inRange (len : Nat) (m : Memory) (a : Nat) (v : Byte) (ha : a < len)
    (h : Memory.inRange len m = true) : Memory.inRange len (m.set a v) = true :=
  setCell_all _ _ _ _ (by simpa using ha) h

theorem Memory.writtenBelow_iff (m : Memory) (n : Nat) :
    m.writtenBelow n = true ↔ ∀ a, a < n → m.written a = true := by
  simp [Memory.writtenBelow]

/-- A written byte reads the same whatever the unspecified contents are. -/
theorem Memory.get_withContents (m : Memory) (u a : Nat) (h : m.written a = true) :
    Memory.get { m with contents := u } a = m.get a := by
  obtain ⟨b, hb⟩ := Option.isSome_iff_exists.1 h
  simp [Memory.get, hb]

/-! ### The two primitives -/

/-- All that `MemRead` can answer. -/
theorem readByte_eq_ok (len : Nat) (m : Memory) (i : Nat) (b : Byte) :
    readByte len m i = .ok b ↔ i < len ∧ m.get i = b := by
  unfold readByte
  by_cases h : i < len <;> simp [h]

/-- All that `MemWrite` can answer. -/
theorem writeByte_eq_ok (len : Nat) (m m' : Memory) (i : Nat) (v : Byte) :
    writeByte len m i v = .ok m' ↔ i < len ∧ m' = m.set i v := by
  unfold writeByte
  by_cases h : i < len <;> simp [h, eq_comm]

/-- Bytes within a buffer can all be read. -/
theorem readBytes_in (len : Nat) (m : Memory) (n : Nat) : ∀ i, i + n ≤ len →
    readBytes len m i n = .ok ((List.range' i n).map m.get) := by
  induction n with
  | zero => intro i _; rfl
  | succ n ih => intro i h; simp [readBytes, readByte, show i < len by omega, ih (i + 1) (by omega), List.range'_succ]

/-- Bytes past the end of a buffer cannot all be read. -/
theorem readBytes_out (len : Nat) (m : Memory) (n : Nat) : ∀ i, i + n > len → 0 < n →
    readBytes len m i n = .error .indexOutOfRange := by
  induction n with
  | zero => intros; omega
  | succ n ih =>
    intro i h _
    by_cases hi : i < len
    · simp [readBytes, readByte, hi, ih (i + 1) (by omega) (by omega)]
    · simp [readBytes, readByte, hi]

/-- A run of bytes is readable when it is in range, and is those bytes. -/
theorem readBytes_eq_ok (len : Nat) (m : Memory) (n i : Nat) (bs : List Byte) :
    readBytes len m i n = .ok bs ↔ (n = 0 ∨ i + n ≤ len) ∧ bs = (List.range' i n).map m.get := by
  by_cases h : i + n ≤ len
  · simp [readBytes_in _ _ _ _ h, h, eq_comm]
  · by_cases hn : n = 0
    · subst hn; simp [readBytes, eq_comm]
    · simp [readBytes_out _ _ _ _ (show i + n > len by omega) (by omega), h, hn]

/-- Bytes written in a row within a buffer: all that `writeBytes` does. -/
theorem writeBytes_spec (len : Nat) (vs : List Byte) : ∀ (m : Memory) (i : Nat), i + vs.length ≤ len →
    ∃ m', writeBytes len m i vs = .ok m' ∧
      (∀ a, m'.get a = if h : i ≤ a ∧ a < i + vs.length then vs[a - i]'(by omega) else m.get a) ∧
      (∀ a, m'.written a = (decide (i ≤ a ∧ a < i + vs.length) || m.written a)) ∧
      (m.wf = true → m'.wf = true) ∧ (Memory.inRange len m = true → Memory.inRange len m' = true) ∧
      ∀ u, writeBytes len { m with contents := u } i vs = .ok { m' with contents := u } := by
  induction vs with
  | nil => intro m i _; exact ⟨m, rfl, fun a => by simp, fun a => by simp, id, id, fun _ => rfl⟩
  | cons v vs ih =>
    intro m i hi
    simp only [List.length_cons] at hi
    obtain ⟨m', h1, h2, h2', h3, h4, h5⟩ := ih (m.set i v) (i + 1) (by omega)
    refine ⟨m', by simpa [writeBytes, writeByte, show i < len by omega] using h1, fun a => ?_, fun a => ?_,
      fun h => h3 (Memory.set_wf _ _ _ h), fun h => h4 (Memory.set_inRange _ _ _ _ (by omega) h), fun u => ?_⟩
    · rw [h2 a]
      by_cases ha : a = i
      · subst ha; simp
      · by_cases hin : i ≤ a ∧ a < i + (vs.length + 1)
        · have h5 : i + 1 ≤ a ∧ a < i + 1 + vs.length := by omega
          have h6 : a - i = a - (i + 1) + 1 := by omega
          simp [h5, hin, h6]
        · have h5 : ¬(i + 1 ≤ a ∧ a < i + 1 + vs.length) := by omega
          rw [dif_neg h5, dif_neg (by simpa using hin), Memory.get_set_other _ _ _ _ ha]
    · rw [h2' a, Memory.written_set, ← Bool.or_assoc]
      congr 1
      simp only [List.length_cons, ← Bool.decide_or]
      exact decide_eq_decide.2 (by omega)
    · simp only [writeBytes, writeByte, show i < len by omega, if_true]; exact h5 u

end Sys2Proof.Machine
end

