-- ==== Sys2Proof/Laws/State.lean ====
section
/-!
SUPPORT. Laws/State.lean: for each named update of State and each field, what the field is after the update.
-/

namespace Sys2Proof.Machine

/-! ### begin -/

@[simp] theorem begin_N (op : CurOp) (s : State) : (begin op s).N = s.N := rfl
@[simp] theorem begin_M (op : CurOp) (s : State) : (begin op s).M = s.M := rfl
@[simp] theorem begin_retryInterval (op : CurOp) (s : State) : (begin op s).retryInterval = s.retryInterval := rfl
@[simp] theorem begin_txBuffer (op : CurOp) (s : State) : (begin op s).txBuffer = s.txBuffer := rfl
@[simp] theorem begin_txLen (op : CurOp) (s : State) : (begin op s).txLen = s.txLen := rfl
@[simp] theorem begin_txState (op : CurOp) (s : State) : (begin op s).txState = s.txState := rfl
@[simp] theorem begin_txCursor (op : CurOp) (s : State) : (begin op s).txCursor = s.txCursor := rfl
@[simp] theorem begin_txRetryDeadline (op : CurOp) (s : State) : (begin op s).txRetryDeadline = s.txRetryDeadline := rfl
@[simp] theorem begin_enc (op : CurOp) (s : State) : (begin op s).enc = s.enc := rfl
@[simp] theorem begin_sqValid (op : CurOp) (s : State) : (begin op s).sqValid = s.sqValid := rfl
@[simp] theorem begin_sqKind (op : CurOp) (s : State) : (begin op s).sqKind = s.sqKind := rfl
@[simp] theorem begin_sKind (op : CurOp) (s : State) : (begin op s).sKind = s.sKind := rfl
@[simp] theorem begin_sIdx (op : CurOp) (s : State) : (begin op s).sIdx = s.sIdx := rfl
@[simp] theorem begin_rxBuffer (op : CurOp) (s : State) : (begin op s).rxBuffer = s.rxBuffer := rfl
@[simp] theorem begin_rxCursor (op : CurOp) (s : State) : (begin op s).rxCursor = s.rxCursor := rfl
@[simp] theorem begin_decCode (op : CurOp) (s : State) : (begin op s).decCode = s.decCode := rfl
@[simp] theorem begin_decCnt (op : CurOp) (s : State) : (begin op s).decCnt = s.decCnt := rfl
@[simp] theorem begin_rxOverflow (op : CurOp) (s : State) : (begin op s).rxOverflow = s.rxOverflow := rfl
@[simp] theorem begin_curOp (op : CurOp) (s : State) : (begin op s).curOp = op := rfl
@[simp] theorem begin_requests (op : CurOp) (s : State) : (begin op s).requests = s.requests := rfl
@[simp] theorem begin_result (op : CurOp) (s : State) : (begin op s).result = none := rfl
@[simp] theorem begin_txWire (op : CurOp) (s : State) : (begin op s).txWire = s.txWire := rfl
@[simp] theorem begin_txScript (op : CurOp) (s : State) : (begin op s).txScript = s.txScript := rfl
@[simp] theorem begin_rxScript (op : CurOp) (s : State) : (begin op s).rxScript = s.rxScript := rfl
@[simp] theorem begin_freeCount (op : CurOp) (s : State) : (begin op s).freeCount = s.freeCount := rfl

/-! ### finish -/

@[simp] theorem finish_N (r : Result) (s : State) : (finish r s).N = s.N := rfl
@[simp] theorem finish_M (r : Result) (s : State) : (finish r s).M = s.M := rfl
@[simp] theorem finish_retryInterval (r : Result) (s : State) : (finish r s).retryInterval = s.retryInterval := rfl
@[simp] theorem finish_txBuffer (r : Result) (s : State) : (finish r s).txBuffer = s.txBuffer := rfl
@[simp] theorem finish_txLen (r : Result) (s : State) : (finish r s).txLen = s.txLen := rfl
@[simp] theorem finish_txState (r : Result) (s : State) : (finish r s).txState = s.txState := rfl
@[simp] theorem finish_txCursor (r : Result) (s : State) : (finish r s).txCursor = s.txCursor := rfl
@[simp] theorem finish_txRetryDeadline (r : Result) (s : State) : (finish r s).txRetryDeadline = s.txRetryDeadline := rfl
@[simp] theorem finish_enc (r : Result) (s : State) : (finish r s).enc = s.enc := rfl
@[simp] theorem finish_sqValid (r : Result) (s : State) : (finish r s).sqValid = s.sqValid := rfl
@[simp] theorem finish_sqKind (r : Result) (s : State) : (finish r s).sqKind = s.sqKind := rfl
@[simp] theorem finish_sKind (r : Result) (s : State) : (finish r s).sKind = s.sKind := rfl
@[simp] theorem finish_sIdx (r : Result) (s : State) : (finish r s).sIdx = s.sIdx := rfl
@[simp] theorem finish_rxBuffer (r : Result) (s : State) : (finish r s).rxBuffer = s.rxBuffer := rfl
@[simp] theorem finish_rxCursor (r : Result) (s : State) : (finish r s).rxCursor = s.rxCursor := rfl
@[simp] theorem finish_decCode (r : Result) (s : State) : (finish r s).decCode = s.decCode := rfl
@[simp] theorem finish_decCnt (r : Result) (s : State) : (finish r s).decCnt = s.decCnt := rfl
@[simp] theorem finish_rxOverflow (r : Result) (s : State) : (finish r s).rxOverflow = s.rxOverflow := rfl
@[simp] theorem finish_curOp (r : Result) (s : State) : (finish r s).curOp = CurOp.none := rfl
@[simp] theorem finish_requests (r : Result) (s : State) : (finish r s).requests = s.requests := rfl
@[simp] theorem finish_result (r : Result) (s : State) : (finish r s).result = some r := rfl
@[simp] theorem finish_txWire (r : Result) (s : State) : (finish r s).txWire = s.txWire := rfl
@[simp] theorem finish_txScript (r : Result) (s : State) : (finish r s).txScript = s.txScript := rfl
@[simp] theorem finish_rxScript (r : Result) (s : State) : (finish r s).rxScript = s.rxScript := rfl
@[simp] theorem finish_freeCount (r : Result) (s : State) : (finish r s).freeCount = s.freeCount := rfl

/-! ### putOnWire -/

@[simp] theorem putOnWire_N (b : Byte) (s : State) : (putOnWire b s).N = s.N := rfl
@[simp] theorem putOnWire_M (b : Byte) (s : State) : (putOnWire b s).M = s.M := rfl
@[simp] theorem putOnWire_retryInterval (b : Byte) (s : State) : (putOnWire b s).retryInterval = s.retryInterval := rfl
@[simp] theorem putOnWire_txBuffer (b : Byte) (s : State) : (putOnWire b s).txBuffer = s.txBuffer := rfl
@[simp] theorem putOnWire_txLen (b : Byte) (s : State) : (putOnWire b s).txLen = s.txLen := rfl
@[simp] theorem putOnWire_txState (b : Byte) (s : State) : (putOnWire b s).txState = s.txState := rfl
@[simp] theorem putOnWire_txCursor (b : Byte) (s : State) : (putOnWire b s).txCursor = s.txCursor := rfl
@[simp] theorem putOnWire_txRetryDeadline (b : Byte) (s : State) : (putOnWire b s).txRetryDeadline = s.txRetryDeadline := rfl
@[simp] theorem putOnWire_enc (b : Byte) (s : State) : (putOnWire b s).enc = s.enc := rfl
@[simp] theorem putOnWire_sqValid (b : Byte) (s : State) : (putOnWire b s).sqValid = s.sqValid := rfl
@[simp] theorem putOnWire_sqKind (b : Byte) (s : State) : (putOnWire b s).sqKind = s.sqKind := rfl
@[simp] theorem putOnWire_sKind (b : Byte) (s : State) : (putOnWire b s).sKind = s.sKind := rfl
@[simp] theorem putOnWire_sIdx (b : Byte) (s : State) : (putOnWire b s).sIdx = s.sIdx := rfl
@[simp] theorem putOnWire_rxBuffer (b : Byte) (s : State) : (putOnWire b s).rxBuffer = s.rxBuffer := rfl
@[simp] theorem putOnWire_rxCursor (b : Byte) (s : State) : (putOnWire b s).rxCursor = s.rxCursor := rfl
@[simp] theorem putOnWire_decCode (b : Byte) (s : State) : (putOnWire b s).decCode = s.decCode := rfl
@[simp] theorem putOnWire_decCnt (b : Byte) (s : State) : (putOnWire b s).decCnt = s.decCnt := rfl
@[simp] theorem putOnWire_rxOverflow (b : Byte) (s : State) : (putOnWire b s).rxOverflow = s.rxOverflow := rfl
@[simp] theorem putOnWire_curOp (b : Byte) (s : State) : (putOnWire b s).curOp = s.curOp := rfl
@[simp] theorem putOnWire_requests (b : Byte) (s : State) : (putOnWire b s).requests = s.requests := rfl
@[simp] theorem putOnWire_result (b : Byte) (s : State) : (putOnWire b s).result = s.result := rfl
@[simp] theorem putOnWire_txWire (b : Byte) (s : State) : (putOnWire b s).txWire = s.txWire ++ [b] := rfl
@[simp] theorem putOnWire_txScript (b : Byte) (s : State) : (putOnWire b s).txScript = s.txScript := rfl
@[simp] theorem putOnWire_rxScript (b : Byte) (s : State) : (putOnWire b s).rxScript = s.rxScript := rfl
@[simp] theorem putOnWire_freeCount (b : Byte) (s : State) : (putOnWire b s).freeCount = s.freeCount := rfl

/-! ### sqPut -/

@[simp] theorem sqPut_N (k : SKind) (s : State) : (sqPut k s).N = s.N := rfl
@[simp] theorem sqPut_M (k : SKind) (s : State) : (sqPut k s).M = s.M := rfl
@[simp] theorem sqPut_retryInterval (k : SKind) (s : State) : (sqPut k s).retryInterval = s.retryInterval := rfl
@[simp] theorem sqPut_txBuffer (k : SKind) (s : State) : (sqPut k s).txBuffer = s.txBuffer := rfl
@[simp] theorem sqPut_txLen (k : SKind) (s : State) : (sqPut k s).txLen = s.txLen := rfl
@[simp] theorem sqPut_txState (k : SKind) (s : State) : (sqPut k s).txState = s.txState := rfl
@[simp] theorem sqPut_txCursor (k : SKind) (s : State) : (sqPut k s).txCursor = s.txCursor := rfl
@[simp] theorem sqPut_txRetryDeadline (k : SKind) (s : State) : (sqPut k s).txRetryDeadline = s.txRetryDeadline := rfl
@[simp] theorem sqPut_enc (k : SKind) (s : State) : (sqPut k s).enc = s.enc := rfl
@[simp] theorem sqPut_sqValid (k : SKind) (s : State) : (sqPut k s).sqValid = true := rfl
@[simp] theorem sqPut_sqKind (k : SKind) (s : State) : (sqPut k s).sqKind = k := rfl
@[simp] theorem sqPut_sKind (k : SKind) (s : State) : (sqPut k s).sKind = s.sKind := rfl
@[simp] theorem sqPut_sIdx (k : SKind) (s : State) : (sqPut k s).sIdx = s.sIdx := rfl
@[simp] theorem sqPut_rxBuffer (k : SKind) (s : State) : (sqPut k s).rxBuffer = s.rxBuffer := rfl
@[simp] theorem sqPut_rxCursor (k : SKind) (s : State) : (sqPut k s).rxCursor = s.rxCursor := rfl
@[simp] theorem sqPut_decCode (k : SKind) (s : State) : (sqPut k s).decCode = s.decCode := rfl
@[simp] theorem sqPut_decCnt (k : SKind) (s : State) : (sqPut k s).decCnt = s.decCnt := rfl
@[simp] theorem sqPut_rxOverflow (k : SKind) (s : State) : (sqPut k s).rxOverflow = s.rxOverflow := rfl
@[simp] theorem sqPut_curOp (k : SKind) (s : State) : (sqPut k s).curOp = s.curOp := rfl
@[simp] theorem sqPut_requests (k : SKind) (s : State) : (sqPut k s).requests = s.requests := rfl
@[simp] theorem sqPut_result (k : SKind) (s : State) : (sqPut k s).result = s.result := rfl
@[simp] theorem sqPut_txWire (k : SKind) (s : State) : (sqPut k s).txWire = s.txWire := rfl
@[simp] theorem sqPut_txScript (k : SKind) (s : State) : (sqPut k s).txScript = s.txScript := rfl
@[simp] theorem sqPut_rxScript (k : SKind) (s : State) : (sqPut k s).rxScript = s.rxScript := rfl
@[simp] theorem sqPut_freeCount (k : SKind) (s : State) : (sqPut k s).freeCount = s.freeCount := rfl

/-! ### startAttempt -/

@[simp] theorem startAttempt_N (s : State) : (startAttempt s).N = s.N := rfl
@[simp] theorem startAttempt_M (s : State) : (startAttempt s).M = s.M := rfl
@[simp] theorem startAttempt_retryInterval (s : State) : (startAttempt s).retryInterval = s.retryInterval := rfl
@[simp] theorem startAttempt_txBuffer (s : State) : (startAttempt s).txBuffer = s.txBuffer := rfl
@[simp] theorem startAttempt_txLen (s : State) : (startAttempt s).txLen = s.txLen := rfl
@[simp] theorem startAttempt_txState (s : State) : (startAttempt s).txState = s.txState := rfl
@[simp] theorem startAttempt_txCursor (s : State) : (startAttempt s).txCursor = 0#9 := rfl
@[simp] theorem startAttempt_txRetryDeadline (s : State) : (startAttempt s).txRetryDeadline = s.txRetryDeadline := rfl
@[simp] theorem startAttempt_enc (s : State) : (startAttempt s).enc = Encoder.init := rfl
@[simp] theorem startAttempt_sqValid (s : State) : (startAttempt s).sqValid = s.sqValid := rfl
@[simp] theorem startAttempt_sqKind (s : State) : (startAttempt s).sqKind = s.sqKind := rfl
@[simp] theorem startAttempt_sKind (s : State) : (startAttempt s).sKind = s.sKind := rfl
@[simp] theorem startAttempt_sIdx (s : State) : (startAttempt s).sIdx = s.sIdx := rfl
@[simp] theorem startAttempt_rxBuffer (s : State) : (startAttempt s).rxBuffer = s.rxBuffer := rfl
@[simp] theorem startAttempt_rxCursor (s : State) : (startAttempt s).rxCursor = s.rxCursor := rfl
@[simp] theorem startAttempt_decCode (s : State) : (startAttempt s).decCode = s.decCode := rfl
@[simp] theorem startAttempt_decCnt (s : State) : (startAttempt s).decCnt = s.decCnt := rfl
@[simp] theorem startAttempt_rxOverflow (s : State) : (startAttempt s).rxOverflow = s.rxOverflow := rfl
@[simp] theorem startAttempt_curOp (s : State) : (startAttempt s).curOp = s.curOp := rfl
@[simp] theorem startAttempt_requests (s : State) : (startAttempt s).requests = s.requests := rfl
@[simp] theorem startAttempt_result (s : State) : (startAttempt s).result = s.result := rfl
@[simp] theorem startAttempt_txWire (s : State) : (startAttempt s).txWire = s.txWire := rfl
@[simp] theorem startAttempt_txScript (s : State) : (startAttempt s).txScript = s.txScript := rfl
@[simp] theorem startAttempt_rxScript (s : State) : (startAttempt s).rxScript = s.rxScript := rfl
@[simp] theorem startAttempt_freeCount (s : State) : (startAttempt s).freeCount = s.freeCount := rfl

/-! ### timeout -/

@[simp] theorem timeout_N (s : State) : (timeout s).N = s.N := rfl
@[simp] theorem timeout_M (s : State) : (timeout s).M = s.M := rfl
@[simp] theorem timeout_retryInterval (s : State) : (timeout s).retryInterval = s.retryInterval := rfl
@[simp] theorem timeout_txBuffer (s : State) : (timeout s).txBuffer = s.txBuffer := rfl
@[simp] theorem timeout_txLen (s : State) : (timeout s).txLen = s.txLen := rfl
@[simp] theorem timeout_txState (s : State) : (timeout s).txState = TxState.sending := rfl
@[simp] theorem timeout_txCursor (s : State) : (timeout s).txCursor = 0#9 := rfl
@[simp] theorem timeout_txRetryDeadline (s : State) : (timeout s).txRetryDeadline = s.txRetryDeadline := rfl
@[simp] theorem timeout_enc (s : State) : (timeout s).enc = Encoder.init := rfl
@[simp] theorem timeout_sqValid (s : State) : (timeout s).sqValid = s.sqValid := rfl
@[simp] theorem timeout_sqKind (s : State) : (timeout s).sqKind = s.sqKind := rfl
@[simp] theorem timeout_sKind (s : State) : (timeout s).sKind = s.sKind := rfl
@[simp] theorem timeout_sIdx (s : State) : (timeout s).sIdx = s.sIdx := rfl
@[simp] theorem timeout_rxBuffer (s : State) : (timeout s).rxBuffer = s.rxBuffer := rfl
@[simp] theorem timeout_rxCursor (s : State) : (timeout s).rxCursor = s.rxCursor := rfl
@[simp] theorem timeout_decCode (s : State) : (timeout s).decCode = s.decCode := rfl
@[simp] theorem timeout_decCnt (s : State) : (timeout s).decCnt = s.decCnt := rfl
@[simp] theorem timeout_rxOverflow (s : State) : (timeout s).rxOverflow = s.rxOverflow := rfl
@[simp] theorem timeout_curOp (s : State) : (timeout s).curOp = s.curOp := rfl
@[simp] theorem timeout_requests (s : State) : (timeout s).requests = s.requests := rfl
@[simp] theorem timeout_result (s : State) : (timeout s).result = s.result := rfl
@[simp] theorem timeout_txWire (s : State) : (timeout s).txWire = s.txWire := rfl
@[simp] theorem timeout_txScript (s : State) : (timeout s).txScript = s.txScript := rfl
@[simp] theorem timeout_rxScript (s : State) : (timeout s).rxScript = s.rxScript := rfl
@[simp] theorem timeout_freeCount (s : State) : (timeout s).freeCount = s.freeCount := rfl

/-! ### attemptComplete -/

@[simp] theorem attemptComplete_N (now : Instant) (s : State) : (attemptComplete now s).N = s.N := rfl
@[simp] theorem attemptComplete_M (now : Instant) (s : State) : (attemptComplete now s).M = s.M := rfl
@[simp] theorem attemptComplete_retryInterval (now : Instant) (s : State) : (attemptComplete now s).retryInterval = s.retryInterval := rfl
@[simp] theorem attemptComplete_txBuffer (now : Instant) (s : State) : (attemptComplete now s).txBuffer = s.txBuffer := rfl
@[simp] theorem attemptComplete_txLen (now : Instant) (s : State) : (attemptComplete now s).txLen = s.txLen := rfl
@[simp] theorem attemptComplete_txState (now : Instant) (s : State) : (attemptComplete now s).txState = TxState.awaitingAck := rfl
@[simp] theorem attemptComplete_txCursor (now : Instant) (s : State) : (attemptComplete now s).txCursor = 0#9 := rfl
@[simp] theorem attemptComplete_txRetryDeadline (now : Instant) (s : State) : (attemptComplete now s).txRetryDeadline = now + s.retryInterval := rfl
@[simp] theorem attemptComplete_enc (now : Instant) (s : State) : (attemptComplete now s).enc = s.enc := rfl
@[simp] theorem attemptComplete_sqValid (now : Instant) (s : State) : (attemptComplete now s).sqValid = s.sqValid := rfl
@[simp] theorem attemptComplete_sqKind (now : Instant) (s : State) : (attemptComplete now s).sqKind = s.sqKind := rfl
@[simp] theorem attemptComplete_sKind (now : Instant) (s : State) : (attemptComplete now s).sKind = s.sKind := rfl
@[simp] theorem attemptComplete_sIdx (now : Instant) (s : State) : (attemptComplete now s).sIdx = s.sIdx := rfl
@[simp] theorem attemptComplete_rxBuffer (now : Instant) (s : State) : (attemptComplete now s).rxBuffer = s.rxBuffer := rfl
@[simp] theorem attemptComplete_rxCursor (now : Instant) (s : State) : (attemptComplete now s).rxCursor = s.rxCursor := rfl
@[simp] theorem attemptComplete_decCode (now : Instant) (s : State) : (attemptComplete now s).decCode = s.decCode := rfl
@[simp] theorem attemptComplete_decCnt (now : Instant) (s : State) : (attemptComplete now s).decCnt = s.decCnt := rfl
@[simp] theorem attemptComplete_rxOverflow (now : Instant) (s : State) : (attemptComplete now s).rxOverflow = s.rxOverflow := rfl
@[simp] theorem attemptComplete_curOp (now : Instant) (s : State) : (attemptComplete now s).curOp = s.curOp := rfl
@[simp] theorem attemptComplete_requests (now : Instant) (s : State) : (attemptComplete now s).requests = s.requests := rfl
@[simp] theorem attemptComplete_result (now : Instant) (s : State) : (attemptComplete now s).result = s.result := rfl
@[simp] theorem attemptComplete_txWire (now : Instant) (s : State) : (attemptComplete now s).txWire = s.txWire := rfl
@[simp] theorem attemptComplete_txScript (now : Instant) (s : State) : (attemptComplete now s).txScript = s.txScript := rfl
@[simp] theorem attemptComplete_rxScript (now : Instant) (s : State) : (attemptComplete now s).rxScript = s.rxScript := rfl
@[simp] theorem attemptComplete_freeCount (now : Instant) (s : State) : (attemptComplete now s).freeCount = s.freeCount := rfl

/-! ### onMalformed -/

@[simp] theorem onMalformed_N (s : State) : (onMalformed s).N = s.N := rfl
@[simp] theorem onMalformed_M (s : State) : (onMalformed s).M = s.M := rfl
@[simp] theorem onMalformed_retryInterval (s : State) : (onMalformed s).retryInterval = s.retryInterval := rfl
@[simp] theorem onMalformed_txBuffer (s : State) : (onMalformed s).txBuffer = s.txBuffer := rfl
@[simp] theorem onMalformed_txLen (s : State) : (onMalformed s).txLen = s.txLen := rfl
@[simp] theorem onMalformed_txState (s : State) : (onMalformed s).txState = s.txState := rfl
@[simp] theorem onMalformed_txCursor (s : State) : (onMalformed s).txCursor = s.txCursor := rfl
@[simp] theorem onMalformed_txRetryDeadline (s : State) : (onMalformed s).txRetryDeadline = s.txRetryDeadline := rfl
@[simp] theorem onMalformed_enc (s : State) : (onMalformed s).enc = s.enc := rfl
@[simp] theorem onMalformed_sqValid (s : State) : (onMalformed s).sqValid = true := rfl
@[simp] theorem onMalformed_sqKind (s : State) : (onMalformed s).sqKind = SKind.nack := rfl
@[simp] theorem onMalformed_sKind (s : State) : (onMalformed s).sKind = s.sKind := rfl
@[simp] theorem onMalformed_sIdx (s : State) : (onMalformed s).sIdx = s.sIdx := rfl
@[simp] theorem onMalformed_rxBuffer (s : State) : (onMalformed s).rxBuffer = s.rxBuffer := rfl
@[simp] theorem onMalformed_rxCursor (s : State) : (onMalformed s).rxCursor = s.rxCursor := rfl
@[simp] theorem onMalformed_decCode (s : State) : (onMalformed s).decCode = s.decCode := rfl
@[simp] theorem onMalformed_decCnt (s : State) : (onMalformed s).decCnt = s.decCnt := rfl
@[simp] theorem onMalformed_rxOverflow (s : State) : (onMalformed s).rxOverflow = s.rxOverflow := rfl
@[simp] theorem onMalformed_curOp (s : State) : (onMalformed s).curOp = s.curOp := rfl
@[simp] theorem onMalformed_requests (s : State) : (onMalformed s).requests = s.requests := rfl
@[simp] theorem onMalformed_result (s : State) : (onMalformed s).result = s.result := rfl
@[simp] theorem onMalformed_txWire (s : State) : (onMalformed s).txWire = s.txWire := rfl
@[simp] theorem onMalformed_txScript (s : State) : (onMalformed s).txScript = s.txScript := rfl
@[simp] theorem onMalformed_rxScript (s : State) : (onMalformed s).rxScript = s.rxScript := rfl
@[simp] theorem onMalformed_freeCount (s : State) : (onMalformed s).freeCount = s.freeCount := rfl

/-! ### decReset -/

@[simp] theorem decReset_N (s : State) : (decReset s).N = s.N := rfl
@[simp] theorem decReset_M (s : State) : (decReset s).M = s.M := rfl
@[simp] theorem decReset_retryInterval (s : State) : (decReset s).retryInterval = s.retryInterval := rfl
@[simp] theorem decReset_txBuffer (s : State) : (decReset s).txBuffer = s.txBuffer := rfl
@[simp] theorem decReset_txLen (s : State) : (decReset s).txLen = s.txLen := rfl
@[simp] theorem decReset_txState (s : State) : (decReset s).txState = s.txState := rfl
@[simp] theorem decReset_txCursor (s : State) : (decReset s).txCursor = s.txCursor := rfl
@[simp] theorem decReset_txRetryDeadline (s : State) : (decReset s).txRetryDeadline = s.txRetryDeadline := rfl
@[simp] theorem decReset_enc (s : State) : (decReset s).enc = s.enc := rfl
@[simp] theorem decReset_sqValid (s : State) : (decReset s).sqValid = s.sqValid := rfl
@[simp] theorem decReset_sqKind (s : State) : (decReset s).sqKind = s.sqKind := rfl
@[simp] theorem decReset_sKind (s : State) : (decReset s).sKind = s.sKind := rfl
@[simp] theorem decReset_sIdx (s : State) : (decReset s).sIdx = s.sIdx := rfl
@[simp] theorem decReset_rxBuffer (s : State) : (decReset s).rxBuffer = s.rxBuffer := rfl
@[simp] theorem decReset_rxCursor (s : State) : (decReset s).rxCursor = 0 := rfl
@[simp] theorem decReset_decCode (s : State) : (decReset s).decCode = 0#8 := rfl
@[simp] theorem decReset_decCnt (s : State) : (decReset s).decCnt = 0#8 := rfl
@[simp] theorem decReset_rxOverflow (s : State) : (decReset s).rxOverflow = false := rfl
@[simp] theorem decReset_curOp (s : State) : (decReset s).curOp = s.curOp := rfl
@[simp] theorem decReset_requests (s : State) : (decReset s).requests = s.requests := rfl
@[simp] theorem decReset_result (s : State) : (decReset s).result = s.result := rfl
@[simp] theorem decReset_txWire (s : State) : (decReset s).txWire = s.txWire := rfl
@[simp] theorem decReset_txScript (s : State) : (decReset s).txScript = s.txScript := rfl
@[simp] theorem decReset_rxScript (s : State) : (decReset s).rxScript = s.rxScript := rfl
@[simp] theorem decReset_freeCount (s : State) : (decReset s).freeCount = s.freeCount := rfl

/-! ### startRun -/

@[simp] theorem startRun_N (b : Byte) (s : State) : (startRun b s).N = s.N := rfl
@[simp] theorem startRun_M (b : Byte) (s : State) : (startRun b s).M = s.M := rfl
@[simp] theorem startRun_retryInterval (b : Byte) (s : State) : (startRun b s).retryInterval = s.retryInterval := rfl
@[simp] theorem startRun_txBuffer (b : Byte) (s : State) : (startRun b s).txBuffer = s.txBuffer := rfl
@[simp] theorem startRun_txLen (b : Byte) (s : State) : (startRun b s).txLen = s.txLen := rfl
@[simp] theorem startRun_txState (b : Byte) (s : State) : (startRun b s).txState = s.txState := rfl
@[simp] theorem startRun_txCursor (b : Byte) (s : State) : (startRun b s).txCursor = s.txCursor := rfl
@[simp] theorem startRun_txRetryDeadline (b : Byte) (s : State) : (startRun b s).txRetryDeadline = s.txRetryDeadline := rfl
@[simp] theorem startRun_enc (b : Byte) (s : State) : (startRun b s).enc = s.enc := rfl
@[simp] theorem startRun_sqValid (b : Byte) (s : State) : (startRun b s).sqValid = s.sqValid := rfl
@[simp] theorem startRun_sqKind (b : Byte) (s : State) : (startRun b s).sqKind = s.sqKind := rfl
@[simp] theorem startRun_sKind (b : Byte) (s : State) : (startRun b s).sKind = s.sKind := rfl
@[simp] theorem startRun_sIdx (b : Byte) (s : State) : (startRun b s).sIdx = s.sIdx := rfl
@[simp] theorem startRun_rxBuffer (b : Byte) (s : State) : (startRun b s).rxBuffer = s.rxBuffer := rfl
@[simp] theorem startRun_rxCursor (b : Byte) (s : State) : (startRun b s).rxCursor = s.rxCursor := rfl
@[simp] theorem startRun_decCode (b : Byte) (s : State) : (startRun b s).decCode = b := rfl
@[simp] theorem startRun_decCnt (b : Byte) (s : State) : (startRun b s).decCnt = b - 1#8 := rfl
@[simp] theorem startRun_rxOverflow (b : Byte) (s : State) : (startRun b s).rxOverflow = s.rxOverflow := rfl
@[simp] theorem startRun_curOp (b : Byte) (s : State) : (startRun b s).curOp = s.curOp := rfl
@[simp] theorem startRun_requests (b : Byte) (s : State) : (startRun b s).requests = s.requests := rfl
@[simp] theorem startRun_result (b : Byte) (s : State) : (startRun b s).result = s.result := rfl
@[simp] theorem startRun_txWire (b : Byte) (s : State) : (startRun b s).txWire = s.txWire := rfl
@[simp] theorem startRun_txScript (b : Byte) (s : State) : (startRun b s).txScript = s.txScript := rfl
@[simp] theorem startRun_rxScript (b : Byte) (s : State) : (startRun b s).rxScript = s.rxScript := rfl
@[simp] theorem startRun_freeCount (b : Byte) (s : State) : (startRun b s).freeCount = s.freeCount := rfl

end Sys2Proof.Machine
end

