-- ==== Sys2Proof/Laws/Ops.lean ====
section
/-!
SUPPORT. Laws/Ops.lean: for each shared operation, once, everything it can do. A proof cites these and does not unfold
the operation.
-/

namespace Sys2Proof.Machine

/-! ### Starting and fetching -/

/-- A host operation answers when none is in progress, and is refused otherwise. -/
theorem whenFree_eq (s : State) (answer : Out) :
    whenFree s answer = if s.curOp = .none then answer else .refused .operationInProgress := by
  unfold whenFree
  cases s.curOp <;> simp

theorem whenFree_of_none (s : State) (answer : Out) (h : s.curOp = .none) : whenFree s answer = answer := by
  simp [whenFree, h]

theorem fetch_cases (s : State) :
    (s.requests = [] ∧ fetch s = none) ∨
    ∃ c rest, s.requests = c :: rest ∧ fetch s = some (c, { s with requests := rest }) := by
  unfold fetch
  cases s.requests with
  | nil => exact .inl ⟨rfl, rfl⟩
  | cons c rest => exact .inr ⟨c, rest, rfl, rfl⟩

/-! ### The transport -/

/-- The transport's answer to a write comes from the script, or is a free value. -/
theorem drawTx_cases (s : State) :
    (∃ r rest, s.txScript = r :: rest ∧ drawTx s = (r, { s with txScript := rest })) ∨
    (s.txScript = [] ∧ drawTx s = (Config.txDraw s.freeCount, { s with freeCount := s.freeCount + 1 })) := by
  unfold drawTx
  cases s.txScript with
  | nil => exact .inr ⟨rfl, rfl⟩
  | cons r rest => exact .inl ⟨r, rest, rfl, rfl⟩

/-- The transport's answer to a read comes from the script, or is a free value. -/
theorem drawRx_cases (s : State) :
    (∃ r rest, s.rxScript = r :: rest ∧ drawRx s = (r, { s with rxScript := rest })) ∨
    (s.rxScript = [] ∧ drawRx s = (Config.rxDraw s.freeCount, { s with freeCount := s.freeCount + 1 })) := by
  unfold drawRx
  cases s.rxScript with
  | nil => exact .inr ⟨rfl, rfl⟩
  | cons r rest => exact .inl ⟨r, rest, rfl, rfl⟩

/-! ### The decoder -/

/-- `store` within the buffer's range: dropped, overflow, or one byte appended. -/
theorem store_cases (v : Byte) (s : State) (h : s.rxCursor ≤ s.M) :
    (s.rxOverflow = true ∧ store v s = .ok s) ∨
    (s.rxOverflow = false ∧ s.rxCursor = s.M ∧ store v s = .ok { s with rxOverflow := true }) ∨
    (s.rxOverflow = false ∧ s.rxCursor < s.M ∧
      store v s = .ok { s with rxBuffer := s.rxBuffer.set s.rxCursor v, rxCursor := s.rxCursor + 1 }) := by
  unfold store overflows writeByte
  cases ho : s.rxOverflow with
  | true => exact .inl ⟨rfl, by simp⟩
  | false =>
    by_cases hm : s.rxCursor = s.M
    · exact .inr (.inl ⟨rfl, hm, by simp [hm]⟩)
    · have : s.rxCursor < s.M := by omega
      exact .inr (.inr ⟨rfl, this, by simp [hm, this]⟩)

/-- The four classes of a received byte (40_cobs.md R90). -/
theorem decStep_cases (b : Byte) (s : State) :
    (b = 0#8 ∧ decStep b s = .ok (delimEvent s, decReset s)) ∨
    (b ≠ 0#8 ∧ s.decCode = 0#8 ∧ decStep b s = .ok (.none, startRun b s)) ∨
    (b ≠ 0#8 ∧ s.decCode ≠ 0#8 ∧ s.decCnt ≠ 0#8 ∧
      decStep b s = (store b s).map (fun s' => (.none, { s' with decCnt := s'.decCnt - 1#8 }))) ∨
    (b ≠ 0#8 ∧ s.decCode ≠ 0#8 ∧ s.decCnt = 0#8 ∧ s.decCode ≠ 0xFF#8 ∧
      decStep b s = (store 0#8 s).map (fun s' => (.none, startRun b s'))) ∨
    (b ≠ 0#8 ∧ s.decCode = 0xFF#8 ∧ s.decCnt = 0#8 ∧ decStep b s = .ok (.none, startRun b s)) := by
  unfold decStep
  by_cases hb : b = 0#8
  · exact .inl ⟨hb, by simp [hb]⟩
  by_cases hc : s.decCode = 0#8
  · exact .inr (.inl ⟨hb, hc, by simp [hb, hc]⟩)
  by_cases hn : s.decCnt = 0#8
  · by_cases hf : s.decCode = 0xFF#8
    · exact .inr (.inr (.inr (.inr ⟨hb, hf, hn, by simp [hb, hn, hf]⟩)))
    · refine .inr (.inr (.inr (.inl ⟨hb, hc, hn, hf, ?_⟩)))
      simp only [hb, hc, hn, hf, ↓reduceIte, ne_eq, not_true_eq_false, not_false_eq_true]
      cases store 0#8 s <;> rfl
  · refine .inr (.inr (.inl ⟨hb, hc, hn, ?_⟩))
    simp only [hb, hc, hn, ↓reduceIte, ne_eq, not_false_eq_true]
    cases store b s <;> rfl

/-- The event of a delimiter (40_cobs.md R92). -/
theorem delimEvent_cases (s : State) :
    (s.decCode = 0#8 ∧ delimEvent s = .malformed .empty) ∨
    (s.decCode ≠ 0#8 ∧ s.decCnt ≠ 0#8 ∧ delimEvent s = .malformed .truncated) ∨
    (s.decCode ≠ 0#8 ∧ s.decCnt = 0#8 ∧ s.rxOverflow = true ∧ delimEvent s = .malformed .overflow) ∨
    (s.decCode ≠ 0#8 ∧ s.decCnt = 0#8 ∧ s.rxOverflow = false ∧ delimEvent s = .complete s.rxCursor) := by
  unfold delimEvent
  by_cases h1 : s.decCode = 0#8 <;> by_cases h2 : s.decCnt = 0#8 <;> cases h3 : s.rxOverflow <;> simp [h1, h2]

/-! ### Frames -/

/-- The CRC's two bytes are put together again to the CRC. -/
@[simp] theorem crcOfBytes_hi_lo (c : Word16) : crcOfBytes (crcHi c) (crcLo c) = c := by
  unfold crcOfBytes crcHi crcLo
  ext i hi
  simp only [BitVec.getElem_append, BitVec.getElem_extractLsb']
  split
  · rw [BitVec.getLsbD_eq_getElem (by omega)]; simp
  · rw [BitVec.getLsbD_eq_getElem (by omega)]; congr 1; omega

/-- The two bytes a CRC was assembled from. -/
@[simp] theorem crcHi_crcOfBytes (hi lo : Byte) : crcHi (crcOfBytes hi lo) = hi := by
  unfold crcOfBytes crcHi
  ext i h
  simp only [BitVec.getElem_extractLsb', Nat.add_comm 8 i]
  rw [BitVec.getLsbD_append]
  simp [BitVec.getLsbD_eq_getElem h]

@[simp] theorem crcLo_crcOfBytes (hi lo : Byte) : crcLo (crcOfBytes hi lo) = lo := by
  unfold crcOfBytes crcLo
  ext i h
  simp only [BitVec.getElem_extractLsb', Nat.zero_add]
  rw [BitVec.getLsbD_append]
  simp [h]

theorem frameBytes_length (f : Frame) : (frameBytes f).length = f.payload.length + 4 := by
  simp [frameBytes]

/-- A frame's bytes parse as that frame. -/
theorem parseFrame_frameBytes (f : Frame) : parseFrame (frameBytes f) = .ok f := by
  simp [parseFrame, frameBytes]

/-- What parses as a frame is that frame's bytes. -/
theorem frameBytes_of_parseFrame (d : List Byte) (f : Frame) (h : parseFrame d = .ok f) : frameBytes f = d := by
  unfold parseFrame at h
  split at h
  · rename_i hdr len rest
    split at h
    · rename_i hi lo htail
      obtain rfl : (⟨hdr, len, rest.take (rest.length - 2), crcOfBytes hi lo⟩ : Frame) = f := by simpa using h
      simp [frameBytes, ← htail]
    · simp at h
  · simp at h

/-- Too short a byte sequence is no frame, and nothing else fails to parse (30_encoding.md R61). -/
theorem parseFrame_error_iff (d : List Byte) (e : DecodeError) :
    parseFrame d = .error e ↔ d.length < 4 ∧ e = .shortFrame := by
  constructor
  · intro h
    unfold parseFrame at h
    split at h
    · rename_i hdr len rest
      split at h
      · simp at h
      · rename_i htail
        refine ⟨?_, by simpa using h.symm⟩
        by_contra hlen
        have h2 : (rest.drop (rest.length - 2)).length = 2 := by simp at hlen ⊢; omega
        match hm : rest.drop (rest.length - 2), h2 with
        | [hi, lo], _ => exact htail hi lo hm
    · rename_i hshort
      refine ⟨?_, by simpa using h.symm⟩
      match d, hshort with
      | [], _ => simp
      | [_], _ => simp
      | a :: b :: rest, hs => exact absurd rfl (hs a b rest)
  · rintro ⟨hlen, rfl⟩
    cases h : parseFrame d with
    | ok f => have := frameBytes_of_parseFrame d f h; rw [← this, frameBytes_length] at hlen; omega
    | error e =>
      unfold parseFrame at h
      split at h
      · split at h
        · simp at h
        · simpa using h.symm
      · simpa using h.symm

/-- A completed frame runs as one verdict on its bytes, whichever row it runs as. -/
theorem runFrame_eq (d : List Byte) (s : State) : runFrame d s = .next (onVerdict d (validate d) s) ∨
    (s.M < d.length ∧ runFrame d s = .next (onMalformed s)) := by
  unfold runFrame
  cases h : parseFrame d with
  | error e => left; simp [validate, h, onVerdict]
  | ok f =>
    have hd := frameBytes_of_parseFrame d f h
    have key : receiveFrame d s = .next (onVerdict d (validate d) s) ∨
        (s.M < d.length ∧ receiveFrame d s = .next (onMalformed s)) := by
      unfold receiveFrame frameVerdict
      by_cases hm : s.M < d.length
      · exact .inr ⟨hm, by simp [hm, onVerdict]⟩
      · exact .inl (by simp [hm])
    rcases f with ⟨hdr, len, p, crc⟩
    simp only [execFrameI, execFrameAck, execFrameNack, execFrameBadHeader]
    split
    · rename_i h1; rw [← h1, hd]; exact key
    · split
      · rename_i h1; rw [← h1, hd]; exact key
      · split
        · rename_i h1; rw [← h1, hd]; exact key
        · rw [hd]; exact key

/-! ### Sending -/

/-- What the arbiter can choose (42_arq_tx.md R130). -/
theorem select_cases (now : Instant) (s : State) :
    (s.sIdx ≠ 0#3 ∧ select now s = (some .sCont, s)) ∨
    (s.sIdx = 0#3 ∧ s.txState = .sending ∧ s.txCursor ≠ 0#9 ∧ select now s = (some .iCont, s)) ∨
    (s.sIdx = 0#3 ∧ ¬(s.txState = .sending ∧ s.txCursor ≠ 0#9) ∧ s.sqValid = true ∧ select now s = (some .sStart, s)) ∨
    (s.sIdx = 0#3 ∧ s.txState = .sending ∧ s.txCursor = 0#9 ∧ s.sqValid = false ∧ select now s = (some .iStart, s)) ∨
    (s.sIdx = 0#3 ∧ s.txState = .awaitingAck ∧ s.sqValid = false ∧ s.txRetryDeadline ≤ now ∧
      select now s = (some .iStart, timeout s)) ∨
    (s.sIdx = 0#3 ∧ s.txState ≠ .sending ∧ s.sqValid = false ∧
      (s.txState = .awaitingAck → now < s.txRetryDeadline) ∧ select now s = (none, s)) := by
  unfold select sInProgress iInProgress timerDue
  by_cases h1 : s.sIdx = 0#3
  · by_cases h2 : s.txState = .sending
    · by_cases h3 : s.txCursor = 0#9
      · cases h4 : s.sqValid <;> simp [h1, h2, h3]
      · simp [h1, h2, h3]
    · cases h4 : s.sqValid
      · by_cases h5 : s.txState = .awaitingAck
        · by_cases h6 : s.txRetryDeadline ≤ now
          · simp [h1, h5, h6]
          · simp [h1, h5, h6]; exact Nat.lt_of_not_le h6
        · simp [h1, h2, h5]
      · simp [h1, h2]
  · simp [h1]

/-- What a micro-step of POLL_TX can do (44_host_ops.md R176). -/
theorem txMicro_cases (now : Instant) (s : State) :
    (∃ s1, select now s = (none, s1) ∧ txMicro now s = .next (finish .ok s1)) ∨
    ∃ src s1, select now s = (some src, s1) ∧
      ((∃ f, offer src s1 = .error f ∧ txMicro now s = .fault f) ∨
       ∃ b r s2, offer src s1 = .ok b ∧ drawTx s1 = (r, s2) ∧
        ((r = .wouldBlock ∧ txMicro now s = .next (finish .ok s2)) ∨
         (∃ e, r = .error e ∧ txMicro now s = .next (finish (.transportError e) s2)) ∨
         (r = .ready ∧ txMicro now s = orFault (accept src now (putOnWire b s2))))) := by
  cases hsel : select now s with
  | mk o s1 =>
    cases o with
    | none => exact .inl ⟨s1, rfl, by simp [txMicro, hsel]⟩
    | some src =>
      refine .inr ⟨src, s1, rfl, ?_⟩
      cases hoff : offer src s1 with
      | error f => exact .inl ⟨f, rfl, by simp [txMicro, hsel, hoff]⟩
      | ok b =>
        cases hdraw : drawTx s1 with
        | mk r s2 =>
          refine .inr ⟨b, r, s2, rfl, rfl, ?_⟩
          cases r with
          | ready => exact .inr (.inr ⟨rfl, by simp [txMicro, hsel, hoff, hdraw]⟩)
          | wouldBlock => exact .inl ⟨rfl, by simp [txMicro, hsel, hoff, hdraw]⟩
          | error e => exact .inr (.inl ⟨e, rfl, by simp [txMicro, hsel, hoff, hdraw]⟩)

/-- What a micro-step of POLL_RX can do (43_arq_rx.md R150). -/
theorem rxMicro_cases (s : State) :
    ∃ r s1, drawRx s = (r, s1) ∧
      ((r = .wouldBlock ∧ rxMicro s = .next (finish (.okMessage none) s1)) ∨
       (∃ e, r = .error e ∧ rxMicro s = .next (finish (.transportError e) s1)) ∨
       (∃ b, r = .ready b ∧ rxMicro s = receiveByte b s1)) := by
  unfold rxMicro
  cases h : drawRx s with
  | mk r s1 =>
    refine ⟨r, s1, rfl, ?_⟩
    cases r with
    | wouldBlock => exact .inl ⟨rfl, rfl⟩
    | error e => exact .inr (.inl ⟨e, rfl, rfl⟩)
    | ready b =>
      refine .inr (.inr ⟨b, rfl, ?_⟩)
      simp only [runWireByte, execWireDelim, execWireData, execWireCode, execWireCodeChain]
      split
      · rename_i hb; rw [hb]
      · split
        · rfl
        · split
          · rename_i hb; rw [hb]
          · rfl

/-! ### The step -/

/-- What a step can do: nothing in WaitingRetry, the next micro-step of an operation in progress, nothing without a
request, a refusal of what does not decode, or the decoded request. -/
theorem step_cases (s : State) :
    (s.txState = .waitingRetry ∧ step s = .fault .waitingRetryStuck) ∨
    (s.txState ≠ .waitingRetry ∧
      ((∃ now, s.curOp = .pollTx now ∧ step s = txMicro now s) ∨
       (s.curOp = .pollRx ∧ step s = rxMicro s) ∨
       (s.curOp = .none ∧ s.requests = [] ∧ step s = .next s) ∨
       (∃ c rest, s.curOp = .none ∧ s.requests = c :: rest ∧
         ((∃ e, decodeCommand c = .error e ∧ step s = .refused (.undecodable e)) ∨
          (∃ i, decodeCommand c = .ok i ∧ step s = exec i { s with requests := rest }))))) := by
  unfold step
  by_cases hw : s.txState = .waitingRetry
  · exact .inl ⟨hw, by simp [hw]⟩
  · refine .inr ⟨hw, ?_⟩
    simp only [hw, ↓reduceIte]
    cases hop : s.curOp with
    | pollTx now => exact .inl ⟨now, rfl, rfl⟩
    | pollRx => exact .inr (.inl ⟨rfl, rfl⟩)
    | none =>
      rcases fetch_cases s with ⟨hr, hf⟩ | ⟨c, rest, hr, hf⟩
      · exact .inr (.inr (.inl ⟨rfl, hr, by simp [hf]⟩))
      · refine .inr (.inr (.inr ⟨c, rest, rfl, hr, ?_⟩))
        cases hd : decodeCommand c with
        | error e => exact .inl ⟨e, rfl, by simp [hf, hd]⟩
        | ok i => exact .inr ⟨i, rfl, by rw [hf]; simp [hd, hop]⟩

/-- Only host commands are decoded from the host's requests. -/
theorem decodeCommand_cases (c : Command) (i : Instr) (h : decodeCommand c = .ok i) :
    (∃ n m interval, i = .construct n m interval) ∨ (∃ p, i = .send p) ∨ (∃ now, i = .pollTx now) ∨
    i = .pollRx ∨ i = .isIdle ∨ i = .reservedCmd c.cmd := by
  unfold decodeCommand at h
  repeat' split at h
  all_goals first
    | (simp only [Except.ok.injEq] at h; subst h; simp)
    | simp at h

end Sys2Proof.Machine
end

