-- ==== Sys2Proof/Laws/Cobs.lean ====
section
/-!
SUPPORT. Laws/Cobs.lean: what each part of the COBS units does, once: the run look-ahead, one run of `cobs_encode`, one
run of the streaming encoder, one run of the decoder (40_cobs.md R80 to R97).
-/

namespace Sys2Proof.Machine

/-! ### The COBS function, run by run -/

/-- `Runs F out`: `out` is the encoding of `F` by the runs of 40_cobs.md R80. `r` is the data of the first run. -/
inductive Runs : List Byte → List Byte → Prop
  | last (r : List Byte) (nonZero : 0x00#8 ∉ r) (short : r.length < 254) : Runs r (codeByte r.length :: r)
  | chain (r F out : List Byte) (nonZero : 0x00#8 ∉ r) (full : r.length = 254) (rest : Runs F out) :
    Runs (r ++ F) (0xFF#8 :: (r ++ out))
  | zero (r F out : List Byte) (nonZero : 0x00#8 ∉ r) (short : r.length < 254) (rest : Runs F out) :
    Runs (r ++ 0x00#8 :: F) (codeByte r.length :: (r ++ out))

/-- All that the look-ahead finds: a zero-free prefix, ended by its limit, by the input's end or by a zero. -/
theorem leadingNonZero_spec (n : Nat) (l : List Byte) :
    leadingNonZero n l ≤ n ∧ leadingNonZero n l ≤ l.length ∧ 0x00#8 ∉ l.take (leadingNonZero n l) ∧
    (leadingNonZero n l < n → leadingNonZero n l = l.length ∨ l[leadingNonZero n l]? = some 0x00#8) := by
  induction n generalizing l with
  | zero => simp [leadingNonZero]
  | succ n ih =>
    cases l with
    | nil => simp [leadingNonZero]
    | cons b bs =>
      simp only [leadingNonZero]
      split
      · rename_i h; subst h; simp
      · rename_i h
        obtain ⟨h1, h2, h3, h4⟩ := ih bs
        refine ⟨by omega, by simp; omega, ?_, fun hlt => ?_⟩
        · simp only [List.take_succ_cons, List.mem_cons, not_or]; exact ⟨fun h' => h h'.symm, h3⟩
        · rcases h4 (by omega) with h5 | h5
          · left; simp [h5]
          · right; simpa using h5

/-- The look-ahead passes over a zero-free prefix. -/
theorem leadingNonZero_append (n : Nat) (r l : List Byte) (h0 : 0x00#8 ∉ r) (h : r.length ≤ n) :
    leadingNonZero n (r ++ l) = r.length + leadingNonZero (n - r.length) l := by
  induction r generalizing n with
  | nil => simp
  | cons b r ih =>
    cases n with
    | zero => simp at h
    | succ n =>
      simp at h0 h
      have : b ≠ 0#8 := fun h => h0.1 h.symm
      simp only [List.cons_append, leadingNonZero, this, if_false, List.length_cons, ih n h0.2 h]
      rw [show n + 1 - (r.length + 1) = n - r.length by omega]; omega

/-- `nz_run` at the start of a run is the run's length. -/
theorem nzRun_eq (S r l : List Byte) (p : Nat) (h : S.drop p = r ++ l) (h0 : 0x00#8 ∉ r) (hr : r.length ≤ 254)
    (hl : r.length = 254 ∨ l = [] ∨ ∃ t, l = 0x00#8 :: t) : nzRun S p = r.length := by
  unfold nzRun
  rw [h, leadingNonZero_append _ _ _ h0 hr]
  rcases hl with hl | rfl | ⟨t, rfl⟩
  · rw [hl]; simp [leadingNonZero]
  · cases 254 - r.length <;> simp [leadingNonZero]
  · cases 254 - r.length <;> simp [leadingNonZero]

theorem cobsLoop_runs (F : List Byte) (fuel i : Nat) (hi : i ≤ F.length) (hf : F.length - i < fuel) :
    Runs (F.drop i) (cobsLoop F fuel i) := by
  induction fuel generalizing i with
  | zero => omega
  | succ fuel ih =>
    obtain ⟨h1, h2, h3, h4⟩ := leadingNonZero_spec 254 (F.drop i)
    have hsplit : F.drop i = (F.drop i).take (nzRun F i) ++ F.drop (i + nzRun F i) := by
      rw [← List.drop_drop, List.take_append_drop]
    have hlen : ((F.drop i).take (nzRun F i)).length = nzRun F i := by simp [nzRun] at *; omega
    have h2' : nzRun F i ≤ F.length - i := by simpa [nzRun] using h2
    simp only [cobsLoop]
    split
    · rename_i hk
      have := Runs.chain ((F.drop i).take (nzRun F i)) (F.drop (i + nzRun F i)) _ h3 (by rw [hlen, hk])
        (ih (i + nzRun F i) (by omega) (by omega))
      rw [← hsplit] at this
      simpa [codeByte, hk] using this
    · rename_i hk
      have hlt : nzRun F i < 254 := by unfold nzRun at *; omega
      split
      · rename_i he
        have := Runs.last ((F.drop i).take (nzRun F i)) h3 (by omega)
        rw [hlen] at this
        have h5 : (F.drop i).take (nzRun F i) = F.drop i := List.take_of_length_le (by simp; omega)
        rw [h5] at this ⊢
        exact this
      · rename_i he
        have h6 : F[i + nzRun F i]? = some 0#8 := by
          rcases h4 hlt with h | h
          · exfalso; apply he; unfold nzRun; rw [h]; simp; omega
          · simpa [nzRun] using h
        have h7 : F.drop (i + nzRun F i) = 0#8 :: F.drop (i + nzRun F i + 1) := by
          obtain ⟨hl, hg⟩ := List.getElem?_eq_some_iff.1 h6
          rw [List.drop_eq_getElem_cons hl, hg]
        have := Runs.zero ((F.drop i).take (nzRun F i)) _ _ h3 (by omega)
          (ih (i + nzRun F i + 1) (by omega) (by omega))
        rw [hlen, ← h7, ← hsplit] at this
        exact this

/-- `cobs_encode(F)` encodes `F` run by run, with enough fuel for every run. -/
theorem cobsEncode_runs (F : List Byte) : Runs F (cobsEncode F) := by
  have := cobsLoop_runs F (F.length + 1) 0 (by omega) (by omega)
  simpa [cobsEncode] using this

/-- A code byte of a run of fewer than 254 bytes: neither `0x00` nor `0xFF`, and its run's length plus one. -/
theorem codeByte_short (k : Nat) (h : k < 254) :
    codeByte k ≠ 0x00#8 ∧ codeByte k ≠ 0xFF#8 ∧ (codeByte k - 1#8).toNat = k := by
  have hk : codeByte k = BitVec.ofNat 8 (k + 1) := by simp [codeByte]; omega
  rw [hk]
  refine ⟨fun h => ?_, fun h => ?_, ?_⟩
  · have := congrArg BitVec.toNat h; simp at this; omega
  · have := congrArg BitVec.toNat h; simp at this; omega
  · simp [BitVec.toNat_sub]; omega

/-! ### Segments -/

theorem segments_eq_cons (l : List Byte) : ∃ S rest, segments l = S :: rest := by
  cases l with
  | nil => exact ⟨_, _, rfl⟩
  | cons b bs =>
    simp only [segments]
    split
    · exact ⟨_, _, rfl⟩
    · split <;> exact ⟨_, _, rfl⟩

/-- A zero-free prefix lengthens the first segment. -/
theorem segments_append (r l : List Byte) (h0 : 0x00#8 ∉ r) :
    ∃ S rest, segments l = S :: rest ∧ segments (r ++ l) = (r ++ S) :: rest := by
  induction r with
  | nil => obtain ⟨S, rest, h⟩ := segments_eq_cons l; exact ⟨S, rest, h, by simpa using h⟩
  | cons b r ih =>
    simp at h0
    obtain ⟨S, rest, h1, h2⟩ := ih h0.2
    exact ⟨S, rest, h1, by simp [segments, h2, Ne.symm h0.1]⟩

/-! ### The streaming encoder -/

/-- The encoder after `k` accepted bytes from `e` on. -/
def encFrom (S : List Byte) (e : Encoder) : Nat → Encoder
  | 0 => e
  | k + 1 => encAdvance S (encFrom S e k)

theorem encFrom_add (S : List Byte) (e : Encoder) (a b : Nat) :
    encFrom S e (a + b) = encFrom S (encFrom S e a) b := by
  induction b with
  | zero => rfl
  | succ b ih => rw [← Nat.add_assoc]; simp [encFrom, ih]

theorem encAfter_eq_encFrom (S : List Byte) (k : Nat) : encAfter S k = encFrom S Encoder.init k := by
  induction k with
  | zero => rfl
  | succ k ih => simp [encFrom, encAfter, ih]

/-- The data bytes of a run: each is offered in turn, and then the run is over. -/
theorem encFrom_data (S : List Byte) (p : Nat) (hS : S.length ≤ 259) : ∀ (r : Nat) (e : Encoder), e.phase = .data →
    e.pos.toNat = p → e.rem.toNat = r → 0 < r → p + r ≤ S.length →
    (∀ j, j < r → encPeek S (encFrom S e j) = .ok (S[p + j]?.getD 0#8)) ∧
    ∃ q : BitVec 9, q.toNat = p + r ∧
      encFrom S e r = afterRun S q e.chain { e with pos := q, rem := 0#8, phase := .data } := by
  intro r
  induction r generalizing p with
  | zero => intros; omega
  | succ r ih =>
    intro e hp hpos hrem _ hlen
    have hpeek : encPeek S e = .ok (S[p]?.getD 0#8) := by
      simp [encPeek, hp, hpos, List.getElem?_eq_getElem (show p < S.length by omega)]
    have hq : (e.pos + 1#9).toNat = p + 1 := by simp [BitVec.toNat_add]; omega
    have hr : (e.rem - 1#8).toNat = r := by simp [BitVec.toNat_sub]; have := e.rem.isLt; omega
    by_cases h0 : r = 0
    · subst h0
      refine ⟨fun j hj => ?_, e.pos + 1#9, hq, ?_⟩
      · obtain rfl : j = 0 := by omega
        exact hpeek
      · have hr0 : e.rem - 1#8 = 0#8 := BitVec.eq_of_toNat_eq (by simpa using hr)
        simp only [encFrom, encAdvance, hp, hr0, if_true]
    · have hr0 : e.rem - 1#8 ≠ 0#8 := by intro h; rw [h] at hr; simp at hr; omega
      have hstep : encAdvance S e = { e with pos := e.pos + 1#9, rem := e.rem - 1#8, phase := .data } := by
        simp only [encAdvance, hp, hr0, if_false]
      obtain ⟨h1, q, h2, h3⟩ := ih (p + 1) { e with pos := e.pos + 1#9, rem := e.rem - 1#8, phase := .data } rfl hq hr
        (by omega) (by omega)
      refine ⟨fun j hj => ?_, q, by omega, ?_⟩
      · cases j with
        | zero => exact hpeek
        | succ j =>
          rw [Nat.add_comm j 1, encFrom_add]
          show encPeek S (encFrom S (encAdvance S e) j) = _
          rw [hstep, h1 j (by omega), show p + 1 + j = p + (1 + j) by omega]
      · rw [Nat.add_comm r 1, encFrom_add]
        show encFrom S (encAdvance S e) r = _
        rw [hstep, h3]

/-- One whole run from PREFIX: its code byte and its data bytes are offered in turn, and then the run is over. -/
theorem encFrom_run (S r l : List Byte) (p : Nat) (e : Encoder) (hS : S.length ≤ 259) (hp : e.phase = .prefixByte)
    (hpos : e.pos.toNat = p) (hple : p ≤ S.length) (h : S.drop p = r ++ l) (h0 : 0x00#8 ∉ r) (hr : r.length ≤ 254)
    (hl : r.length = 254 ∨ l = [] ∨ ∃ t, l = 0x00#8 :: t) :
    (∀ j b, (codeByte r.length :: r)[j]? = some b → encPeek S (encFrom S e j) = .ok b) ∧
    ∃ (q : BitVec 9) (e' : Encoder), q.toNat = p + r.length ∧ e'.pos = q ∧
      encFrom S e (r.length + 1) = afterRun S q (r.length == 254) e' := by
  have hnz := nzRun_eq S r l p h h0 hr hl
  have hlen : p + r.length ≤ S.length := by have := congrArg List.length h; simp at this; omega
  have hpk : encPeek S e = .ok (codeByte r.length) := by simp [encPeek, hp, hpos, hnz]
  by_cases hk : r.length = 0
  · have hr0 : r = [] := List.eq_nil_of_length_eq_zero hk
    subst hr0
    refine ⟨fun j b hj => ?_, e.pos, { e with rem := 0#8, chain := false }, by simpa using hpos, rfl, ?_⟩
    · cases j with
      | zero => simp at hj; subst hj; exact hpk
      | succ j => simp at hj
    · simp only [encFrom, List.length_nil]
      simp only [encAdvance, hp, hpos, hnz]
      simp [chainFlag]
  · have hadv : encAdvance S e =
        { e with rem := BitVec.ofNat 8 r.length, chain := chainFlag r.length, phase := .data } := by
      simp only [encAdvance, hp, hpos, hnz]; rw [if_pos (by omega)]
    obtain ⟨h1, q, h2, h3⟩ := encFrom_data S p hS r.length (encAdvance S e) (by rw [hadv])
      (by rw [hadv]; exact hpos) (by rw [hadv]; simp; omega) (by omega) hlen
    refine ⟨fun j b hj => ?_, q, { pos := q, rem := 0#8, chain := (r.length == 254), phase := .data }, h2, rfl, ?_⟩
    · cases j with
      | zero => simp at hj; subst hj; exact hpk
      | succ j =>
        simp at hj
        have hjl : j < r.length := (List.getElem?_eq_some_iff.1 hj).1
        rw [Nat.add_comm, encFrom_add]
        show encPeek S (encFrom S (encAdvance S e) _) = _
        rw [h1 j hjl]
        have : S[p + j]? = some b := by
          have := congrArg (fun l => l[j]?) h
          simp [List.getElem?_append_left hjl] at this
          rw [this]; exact hj
        simp [this]
    · rw [Nat.add_comm, encFrom_add]
      show encFrom S (encAdvance S e) _ = _
      rw [h3, hadv]; rfl

/-! ### The decoder -/

/-- A buffer after bytes have been stored from an index on. -/
def Memory.store : Memory → Nat → List Byte → Memory
  | m, _, [] => m
  | m, i, v :: vs => Memory.store (m.set i v) (i + 1) vs

theorem Memory.store_append (m : Memory) (i : Nat) (a b : List Byte) :
    Memory.store m i (a ++ b) = Memory.store (Memory.store m i a) (i + a.length) b := by
  induction a generalizing m i with
  | nil => rfl
  | cons v a ih => simp [Memory.store, ih, Nat.add_assoc, Nat.add_comm 1]

/-- All that the stored bytes change: themselves. -/
theorem Memory.get_store (m : Memory) (i : Nat) (vs : List Byte) (a : Nat) :
    (Memory.store m i vs).get a = if i ≤ a ∧ a < i + vs.length then vs[a - i]?.getD 0#8 else m.get a := by
  induction vs generalizing m i with
  | nil => simp [Memory.store]
  | cons v vs ih =>
    simp only [Memory.store, ih, List.length_cons]
    by_cases h : a = i
    · subst h; simp
    · rw [Memory.get_set_other _ _ _ _ h]
      by_cases h2 : i ≤ a ∧ a < i + (vs.length + 1)
      · rw [if_pos (by omega), if_pos h2, show a - i = (a - (i + 1)) + 1 by omega]; simp
      · rw [if_neg (by omega), if_neg h2]

/-- The decoder fed two sequences, one after the other. -/
theorem decRun_append (a b : List Byte) (s s1 s2 : State) (e1 e2 : List Event) (h1 : decRun a s = .ok (e1, s1))
    (h2 : decRun b s1 = .ok (e2, s2)) : decRun (a ++ b) s = .ok (e1 ++ e2, s2) := by
  induction a generalizing s e1 with
  | nil => simp [decRun] at h1; obtain ⟨rfl, rfl⟩ := h1; simpa using h2
  | cons x a ih =>
    simp only [decRun, List.cons_append] at h1 ⊢
    cases hx : decStep x s with
    | error f => simp [hx] at h1
    | ok p =>
      obtain ⟨ev, s'⟩ := p
      simp only [hx] at h1 ⊢
      cases ha : decRun a s' with
      | error f => simp [ha] at h1
      | ok q =>
        obtain ⟨evs, s''⟩ := q
        simp [ha] at h1
        obtain ⟨rfl, rfl⟩ := h1
        rw [ih s' evs ha]; rfl

/-- The data bytes of a run that fit the buffer are stored in a row. -/
theorem decRun_data (r : List Byte) (h0 : 0x00#8 ∉ r) : ∀ s : State, s.decCode ≠ 0#8 → s.decCnt.toNat = r.length →
    s.rxOverflow = false → s.rxCursor + r.length ≤ s.M →
    decRun r s = .ok (List.replicate r.length .none, { s with
      rxBuffer := s.rxBuffer.store s.rxCursor r, rxCursor := s.rxCursor + r.length, decCnt := 0#8 }) := by
  induction r with
  | nil =>
    intro s _ hn _ _
    have : s.decCnt = 0#8 := BitVec.eq_of_toNat_eq (by simpa using hn)
    simp only [decRun, Memory.store]
    cases s; simp_all
  | cons b r ih =>
    intro s hc hn ho hm
    simp at h0 hm hn
    have hb : b ≠ 0#8 := fun h => h0.1 h.symm
    have hnz : s.decCnt ≠ 0#8 := by intro h; rw [h] at hn; simp at hn
    have hmm : ¬ s.rxCursor = s.M := by omega
    have hst : decStep b s = .ok (.none, { s with
        rxBuffer := s.rxBuffer.set s.rxCursor b, rxCursor := s.rxCursor + 1, decCnt := s.decCnt - 1#8 }) := by
      simp [decStep, hb, hc, hnz, Machine.store, ho, overflows, hmm, writeByte, show s.rxCursor < s.M by omega]
    simp only [decRun, hst]
    rw [ih h0.2 { s with
      rxBuffer := s.rxBuffer.set s.rxCursor b, rxCursor := s.rxCursor + 1, decCnt := s.decCnt - 1#8 } hc
      (by simp [BitVec.toNat_sub]; omega) ho (by simp; omega)]
    simp [Memory.store, List.replicate_succ, Nat.add_assoc, Nat.add_comm 1]

/-- The source zero that the next code byte restores, where there is one (40_cobs.md R95). -/
def pendingZero (s : State) : List Byte := if s.decCode ≠ 0#8 ∧ s.decCode ≠ 0xFF#8 then [0x00#8] else []

/-- One whole run that fits the buffer: the zero that ended the run before it, if there was one, and the data. -/
theorem decRun_run (b : Byte) (r : List Byte) (h0 : 0x00#8 ∉ r) (hb : b ≠ 0#8) (hbr : (b - 1#8).toNat = r.length)
    (s : State) (hn : s.decCnt = 0#8) (ho : s.rxOverflow = false)
    (hm : s.rxCursor + (pendingZero s ++ r).length ≤ s.M) :
    decRun (b :: r) s = .ok (List.replicate (b :: r).length .none, { s with
      rxBuffer := s.rxBuffer.store s.rxCursor (pendingZero s ++ r),
      rxCursor := s.rxCursor + (pendingZero s ++ r).length, decCode := b, decCnt := 0#8 }) := by
  have hst : decStep b s = .ok (.none, { s with
      rxBuffer := s.rxBuffer.store s.rxCursor (pendingZero s), rxCursor := s.rxCursor + (pendingZero s).length,
      decCode := b, decCnt := b - 1#8 }) := by
    by_cases hc : s.decCode = 0#8
    · simp [decStep, hb, hc, startRun, pendingZero, Memory.store]
    · by_cases hf : s.decCode = 0xFF#8
      · simp [decStep, hb, hn, startRun, pendingZero, Memory.store, hf]
      · have : pendingZero s = [0#8] := by simp [pendingZero, hc, hf]
        rw [this] at hm ⊢; simp at hm
        have hmm : ¬ s.rxCursor = s.M := by omega
        simp [decStep, hb, hc, hn, hf, Machine.store, ho, overflows, hmm, writeByte,
          show s.rxCursor < s.M by omega, startRun, Memory.store]
  simp only [decRun, hst]
  rw [decRun_data r h0 { s with
    rxBuffer := s.rxBuffer.store s.rxCursor (pendingZero s), rxCursor := s.rxCursor + (pendingZero s).length,
    decCode := b, decCnt := b - 1#8 } hb hbr ho (by simp at hm ⊢; omega)]
  simp [Memory.store_append, List.replicate_succ, Nat.add_assoc]

end Sys2Proof.Machine
end

