-- ==== Sys2Proof/Laws/Receive.lean ====
section
/-!
SUPPORT. Laws/Receive.lean: what each operation of the receive side does when it answers a next state, and the fields
it never changes (43_arq_rx.md R150 to R162).
-/

namespace Sys2Proof.Machine

/-- The fields that no received byte and no received frame changes. -/
structure RxFrame (s t : State) : Prop where
  N : t.N = s.N
  M : t.M = s.M
  retryInterval : t.retryInterval = s.retryInterval
  txBuffer : t.txBuffer = s.txBuffer
  txRetryDeadline : t.txRetryDeadline = s.txRetryDeadline
  sKind : t.sKind = s.sKind
  sIdx : t.sIdx = s.sIdx
  requests : t.requests = s.requests
  txWire : t.txWire = s.txWire
  txScript : t.txScript = s.txScript
  rxScript : t.rxScript = s.rxScript
  freeCount : t.freeCount = s.freeCount

theorem RxFrame.refl (s : State) : RxFrame s s :=
  ⟨rfl, rfl, rfl, rfl, rfl, rfl, rfl, rfl, rfl, rfl, rfl, rfl⟩

theorem RxFrame.trans {s t u : State} (a : RxFrame s t) (b : RxFrame t u) : RxFrame s u :=
  ⟨b.N.trans a.N, b.M.trans a.M, b.retryInterval.trans a.retryInterval, b.txBuffer.trans a.txBuffer,
    b.txRetryDeadline.trans a.txRetryDeadline, b.sKind.trans a.sKind, b.sIdx.trans a.sIdx, b.requests.trans a.requests,
    b.txWire.trans a.txWire, b.txScript.trans a.txScript, b.rxScript.trans a.rxScript, b.freeCount.trans a.freeCount⟩

/-- The three ways a received byte or frame acts outside the decoder: nothing, or an ACK or NACK acted on; a payload
returned, with ACK queued; a NACK queued. -/
def Acted (s t : State) : Prop :=
  (t.curOp = s.curOp ∧ t.result = s.result ∧ t.sqValid = s.sqValid ∧ t.sqKind = s.sqKind ∧
    (t.txState = s.txState ∨ (s.txState = .awaitingAck ∧ (t.txState = .idle ∨ t.txState = .sending)))) ∨
  (t.curOp = .none ∧ (∃ p, t.result = some (.okMessage (some p))) ∧ t.sqValid = true ∧ t.sqKind = .ack ∧
    t.txState = s.txState) ∨
  (t.curOp = s.curOp ∧ t.result = s.result ∧ t.sqValid = true ∧ t.sqKind = .nack ∧ t.txState = s.txState)

/-- The decoder's registers and buffer are the same. -/
def SameDecoder (s t : State) : Prop :=
  t.rxBuffer = s.rxBuffer ∧ t.rxCursor = s.rxCursor ∧ t.rxOverflow = s.rxOverflow ∧ t.decCode = s.decCode ∧
  t.decCnt = s.decCnt

/-- A verdict on a frame acts in one of the three ways and leaves the decoder alone (43_arq_rx.md R162). -/
theorem onVerdict_acted (d : List Byte) (v : Verdict) (s : State) :
    RxFrame s (onVerdict d v s) ∧ Acted s (onVerdict d v s) ∧ SameDecoder s (onVerdict d v s) := by
  cases v with
  | i len =>
    exact ⟨⟨rfl, rfl, rfl, rfl, rfl, rfl, rfl, rfl, rfl, rfl, rfl, rfl⟩, .inr (.inl ⟨rfl, ⟨_, rfl⟩, rfl, rfl, rfl⟩),
      rfl, rfl, rfl, rfl, rfl⟩
  | ack =>
    simp only [onVerdict, onAck]
    split
    · rename_i hs
      exact ⟨⟨rfl, rfl, rfl, rfl, rfl, rfl, rfl, rfl, rfl, rfl, rfl, rfl⟩,
        .inl ⟨rfl, rfl, rfl, rfl, .inr ⟨hs, .inl rfl⟩⟩, rfl, rfl, rfl, rfl, rfl⟩
    · exact ⟨RxFrame.refl s, .inl ⟨rfl, rfl, rfl, rfl, .inl rfl⟩, rfl, rfl, rfl, rfl, rfl⟩
  | nack =>
    simp only [onVerdict, onNack]
    split
    · rename_i hs
      exact ⟨⟨rfl, rfl, rfl, rfl, rfl, rfl, rfl, rfl, rfl, rfl, rfl, rfl⟩,
        .inl ⟨rfl, rfl, rfl, rfl, .inr ⟨hs, .inr rfl⟩⟩, rfl, rfl, rfl, rfl, rfl⟩
    · exact ⟨RxFrame.refl s, .inl ⟨rfl, rfl, rfl, rfl, .inl rfl⟩, rfl, rfl, rfl, rfl, rfl⟩
  | malformed c =>
    exact ⟨⟨rfl, rfl, rfl, rfl, rfl, rfl, rfl, rfl, rfl, rfl, rfl, rfl⟩, .inr (.inr ⟨rfl, rfl, rfl, rfl, rfl⟩),
      rfl, rfl, rfl, rfl, rfl⟩

/-- Every frame row runs its frame's bytes. -/
theorem exec_frameInstr (f : Frame) (s : State) : exec (frameInstr f) s = receiveFrame (frameBytes f) s := by
  obtain ⟨hdr, len, p, crc⟩ := f
  unfold frameInstr
  simp only
  split
  · rename_i h; subst h; rfl
  · split
    · rename_i h; subst h; rfl
    · split
      · rename_i h; subst h; rfl
      · rfl

/-- A completed frame runs as the row it decodes to. -/
theorem runFrame_eq_exec (d : List Byte) (s : State) (i : Instr) (h : decodeFrame d = .ok i) :
    runFrame d s = exec i s := by
  unfold decodeFrame at h
  unfold runFrame
  cases hp : parseFrame d with
  | error e => simp [hp] at h
  | ok f =>
    simp [hp] at h; subst h
    unfold frameInstr
    simp only
    repeat' split
    all_goals rfl

/-- A completed frame is answered by one verdict, whatever its bytes. -/
theorem runFrame_verdict (d : List Byte) (s : State) : ∃ v, runFrame d s = .next (onVerdict d v s) := by
  rcases runFrame_eq d s with h | ⟨_, h⟩
  · exact ⟨_, h⟩
  · exact ⟨.malformed .overflow, h⟩

/-- Validation of a frame, in its fields (43_arq_rx.md R152). -/
theorem validate_frameBytes (f : Frame) : validate (frameBytes f) =
    if f.hdr ≠ 0x01#8 ∧ f.hdr ≠ 0x02#8 ∧ f.hdr ≠ 0x03#8 then .malformed .badHeader
    else if f.payload.length + 4 ≠ f.len.toNat + 4 then .malformed .badLength
    else if crc16X25 (f.hdr :: f.len :: f.payload) ≠ f.crc then .malformed .badCrc
    else if f.hdr ≠ 0x01#8 ∧ f.len ≠ 0#8 then .malformed .sLength
    else if f.hdr = 0x01#8 then .i f.len.toNat
    else if f.hdr = 0x02#8 then .ack
    else .nack := by
  have ht : (frameBytes f).take ((frameBytes f).length - 2) = f.hdr :: f.len :: f.payload := by
    rw [frameBytes_length]; simp [frameBytes]
  unfold validate
  rw [parseFrame_frameBytes]
  simp only
  rw [ht, frameBytes_length]

/-- All that storing a byte can change outside the decoder: nothing. -/
theorem store_next (v : Byte) (s t : State) (h : store v s = .ok t) : RxFrame s t ∧ t.curOp = s.curOp ∧
    t.result = s.result ∧ t.sqValid = s.sqValid ∧ t.sqKind = s.sqKind ∧ t.txState = s.txState := by
  unfold store at h
  split at h
  · simp at h; subst h; exact ⟨RxFrame.refl _, rfl, rfl, rfl, rfl, rfl⟩
  · split at h
    · simp at h; subst h
      exact ⟨⟨rfl, rfl, rfl, rfl, rfl, rfl, rfl, rfl, rfl, rfl, rfl, rfl⟩, rfl, rfl, rfl, rfl, rfl⟩
    · split at h
      · simp at h
      · simp at h; subst h
        exact ⟨⟨rfl, rfl, rfl, rfl, rfl, rfl, rfl, rfl, rfl, rfl, rfl, rfl⟩, rfl, rfl, rfl, rfl, rfl⟩

/-- All that a received byte can do outside the decoder. -/
theorem receiveByte_next (b : Byte) (s t : State) (h : receiveByte b s = .next t) : RxFrame s t ∧ Acted s t := by
  have same : ∀ u : State, RxFrame s u → u.curOp = s.curOp → u.result = s.result → u.sqValid = s.sqValid →
      u.sqKind = s.sqKind → u.txState = s.txState → RxFrame s u ∧ Acted s u :=
    fun u f h1 h2 h3 h4 h5 => ⟨f, .inl ⟨h1, h2, h3, h4, .inl h5⟩⟩
  unfold receiveByte at h
  rcases decStep_cases b s with ⟨hb, e⟩ | ⟨hb, hc, e⟩ | ⟨hb, hc, hn, e⟩ | ⟨hb, hc, hn, hf, e⟩ | ⟨hb, hf, hn, e⟩ <;>
    rw [e] at h
  · simp only [onEvent] at h
    split at h
    · simp at h; subst h
      exact same _ ⟨rfl, rfl, rfl, rfl, rfl, rfl, rfl, rfl, rfl, rfl, rfl, rfl⟩ rfl rfl rfl rfl rfl
    · simp at h; subst h
      exact ⟨⟨rfl, rfl, rfl, rfl, rfl, rfl, rfl, rfl, rfl, rfl, rfl, rfl⟩, .inr (.inr ⟨rfl, rfl, rfl, rfl, rfl⟩)⟩
    · split at h
      · simp at h
      · rename_i d hd
        obtain ⟨v, hv⟩ := runFrame_verdict d (decReset s)
        rw [hv] at h; simp at h; subst h
        obtain ⟨f1, f2, -⟩ := onVerdict_acted d v (decReset s)
        exact ⟨RxFrame.trans (t := decReset s) ⟨rfl, rfl, rfl, rfl, rfl, rfl, rfl, rfl, rfl, rfl, rfl, rfl⟩ f1, f2⟩
  · simp [onEvent] at h; subst h
    exact same _ ⟨rfl, rfl, rfl, rfl, rfl, rfl, rfl, rfl, rfl, rfl, rfl, rfl⟩ rfl rfl rfl rfl rfl
  · cases hst : store b s with
    | error f => simp [hst, Except.map] at h
    | ok u =>
      obtain ⟨g1, g2, g3, g4, g5, g6⟩ := store_next _ _ _ hst
      simp [hst, Except.map, onEvent] at h; subst h
      exact same _ (g1.trans ⟨rfl, rfl, rfl, rfl, rfl, rfl, rfl, rfl, rfl, rfl, rfl, rfl⟩) g2 g3 g4 g5 g6
  · cases hst : store 0x00#8 s with
    | error f => simp [hst, Except.map] at h
    | ok u =>
      obtain ⟨g1, g2, g3, g4, g5, g6⟩ := store_next _ _ _ hst
      simp [hst, Except.map, onEvent] at h; subst h
      exact same _ (g1.trans ⟨rfl, rfl, rfl, rfl, rfl, rfl, rfl, rfl, rfl, rfl, rfl, rfl⟩) g2 g3 g4 g5 g6
  · simp [onEvent] at h; subst h
    exact same _ ⟨rfl, rfl, rfl, rfl, rfl, rfl, rfl, rfl, rfl, rfl, rfl, rfl⟩ rfl rfl rfl rfl rfl

/-- All that a micro-step of POLL_RX that answers a next state can do: the read ends the operation, or a byte acts on
the state less the answer that was read. -/
theorem rxMicro_next (s t : State) (h : rxMicro s = .next t) :
    ∃ s', (s' = { s with freeCount := s.freeCount + 1 } ∨
        ∃ r rest, s.rxScript = r :: rest ∧ s' = { s with rxScript := rest }) ∧
      (t = finish (.okMessage none) s' ∨ (∃ e, t = finish (.transportError e) s') ∨
        ∃ b, receiveByte b s' = .next t) := by
  obtain ⟨r, s1, hd, hr⟩ := rxMicro_cases s
  refine ⟨s1, ?_, ?_⟩
  · rcases drawRx_cases s with ⟨r', rest, hh, e⟩ | ⟨_, e⟩ <;> rw [e] at hd <;> simp only [Prod.mk.injEq] at hd <;>
      obtain ⟨-, rfl⟩ := hd
    · exact .inr ⟨r', rest, hh, rfl⟩
    · exact .inl rfl
  · rcases hr with ⟨-, hm⟩ | ⟨e, -, hm⟩ | ⟨b, -, hm⟩ <;> rw [hm] at h
    · simp at h; exact .inl h.symm
    · simp at h; exact .inr (.inl ⟨e, h.symm⟩)
    · exact .inr (.inr ⟨b, h⟩)

end Sys2Proof.Machine
end

