-- ==== Sys2Proof/Laws/Transmit.lean ====
section
/-!
SUPPORT. Laws/Transmit.lean: what each operation of the transmit side does when it answers a next state, and the
fields it never changes (42_arq_tx.md R127 to R136).
-/

namespace Sys2Proof.Machine

/-- The fields that no micro-step of POLL_TX changes. -/
structure TxFrame (s t : State) : Prop where
  N : t.N = s.N
  M : t.M = s.M
  retryInterval : t.retryInterval = s.retryInterval
  txBuffer : t.txBuffer = s.txBuffer
  txLen : t.txLen = s.txLen
  rxBuffer : t.rxBuffer = s.rxBuffer
  rxCursor : t.rxCursor = s.rxCursor
  decCode : t.decCode = s.decCode
  decCnt : t.decCnt = s.decCnt
  rxOverflow : t.rxOverflow = s.rxOverflow
  requests : t.requests = s.requests
  rxScript : t.rxScript = s.rxScript

theorem TxFrame.refl (s : State) : TxFrame s s :=
  ⟨rfl, rfl, rfl, rfl, rfl, rfl, rfl, rfl, rfl, rfl, rfl, rfl⟩

theorem TxFrame.trans {s t u : State} (a : TxFrame s t) (b : TxFrame t u) : TxFrame s u :=
  ⟨b.N.trans a.N, b.M.trans a.M, b.retryInterval.trans a.retryInterval, b.txBuffer.trans a.txBuffer,
    b.txLen.trans a.txLen, b.rxBuffer.trans a.rxBuffer, b.rxCursor.trans a.rxCursor, b.decCode.trans a.decCode,
    b.decCnt.trans a.decCnt, b.rxOverflow.trans a.rxOverflow, b.requests.trans a.requests, b.rxScript.trans a.rxScript⟩

theorem drawTx_next (s s' : State) (r : TxResponse) (h : drawTx s = (r, s')) :
    (∃ rest, s.txScript = r :: rest ∧ s' = { s with txScript := rest }) ∨
    (s.txScript = [] ∧ s' = { s with freeCount := s.freeCount + 1 }) := by
  rcases drawTx_cases s with ⟨r', rest, hr, e⟩ | ⟨hr, e⟩ <;> rw [e] at h <;> simp only [Prod.mk.injEq] at h
  · obtain ⟨rfl, rfl⟩ := h; exact .inl ⟨rest, hr, rfl⟩
  · exact .inr ⟨hr, h.2.symm⟩

/-- An accepted S-frame byte changes only the S-frame queue and transmitter (42_arq_tx.md R127). -/
theorem acceptS_frame (s : State) : TxFrame s (acceptS s) ∧ (acceptS s).txWire = s.txWire ∧
    (acceptS s).txScript = s.txScript ∧ (acceptS s).curOp = s.curOp ∧ (acceptS s).result = s.result ∧
    (acceptS s).txState = s.txState ∧ (acceptS s).txCursor = s.txCursor ∧ (acceptS s).enc = s.enc ∧
    (acceptS s).txRetryDeadline = s.txRetryDeadline := by
  unfold acceptS
  split <;> exact ⟨⟨rfl, rfl, rfl, rfl, rfl, rfl, rfl, rfl, rfl, rfl, rfl, rfl⟩, rfl, rfl, rfl, rfl, rfl, rfl, rfl, rfl⟩

/-- An accepted I-frame byte either completes the attempt or advances it (42_arq_tx.md R132, R133). -/
theorem acceptI_next (now : Instant) (s t : State) (h : acceptI now s = .ok t) :
    TxFrame s t ∧ t.txWire = s.txWire ∧ t.txScript = s.txScript ∧
    ((t.curOp = .none ∧ t.result = some .ok ∧ t.txState = .awaitingAck ∧
        t.txRetryDeadline = now + s.retryInterval ∧ t.txCursor = 0#9) ∨
      (t.curOp = s.curOp ∧ t.result = s.result ∧ t.txState = s.txState ∧ t.txCursor = s.txCursor + 1#9)) := by
  unfold acceptI at h
  split at h
  · simp at h
  · simp only at h
    split at h
    · simp only [Except.ok.injEq] at h; subst h
      exact ⟨⟨rfl, rfl, rfl, rfl, rfl, rfl, rfl, rfl, rfl, rfl, rfl, rfl⟩, rfl, rfl, .inl ⟨rfl, rfl, rfl, rfl, rfl⟩⟩
    · simp only [Except.ok.injEq] at h; subst h
      exact ⟨⟨rfl, rfl, rfl, rfl, rfl, rfl, rfl, rfl, rfl, rfl, rfl, rfl⟩, rfl, rfl, .inr ⟨rfl, rfl, rfl, rfl⟩⟩

/-- The arbiter changes nothing but by a timeout, and offers an I-frame byte only in Sending. -/
theorem select_next (now : Instant) (s s' : State) (o : Option TxSource) (h : select now s = (o, s')) :
    (s' = s ∨ (s.txState = .awaitingAck ∧ s.txRetryDeadline ≤ now ∧ s' = timeout s ∧ o = some .iStart)) ∧
    (o = none → s' = s) ∧ ((o = some .iCont ∨ o = some .iStart) → s'.txState = .sending) := by
  rcases select_cases now s with ⟨a, e⟩ | ⟨a, b, c, e⟩ | ⟨a, b, c, e⟩ | ⟨a, b, c, d, e⟩ | ⟨a, b, c, d, e⟩ |
    ⟨a, b, c, d, e⟩ <;> rw [e] at h <;> simp only [Prod.mk.injEq] at h <;> obtain ⟨rfl, rfl⟩ := h
  · exact ⟨.inl rfl, fun _ => rfl, by simp⟩
  · exact ⟨.inl rfl, fun _ => rfl, fun _ => b⟩
  · exact ⟨.inl rfl, fun _ => rfl, by simp⟩
  · exact ⟨.inl rfl, fun _ => rfl, fun _ => b⟩
  · exact ⟨.inr ⟨b, d, rfl, rfl⟩, by simp, fun _ => rfl⟩
  · exact ⟨.inl rfl, fun _ => rfl, by simp⟩

/-- The arbiter does not look at the operation in progress. -/
theorem select_begin (now : Instant) (op : CurOp) (s : State) :
    select now (begin op s) = ((select now s).1, begin op (select now s).2) := by
  have e1 : sInProgress (begin op s) = sInProgress s := rfl
  have e2 : iInProgress (begin op s) = iInProgress s := rfl
  have e3 : timerDue now (begin op s) = timerDue now s := rfl
  have e4 : (begin op s).sqValid = s.sqValid := rfl
  have e5 : (begin op s).txState = s.txState := rfl
  unfold select
  rw [e1, e2, e3, e4, e5]
  repeat' split
  all_goals rfl

/-- What one micro-step of POLL_TX changes outside `TxFrame`, apart from the S-frame and encoder registers. -/
structure TxStep (now : Instant) (s t : State) : Prop extends TxFrame s t where
  ends : (t.curOp = .none ∧ (t.result = some .ok ∨ ∃ e, t.result = some (.transportError e))) ∨
    (t.curOp = s.curOp ∧ t.result = s.result)
  wire : t.txWire = s.txWire ∨ ∃ b, t.txWire = s.txWire ++ [b]
  script : t.txScript = s.txScript ∨ ∃ r, s.txScript = r :: t.txScript
  state : t.txState = s.txState ∨
    (s.txState = .sending ∧ t.txState = .awaitingAck ∧ t.txRetryDeadline = now + s.retryInterval) ∨
    (s.txState = .awaitingAck ∧ t.txState = .sending ∧ s.txRetryDeadline ≤ now)

/-- An accepted byte, from a state that differs from `s` by what the arbiter and the transport did. -/
theorem accept_next (now : Instant) (src : TxSource) (b : Byte) (s s' t : State) (f : TxFrame s s')
    (op : s'.curOp = s.curOp) (res : s'.result = s.result) (w : s'.txWire = s.txWire)
    (sc : s'.txScript = s.txScript ∨ ∃ r, s.txScript = r :: s'.txScript)
    (st : s'.txState = s.txState ∨ (s.txState = .awaitingAck ∧ s'.txState = .sending ∧ s.txRetryDeadline ≤ now))
    (snd : (src = .iCont ∨ src = .iStart) → s'.txState = .sending)
    (h : accept src now (putOnWire b s') = .ok t) : TxStep now s t := by
  have f' : TxFrame s (putOnWire b s') :=
    f.trans ⟨rfl, rfl, rfl, rfl, rfl, rfl, rfl, rfl, rfl, rfl, rfl, rfl⟩
  have w' : (putOnWire b s').txWire = s.txWire ++ [b] := by simp [putOnWire, w]
  have onS : t = acceptS (putOnWire b s') → TxStep now s t := by
    rintro rfl
    obtain ⟨g1, g2, g3, g4, g5, g6, -⟩ := acceptS_frame (putOnWire b s')
    refine ⟨f'.trans g1, .inr ⟨g4.trans op, g5.trans res⟩, .inr ⟨b, g2.trans w'⟩, by rw [g3]; exact sc, ?_⟩
    rw [g6]; exact st.imp_right .inr
  have onI : (src = .iCont ∨ src = .iStart) → acceptI now (putOnWire b s') = .ok t → TxStep now s t := by
    intro hk hu
    obtain ⟨g1, g2, g3, g4⟩ := acceptI_next now _ _ hu
    rcases g4 with ⟨a1, a2, a3, a4, -⟩ | ⟨a1, a2, a3, -⟩
    · refine ⟨f'.trans g1, .inl ⟨a1, .inl a2⟩, .inr ⟨b, g2.trans w'⟩, by rw [g3]; exact sc, ?_⟩
      rcases st with st | ⟨st, -, -⟩
      · exact .inr (.inl ⟨st ▸ snd hk, a3, by rw [a4]; exact congrArg _ f.retryInterval⟩)
      · exact .inl (a3.trans st.symm)
    · refine ⟨f'.trans g1, .inr ⟨a1.trans op, a2.trans res⟩, .inr ⟨b, g2.trans w'⟩, by rw [g3]; exact sc, ?_⟩
      rw [a3]; exact st.imp_right .inr
  cases src with
  | sCont => exact onS (by simpa [accept] using h.symm)
  | sStart => exact onS (by simpa [accept] using h.symm)
  | iCont => exact onI (.inl rfl) h
  | iStart => exact onI (.inr rfl) h

/-- All that a micro-step of POLL_TX that answers a next state can do. -/
theorem txMicro_next (now : Instant) (s t : State) (h : txMicro now s = .next t) : TxStep now s t := by
  rcases txMicro_cases now s with ⟨s1, hsel, hm⟩ | ⟨src, s1, hsel, ⟨f, _, hm⟩ | ⟨b, r, s2, ho, hdr, hrest⟩⟩
  · rw [hm] at h; simp only [Host.Outcome.next.injEq] at h; subst h
    obtain rfl := (select_next now s _ _ hsel).2.1 rfl
    exact ⟨⟨rfl, rfl, rfl, rfl, rfl, rfl, rfl, rfl, rfl, rfl, rfl, rfl⟩, .inl ⟨rfl, .inl rfl⟩, .inl rfl, .inl rfl,
      .inl rfl⟩
  · rw [hm] at h; simp at h
  · obtain ⟨hs1, -, hsnd⟩ := select_next now s _ _ hsel
    have f1 : TxFrame s s1 ∧ s1.curOp = s.curOp ∧ s1.result = s.result ∧ s1.txWire = s.txWire ∧
        s1.txScript = s.txScript ∧ (s1.txState = s.txState ∨
          (s.txState = .awaitingAck ∧ s1.txState = .sending ∧ s.txRetryDeadline ≤ now)) := by
      rcases hs1 with rfl | ⟨a, b, rfl, -⟩
      · exact ⟨TxFrame.refl _, rfl, rfl, rfl, rfl, .inl rfl⟩
      · exact ⟨⟨rfl, rfl, rfl, rfl, rfl, rfl, rfl, rfl, rfl, rfl, rfl, rfl⟩, rfl, rfl, rfl, rfl, .inr ⟨a, rfl, b⟩⟩
    obtain ⟨f1, c1, r1, w1, sc1, st1⟩ := f1
    have f2 : TxFrame s1 s2 ∧ s2.curOp = s1.curOp ∧ s2.result = s1.result ∧ s2.txWire = s1.txWire ∧
        s2.txState = s1.txState ∧ (s2.txScript = s1.txScript ∨ ∃ r, s1.txScript = r :: s2.txScript) := by
      rcases drawTx_next s1 s2 r hdr with ⟨rest, hr, rfl⟩ | ⟨-, rfl⟩
      · exact ⟨⟨rfl, rfl, rfl, rfl, rfl, rfl, rfl, rfl, rfl, rfl, rfl, rfl⟩, rfl, rfl, rfl, rfl, .inr ⟨r, hr⟩⟩
      · exact ⟨⟨rfl, rfl, rfl, rfl, rfl, rfl, rfl, rfl, rfl, rfl, rfl, rfl⟩, rfl, rfl, rfl, rfl, .inl rfl⟩
    obtain ⟨f2, c2, r2, w2, st2, sc2⟩ := f2
    rw [sc1] at sc2
    have st : s2.txState = s.txState ∨ (s.txState = .awaitingAck ∧ s2.txState = .sending ∧ s.txRetryDeadline ≤ now) := by
      rw [st2]; exact st1
    have fin : ∀ R, TxFrame s (finish R s2) := fun R =>
      (f1.trans f2).trans ⟨rfl, rfl, rfl, rfl, rfl, rfl, rfl, rfl, rfl, rfl, rfl, rfl⟩
    rcases hrest with ⟨rfl, hm⟩ | ⟨e, rfl, hm⟩ | ⟨rfl, hm⟩ <;> rw [hm] at h
    · simp only [Host.Outcome.next.injEq] at h; subst h
      exact ⟨fin _, .inl ⟨rfl, .inl rfl⟩, .inl (w2.trans w1), sc2, st.imp_right .inr⟩
    · simp only [Host.Outcome.next.injEq] at h; subst h
      exact ⟨fin _, .inl ⟨rfl, .inr ⟨e, rfl⟩⟩, .inl (w2.trans w1), sc2, st.imp_right .inr⟩
    · cases hacc : accept src now (putOnWire b s2) with
      | error f => rw [hacc] at h; simp [orFault] at h
      | ok u =>
        rw [hacc] at h; simp only [orFault, Host.Outcome.next.injEq] at h; subst h
        exact accept_next now src b s s2 u (f1.trans f2) (c2.trans c1) (r2.trans r1) (w2.trans w1) sc2 st
          (fun hk => st2 ▸ hsnd (by rcases hk with rfl | rfl <;> simp)) hacc

end Sys2Proof.Machine
end

