-- ==== Sys2Proof/Laws/HostOps.lean ====
section
/-!
SUPPORT. Laws/HostOps.lean: what the host operations and a step do when they answer a next state, runs of several steps,
and what the invariant does not depend on (44_host_ops.md R170 to R180).
-/

namespace Sys2Proof.Machine

theorem whenFree_next (s t : State) (answer : Out) (h : whenFree s answer = .next t) :
    s.curOp = .none ∧ answer = .next t := by
  rw [whenFree_eq] at h
  split at h
  · exact ⟨‹_›, h⟩
  · simp at h

theorem iFrame_length (p : List Byte) : (iFrame p).length = p.length + 4 := by simp [iFrame, frameBytes]

/-- The bytes of a list, each at its index, are what a read of them all gives. -/
theorem readBytes_of_get (len : Nat) (m : Memory) (bs : List Byte) (h : bs.length ≤ len)
    (hg : ∀ j (h : j < bs.length), m.get j = bs[j]) : readBytes len m 0 bs.length = .ok bs := by
  rw [readBytes_eq_ok]
  exact ⟨.inr (by omega), List.ext_getElem (by simp) fun j h1 _ => by simp [hg j h1]⟩

/-- SEND's writes put the I-frame at the start of the buffer, and nothing else changes, whatever the unspecified
contents are. -/
theorem writeIFrame_spec (len : Nat) (m : Memory) (p : List Byte) (h : p.length + 4 ≤ len) :
    ∃ m', writeIFrame len m p = .ok m' ∧
      (∀ a, m'.get a = if a < p.length + 4 then (iFrame p)[a]?.getD 0#8 else m.get a) ∧
      (∀ a, m'.written a = (decide (a < p.length + 4) || m.written a)) ∧
      (m.wf = true → m'.wf = true) ∧ (Memory.inRange len m = true → Memory.inRange len m' = true) ∧
      ∀ u, writeIFrame len { m with contents := u } p = .ok { m' with contents := u } := by
  have hcov : (0x01#8 :: BitVec.ofNat 8 p.length :: p).length = p.length + 2 := by simp
  generalize hc : (0x01#8 :: BitVec.ofNat 8 p.length :: p) = covered at hcov
  obtain ⟨m1, w1, g1, wr1, wf1, ir1, u1⟩ := writeBytes_spec len covered m 0 (by omega)
  have hr : ∀ u, readBytes len { m1 with contents := u } 0 (p.length + 2) = .ok covered := by
    intro u
    rw [← hcov]
    refine readBytes_of_get len _ covered (by omega) fun j hj => ?_
    rw [Memory.get_withContents _ _ _ (by rw [wr1 j]; simp; omega), g1 j, dif_pos ⟨by omega, by omega⟩]; simp
  obtain ⟨m2, w2, g2, wr2, wf2, ir2, u2⟩ := writeBytes_spec len [crcHi (crc16X25 covered), crcLo (crc16X25 covered)]
    m1 (p.length + 2) (by simp; omega)
  refine ⟨m2, by simp only [writeIFrame, hc, w1, hr m1.contents, w2], fun a => ?_, fun a => ?_,
    fun h => wf2 (wf1 h), fun h => ir2 (ir1 h), fun u => by simp only [writeIFrame, hc, u1 u, hr u, u2 u]⟩
  · have hi : iFrame p = covered ++ [crcHi (crc16X25 covered), crcLo (crc16X25 covered)] := by
      simp [iFrame, frameBytes, ← hc]
    rw [g2 a]
    by_cases ha : a < p.length + 2
    · rw [dif_neg (by omega), g1 a, dif_pos ⟨by omega, by omega⟩, if_pos (by omega), hi,
        List.getElem?_append_left (by omega)]
      simp [List.getElem?_eq_getElem (show a < covered.length by omega)]
    · by_cases hb : a < p.length + 4
      · rw [dif_pos ⟨by omega, by simpa using hb⟩, if_pos hb, hi, List.getElem?_append_right (by omega), hcov,
          List.getElem?_eq_getElem (by simp; omega)]
        rfl
      · rw [dif_neg (by simp; omega), g1 a, dif_neg (by omega), if_neg hb]
  · rw [wr2 a, wr1 a, ← Bool.or_assoc]
    congr 1
    simp only [List.length_cons, List.length_nil, ← Bool.decide_or]
    exact decide_eq_decide.2 (by omega)

/-- All that a SEND that answers a next state can do. -/
theorem execSend_next (p : List Byte) (s t : State) (h : execSend p s = .next t) : s.curOp = .none ∧
    ((s.txState ≠ .idle ∧ t = finish .busy s) ∨
      (s.txState = .idle ∧ cap s < p.length ∧ t = finish .tooLong s) ∨
      (s.txState = .idle ∧ ∃ m, writeIFrame s.N s.txBuffer p = .ok m ∧
        t = finish .ok (startAttempt { s with
          txBuffer := m, txLen := BitVec.ofNat 8 p.length, txState := .sending }))) := by
  obtain ⟨h1, h⟩ := whenFree_next _ _ _ h
  refine ⟨h1, ?_⟩
  split at h
  · simp at h; exact .inl ⟨‹_›, h.symm⟩
  · rename_i hi; simp at hi
    split at h
    · simp at h; exact .inr (.inl ⟨hi, ‹_›, h.symm⟩)
    · unfold sendAccepted at h
      split at h
      · simp at h
      · rename_i m hm; simp at h; exact .inr (.inr ⟨hi, m, hm, h.symm⟩)

/-- All that a CONSTRUCT that answers a next state can do. -/
theorem execConstruct_next (n m interval : Nat) (s t : State) (h : execConstruct n m interval s = .next t) :
    s.curOp = .none ∧ 4 ≤ n ∧ t = finish .ok (constructed n m interval s) := by
  obtain ⟨h1, h⟩ := whenFree_next _ _ _ h
  split at h
  · simp at h
  · simp at h; exact ⟨h1, by omega, h.symm⟩

/-- Every way a step answers a next state, with the operation whose micro-step it is. -/
theorem step_next (s t : State) (h : step s = .next t) : s.txState ≠ .waitingRetry ∧
    ((∃ now u, stepOp s = some (.pollTx now) ∧ txMicro now u = .next t ∧
        (u = s ∨ (s.curOp = .none ∧ ∃ rest, u = begin (.pollTx now) { s with requests := rest }))) ∨
      (∃ u, stepOp s = some .pollRx ∧ rxMicro u = .next t ∧
        (u = s ∨ (s.curOp = .none ∧ ∃ rest, u = begin .pollRx { s with requests := rest }))) ∨
      (stepOp s = none ∧ t = s) ∨
      (∃ p rest, stepOp s = some (.send p) ∧ execSend p { s with requests := rest } = .next t) ∨
      (∃ n m interval rest, stepOp s = some (.construct n m interval) ∧
        execConstruct n m interval { s with requests := rest } = .next t) ∨
      (∃ rest, stepOp s = some .isIdle ∧ t = finish (.okBool (idleStatus s)) { s with requests := rest })) := by
  rcases step_cases s with ⟨_, e⟩ | ⟨hw, hc⟩
  · rw [e] at h; simp at h
  · refine ⟨hw, ?_⟩
    rcases hc with ⟨now, h1, e⟩ | ⟨h1, e⟩ | ⟨h1, h2, e⟩ | ⟨c, rest, h1, h2, ⟨er, h3, e⟩ | ⟨i, h3, e⟩⟩ <;> rw [e] at h
    · exact .inl ⟨now, s, by simp [stepOp, h1], h, .inl rfl⟩
    · exact .inr (.inl ⟨s, by simp [stepOp, h1], h, .inl rfl⟩)
    · simp at h; exact .inr (.inr (.inl ⟨by simp [stepOp, h1, h2], h.symm⟩))
    · simp at h
    · have hop : stepOp s = some i := by simp [stepOp, h1, h2, h3]
      rcases decodeCommand_cases c i h3 with ⟨n, m, k, rfl⟩ | ⟨p, rfl⟩ | ⟨now, rfl⟩ | rfl | rfl | rfl
      · exact .inr (.inr (.inr (.inr (.inl ⟨n, m, k, rest, hop, h⟩))))
      · exact .inr (.inr (.inr (.inl ⟨p, rest, hop, h⟩)))
      · exact .inl ⟨now, _, hop, (whenFree_next _ _ _ h).2, .inr ⟨h1, rest, rfl⟩⟩
      · exact .inr (.inl ⟨_, hop, (whenFree_next _ _ _ h).2, .inr ⟨h1, rest, rfl⟩⟩)
      · have h := (whenFree_next _ _ _ h).2
        simp only [Host.Outcome.next.injEq] at h
        exact .inr (.inr (.inr (.inr (.inr ⟨rest, hop, h.symm⟩))))
      · simp [exec, execReservedCmd] at h

/-! ### Runs -/

theorem run_zero (s : State) : run 0 s = .next s := rfl

theorem run_succ (k : Nat) (s t : State) (h : step s = .next t) : run (k + 1) s = run k t := by
  simp only [run, Host.Core.run]
  have : Sys2Proof.core.step s = .next t := h
  rw [this]

theorem run_add (a b : Nat) : ∀ s t : State, run a s = .next t → run (a + b) s = run b t := by
  induction a with
  | zero =>
    intro s t h
    simp only [run_zero, Host.Outcome.next.injEq] at h; subst h; simp only [Nat.zero_add]
  | succ a ih =>
    intro s t h
    cases hs : step s with
    | next u =>
      rw [run_succ _ _ _ hs] at h
      rw [show a + 1 + b = (a + b) + 1 by omega, run_succ _ _ _ hs]
      exact ih u t h
    | fault f =>
      have : Sys2Proof.core.step s = .fault f := hs
      simp [run, Host.Core.run, this] at h
    | refused f =>
      have : Sys2Proof.core.step s = .refused f := hs
      simp [run, Host.Core.run, this] at h

/-! ### The invariant -/

/-- The invariant depends on the block's registers and buffers, and not on the host, the wire or the scripts. -/
theorem Inv.congr {s t : State} (h : Inv s) (hN : t.N = s.N) (hM : t.M = s.M) (h1 : t.txBuffer = s.txBuffer)
    (h2 : t.txLen = s.txLen) (h3 : t.txState = s.txState) (h4 : t.txCursor = s.txCursor) (h5 : t.enc = s.enc)
    (h6 : t.sIdx = s.sIdx) (h7 : t.rxBuffer = s.rxBuffer) (h8 : t.rxCursor = s.rxCursor)
    (h9 : t.decCode = s.decCode) (h10 : t.decCnt = s.decCnt) (h11 : t.rxOverflow = s.rxOverflow)
    (hr : t.curOp ≠ .none → t.result = none) : Inv t := by
  have e1 : txSource t = txSource s := by simp [txSource, txSourceLen, hN, h1, h2]
  have e2 : holdsIFrame t = holdsIFrame s := by simp only [holdsIFrame, e1, h2]
  have e3 : encoderInStep t = encoderInStep s := by simp only [encoderInStep, e1, h5, h4]
  constructor
  · rw [hN]; exact h.bufferLength
  · rw [h2]; simpa [cap, hN] using h.lengthInCap
  · rw [h3, h2]; exact h.idleHasNoLength
  · rw [h8, hM]; exact h.rxCursorInBuffer
  · rw [h11, h8, hM]; exact h.overflowAtEnd
  · rw [h4, h3]; exact h.cursorOnlySending
  · rw [h6, h4]; exact h.oneFrameInProgress
  · rw [h3]; exact h.neverWaitingRetry
  · rw [h10]; exact h.countInRun
  · rw [h9, h10]; exact h.countNeedsCode
  · rw [h9, h8, h11]; exact h.frameStart
  · rw [h6]; exact h.sIndexInFrame
  · rw [h1, hN]; exact h.txBufferForm
  · rw [h7, hM]; exact h.rxBufferForm
  · rw [h3, e2]; exact h.holdsFrame
  · simp only [h3, h1, txSourceLen, h2]; exact h.frameWritten
  · rw [h3, e3]; exact h.encoderTracks
  · rw [h7, h8]; exact h.frameStored
  · exact hr

theorem Inv.finish {s : State} (r : Result) (h : Inv s) : Inv (Machine.finish r s) :=
  h.congr rfl rfl rfl rfl rfl rfl rfl rfl rfl rfl rfl rfl rfl (by simp [Machine.finish])

theorem Inv.begin {s : State} (op : CurOp) (h : Inv s) : Inv (Machine.begin op s) :=
  h.congr rfl rfl rfl rfl rfl rfl rfl rfl rfl rfl rfl rfl rfl (by simp [Machine.begin])

/-- The bytes of the frame that is being received can be read. -/
theorem Inv.readFrame {s : State} (h : Inv s) :
    readBytes s.M s.rxBuffer 0 s.rxCursor = .ok ((List.range' 0 s.rxCursor).map s.rxBuffer.get) :=
  readBytes_in _ _ _ _ (by have := h.rxCursorInBuffer; omega)

/-- The encoder's source can be read. -/
theorem Inv.readSource {s : State} (h : Inv s) :
    txSource s = .ok ((List.range' 0 (txSourceLen s)).map s.txBuffer.get) := by
  refine readBytes_in _ _ _ _ ?_
  have h1 := h.lengthInCap
  have h2 := h.bufferLength
  simp only [cap, txSourceLen] at *
  omega

/-- Written bytes read the same whatever the unspecified contents are. -/
theorem readBytes_withContents (len : Nat) (m : Memory) (u : Nat) (n : Nat) : ∀ i,
    (∀ a, i ≤ a → a < i + n → m.written a = true) →
    readBytes len { m with contents := u } i n = readBytes len m i n := by
  induction n with
  | zero => intro i _; rfl
  | succ n ih =>
    intro i h
    have h0 := Memory.get_withContents m u i (h i (by omega) (by omega))
    simp only [readBytes, readByte, h0, ih (i + 1) fun a h1 h2 => h a (by omega) (by omega)]

/-- A sender that holds a frame reads no unspecified byte of `tx_buffer`. -/
theorem Inv.txSource_withContents {s : State} (h : Inv s) (hs : s.txState ≠ .idle) (u v : Nat) :
    txSource (s.withContents u v) = txSource s :=
  readBytes_withContents _ _ _ _ _ fun a _ h2 =>
    (Memory.writtenBelow_iff _ _).1 (h.frameWritten hs) a (by simpa [txSourceLen, State.withContents] using h2)

/-- A completed frame holds no unspecified byte of `rx_buffer`. -/
theorem Inv.readFrame_withContents {s : State} (h : Inv s) (u : Nat) :
    readBytes s.M { s.rxBuffer with contents := u } 0 s.rxCursor = readBytes s.M s.rxBuffer 0 s.rxCursor :=
  readBytes_withContents _ _ _ _ _ fun a _ h2 => (Memory.writtenBelow_iff _ _).1 h.frameStored a (by omega)

end Sys2Proof.Machine
end

