-- ==== Sys2Proof/Laws/PerInstr.lean ====
section
/-!
SUPPORT. Laws/PerInstr.lean: statements about every instruction as syntax. Family FirstByte: the byte by which an
instruction's encoding is recognised lies in the range that its row of spec/opcode_table.json gives ("match").
-/

namespace Sys2Proof

/-- The byte an encoding is recognised by: the command code, the frame's header, the wire byte. -/
def firstByte : Encoding → Option Byte
  | .command c => some c.cmd
  | .frame d => d.head?
  | .wire _ b => some b

/-- The "match" of each row of spec/opcode_table.json. -/
def rowMatches : Instr → Byte → Bool
  | .construct _ _ _, b => b == 0x00#8
  | .send _, b => b == 0x01#8
  | .pollTx _, b => b == 0x02#8
  | .pollRx, b => b == 0x03#8
  | .isIdle, b => b == 0x04#8
  | .reservedCmd _, b => decide (0x05#8 ≤ b)
  | .frameI _ _ _, b => b == 0x01#8
  | .frameAck _ _ _, b => b == 0x02#8
  | .frameNack _ _ _, b => b == 0x03#8
  | .frameBadHeader _ _ _ _, b => b == 0x00#8 || decide (0x04#8 ≤ b)
  | .wireDelim, b => b == 0x00#8
  | .wireCode _, b => decide (0x01#8 ≤ b) && decide (b ≤ 0xFE#8)
  | .wireCodeChain, b => b == 0xFF#8
  | .wireData _, b => decide (0x01#8 ≤ b)

/-- A well-formed instruction is encoded with a byte of its row's range. -/
def Laws.FirstByte.Statement (i : Instr) : Prop :=
  i.wellFormed = true → ∃ b, firstByte (encode i) = some b ∧ rowMatches i b = true

theorem Laws.FirstByte.construct (n m interval : Nat) : Laws.FirstByte.Statement (.construct n m interval) :=
  fun _ => ⟨_, rfl, rfl⟩

theorem Laws.FirstByte.send (p : List Byte) : Laws.FirstByte.Statement (.send p) := fun _ => ⟨_, rfl, rfl⟩

theorem Laws.FirstByte.pollTx (now : Instant) : Laws.FirstByte.Statement (.pollTx now) := fun _ => ⟨_, rfl, rfl⟩

theorem Laws.FirstByte.pollRx : Laws.FirstByte.Statement .pollRx := fun _ => ⟨_, rfl, rfl⟩

theorem Laws.FirstByte.isIdle : Laws.FirstByte.Statement .isIdle := fun _ => ⟨_, rfl, rfl⟩

theorem Laws.FirstByte.reservedCmd (code : Byte) : Laws.FirstByte.Statement (.reservedCmd code) := fun h =>
  ⟨code, rfl, by simpa [Instr.wellFormed, rowMatches, BitVec.le_def] using h⟩

theorem Laws.FirstByte.frameI (len : Byte) (p : List Byte) (crc : Word16) :
    Laws.FirstByte.Statement (.frameI len p crc) := fun _ => ⟨_, rfl, rfl⟩

theorem Laws.FirstByte.frameAck (len : Byte) (p : List Byte) (crc : Word16) :
    Laws.FirstByte.Statement (.frameAck len p crc) := fun _ => ⟨_, rfl, rfl⟩

theorem Laws.FirstByte.frameNack (len : Byte) (p : List Byte) (crc : Word16) :
    Laws.FirstByte.Statement (.frameNack len p crc) := fun _ => ⟨_, rfl, rfl⟩

theorem Laws.FirstByte.frameBadHeader (hdr len : Byte) (p : List Byte) (crc : Word16) :
    Laws.FirstByte.Statement (.frameBadHeader hdr len p crc) := fun h => by
  refine ⟨hdr, rfl, ?_⟩
  simp only [Instr.wellFormed, rowMatches, BitVec.le_def, Bool.and_eq_true, bne_iff_ne, Bool.or_eq_true,
    beq_iff_eq, decide_eq_true_eq, ne_eq, ← BitVec.toNat_inj] at h ⊢
  simp at h ⊢
  omega

theorem Laws.FirstByte.wireDelim : Laws.FirstByte.Statement .wireDelim := fun _ => ⟨_, rfl, rfl⟩

theorem Laws.FirstByte.wireCode (b : Byte) : Laws.FirstByte.Statement (.wireCode b) := fun h => by
  refine ⟨b, rfl, ?_⟩
  simp only [Instr.wellFormed, rowMatches, BitVec.le_def, Bool.and_eq_true, bne_iff_ne, decide_eq_true_eq, ne_eq,
    ← BitVec.toNat_inj] at h ⊢
  have := b.isLt
  simp at h ⊢
  omega

theorem Laws.FirstByte.wireCodeChain : Laws.FirstByte.Statement .wireCodeChain := fun _ => ⟨_, rfl, rfl⟩

theorem Laws.FirstByte.wireData (b : Byte) : Laws.FirstByte.Statement (.wireData b) := fun h => by
  refine ⟨b, rfl, ?_⟩
  simp only [Instr.wellFormed, rowMatches, BitVec.le_def, bne_iff_ne, decide_eq_true_eq, ne_eq,
    ← BitVec.toNat_inj] at h ⊢
  simp at h ⊢
  omega

end Sys2Proof
end

