-- ==== Sys2Proof/Tests/Slice0.lean ====
section
/-!
SUPPORT. Tests/Slice0.lean: the smoke test of WellFormed, words written out from the spec's encodings, vectors of
95_test_vectors.md (each test names its row), and, for every obligation with hypotheses, a concrete instance of them
(`witness_<obligation>`).
-/

namespace Sys2Proof.Tests

open Sys2Proof.Machine

/-! ### Small states -/

/-- A buffer that holds these bytes from index 0 on, and unspecified contents with this number. -/
def bufferAt (contents : Nat) (bs : List Byte) : Memory := ⟨contents, bs.zipIdx.map (fun c => (c.2, c.1))⟩

/-- A transmit buffer of `State.reset` that holds these bytes. -/
def bufferOf (bs : List Byte) : Memory := bufferAt 0 bs

/-- A receive buffer of `State.reset` that holds these bytes. -/
def rxBufferOf (bs : List Byte) : Memory := bufferAt 1 bs

/-- The I-frame of the payload `[41]` (V-FRM-3). Its wire frame is `06 01 01 41 D6 45 00`. -/
def frame41 : List Byte := [0x01#8, 0x01#8, 0x41#8, 0xD6#8, 0x45#8]

/-- The wire frame of `[41]` (V-FRM-3). -/
def wire41 : List Byte := [0x06#8, 0x01#8, 0x01#8, 0x41#8, 0xD6#8, 0x45#8, 0x00#8]

/-- After SEND `[41]`: (Sending, 1, 0), the encoder at its start. -/
def sending : State := { State.reset with txBuffer := bufferOf frame41, txLen := 1#8, txState := .sending }

/-- Program P4, step 2: three bytes accepted, encoder (2, 3, 0, DATA). -/
def midFrame : State := { sending with txCursor := 3#9, enc := ⟨2#9, 3#8, false, .data⟩ }

/-- Six bytes accepted: only the delimiter is left. -/
def lastByte : State := { sending with txCursor := 6#9, enc := ⟨5#9, 0#8, false, .delim⟩ }

/-- The whole frame accepted at 0: (AwaitingAck, 1, 0, 100). -/
def awaiting : State :=
  { sending with txState := .awaitingAck, txRetryDeadline := 100, enc := ⟨5#9, 0#8, false, .done⟩ }

/-- Inside a run of a received frame (V-DEC-1 after `08 01 03`): decoder (8, 5, 2, 0). -/
def inRun : State :=
  { State.reset with decCode := 8#8, decCnt := 5#8, rxCursor := 2, rxBuffer := rxBufferOf [0x01#8, 0x03#8] }

/-- At the end of a run (V-DEC-2 after `02 02`): decoder (2, 0, 1, 0). -/
def runEnd : State :=
  { State.reset with decCode := 2#8, decCnt := 0#8, rxCursor := 1, rxBuffer := rxBufferOf [0x02#8] }

/-- A full receive buffer of one byte, inside a run: decoder (8, 6, 1, 0) with `M = 1`. -/
def fullInRun : State := { inRun with M := 1, decCnt := 6#8, rxCursor := 1, rxBuffer := rxBufferOf [0x01#8] }

/-- A POLL_RX in progress. -/
def reading (s : State) (bytes : List Byte) : State :=
  { s with curOp := .pollRx, result := none, rxScript := bytes.map .ready }

/-- The host's next request. -/
def asking (s : State) (c : Command) : State := { s with requests := [c] }

/-! ### WellFormed: for each check an ill-formed term that it refuses -/

/-- `N >= 4` (00_scope.md R7). -/
theorem test_wellFormed_construct :
    (Instr.construct 3 16 100).wellFormed = false ∧ (Instr.construct 4 0 0).wellFormed = true := by decide

/-- Codes below `0x05` name operations (30_encoding.md R74). -/
theorem test_wellFormed_reservedCmd :
    (Instr.reservedCmd 0x04#8).wellFormed = false ∧ (Instr.reservedCmd 0x05#8).wellFormed = true := by decide

/-- The length of V-VAL-4 is wrong (its CRC is right), the CRC of V-VAL-8 is wrong, V-FRM-6 is right. -/
theorem test_wellFormed_frameI :
    (Instr.frameI 0x05#8 [0x31#8, 0x32#8, 0x33#8] 0xF01C#16).wellFormed = false ∧
    (Instr.frameI 0x03#8 [0x31#8, 0x32#8, 0x33#8] 0xBB87#16).wellFormed = false ∧
    (Instr.frameI 0x03#8 [0x31#8, 0x32#8, 0x33#8] 0xBB86#16).wellFormed = true := by decide +kernel

/-- Length, CRC (V-VAL-7), S-length (V-VAL-5), V-VAL-10. -/
theorem test_wellFormed_frameAck :
    (Instr.frameAck 0x00#8 [0x00#8] 0x3CF7#16).wellFormed = false ∧
    (Instr.frameAck 0x00#8 [] 0x3CF6#16).wellFormed = false ∧
    (Instr.frameAck 0x01#8 [0x00#8] 0x6AAC#16).wellFormed = false ∧
    (Instr.frameAck 0x00#8 [] 0x3CF7#16).wellFormed = true := by decide +kernel

/-- Length, CRC, S-length (V-VAL-6), V-VAL-10. -/
theorem test_wellFormed_frameNack :
    (Instr.frameNack 0x00#8 [0x7F#8] 0x252F#16).wellFormed = false ∧
    (Instr.frameNack 0x00#8 [] 0x252E#16).wellFormed = false ∧
    (Instr.frameNack 0x01#8 [0x7F#8] 0xBB00#16).wellFormed = false ∧
    (Instr.frameNack 0x00#8 [] 0x252F#16).wellFormed = true := by decide +kernel

/-- The three headers that have rows of their own, and their neighbours (V-VAL-2, V-VAL-3). -/
theorem test_wellFormed_frameBadHeader :
    (Instr.frameBadHeader 0x01#8 0x00#8 [] 0x169F#16).wellFormed = false ∧
    (Instr.frameBadHeader 0x02#8 0x00#8 [] 0x3CF7#16).wellFormed = false ∧
    (Instr.frameBadHeader 0x03#8 0x00#8 [] 0x252F#16).wellFormed = false ∧
    (Instr.frameBadHeader 0x00#8 0x00#8 [] 0x0F47#16).wellFormed = true ∧
    (Instr.frameBadHeader 0x04#8 0x00#8 [] 0x6827#16).wellFormed = true := by decide

/-- `0x00` is the delimiter and `0xFF` the chain code (30_encoding.md R66, R68). -/
theorem test_wellFormed_wire :
    (Instr.wireCode 0x00#8).wellFormed = false ∧ (Instr.wireCode 0xFF#8).wellFormed = false ∧
    (Instr.wireCode 0x01#8).wellFormed = true ∧ (Instr.wireCode 0xFE#8).wellFormed = true ∧
    (Instr.wireData 0x00#8).wellFormed = false ∧ (Instr.wireData 0xFF#8).wellFormed = true := by decide

/-! ### Decoding -/

/-- Command words (30_encoding.md R73) and operands of the wrong number or kind (log entry 12). -/
theorem test_decode_commands :
    decodeCommand ⟨0x00#8, [.nat 16, .nat 8, .nat 100]⟩ = .ok (.construct 16 8 100) ∧
    decodeCommand ⟨0x01#8, [.bytes [0x31#8]]⟩ = .ok (.send [0x31#8]) ∧
    decodeCommand ⟨0x02#8, [.nat 99]⟩ = .ok (.pollTx 99) ∧
    decodeCommand ⟨0x03#8, []⟩ = .ok .pollRx ∧ decodeCommand ⟨0x04#8, []⟩ = .ok .isIdle ∧
    decodeCommand ⟨0x05#8, []⟩ = .ok (.reservedCmd 0x05#8) ∧
    decodeCommand ⟨0xFF#8, []⟩ = .ok (.reservedCmd 0xFF#8) ∧
    decodeCommand ⟨0x01#8, [.nat 1]⟩ = .error (.wrongOperands 0x01#8) ∧
    decodeCommand ⟨0x04#8, [.nat 1]⟩ = .error (.wrongOperands 0x04#8) := by decide

/-- V-FRM-3, V-VAL-10, V-VAL-2, and V-VAL-1, which has 3 bytes. -/
theorem test_decode_frames :
    decodeFrame frame41 = .ok (.frameI 0x01#8 [0x41#8] 0xD645#16) ∧
    decodeFrame [0x02#8, 0x00#8, 0x3C#8, 0xF7#8] = .ok (.frameAck 0x00#8 [] 0x3CF7#16) ∧
    decodeFrame [0x03#8, 0x00#8, 0x25#8, 0x2F#8] = .ok (.frameNack 0x00#8 [] 0x252F#16) ∧
    decodeFrame [0x04#8, 0x00#8, 0x68#8, 0x27#8] = .ok (.frameBadHeader 0x04#8 0x00#8 [] 0x6827#16) ∧
    decodeFrame [0x01#8, 0x00#8, 0x16#8] = .error .shortFrame ∧ decodeFrame [] = .error .shortFrame := by decide

/-- One byte, two classes (40_cobs.md R90): the decoder of V-DEC-2 before its second and its third byte. -/
theorem test_decode_wire :
    decodeWire (wirePos 2#8 1#8) 0x02#8 = .wireData 0x02#8 ∧ decodeWire (wirePos 2#8 0#8) 0x03#8 = .wireCode 0x03#8 ∧
    decodeWire (wirePos 0#8 0#8) 0xFF#8 = .wireCodeChain ∧ decodeWire (wirePos 2#8 1#8) 0xFF#8 = .wireData 0xFF#8 ∧
    decodeWire (wirePos 2#8 1#8) 0x00#8 = .wireDelim := by decide

/-- Words of spec/opcode_table.json, with operands of zeros (log entry 11). -/
theorem test_decode_table_words :
    decodeTableWord 8 0x00 = some (.construct 0 0 0) ∧ decodeTableWord 8 0x01 = some (.send []) ∧
    decodeTableWord 8 0x02 = some (.pollTx 0) ∧ decodeTableWord 8 0x03 = some .pollRx ∧
    decodeTableWord 8 0x04 = some .isIdle ∧ decodeTableWord 8 0x05 = some (.reservedCmd 0x05#8) := by decide

/-- SEND_WAIT expands to SEND, IS_IDLE and turns of POLL_TX, POLL_RX, IS_IDLE (30_encoding.md R76). -/
theorem test_sendWait :
    sendWait [0x41#8] [7] =
      [⟨0x01#8, [.bytes [0x41#8]]⟩, ⟨0x04#8, []⟩, ⟨0x02#8, [.nat 7]⟩, ⟨0x03#8, []⟩, ⟨0x04#8, []⟩] := by decide

/-! ### Functions -/

/-- V-CRC-6, V-CRC-8, V-CRC-10, V-CRC-15. -/
theorem test_crc :
    crc16X25 [0x01#8, 0x01#8, 0x91#8] = 0x00C8#16 ∧ crc16X25 [0x01#8, 0x02#8, 0x00#8, 0x00#8] = 0x55DD#16 ∧
    crc16X25 [] = 0x0000#16 ∧ crc16X25 [0x03#8, 0x01#8, 0x7F#8] = 0xBB00#16 := by decide +kernel

/-- V-COBS-1, V-COBS-3, V-COBS-5, V-COBS-6, V-COBS-7. -/
theorem test_cobs :
    wireFrame [] = [0x01#8, 0x00#8] ∧ wireFrame [0x00#8, 0x00#8] = [0x01#8, 0x01#8, 0x01#8, 0x00#8] ∧
    wireFrame [0x11#8, 0x00#8] = [0x02#8, 0x11#8, 0x01#8, 0x00#8] ∧
    wireFrame [0x00#8, 0x11#8] = [0x01#8, 0x02#8, 0x11#8, 0x00#8] ∧
    wireFrame [0x11#8, 0x22#8, 0x00#8, 0x33#8] = [0x03#8, 0x11#8, 0x22#8, 0x02#8, 0x33#8, 0x00#8] := by decide +kernel

/-- V-COBS-8, the chain boundary. -/
theorem test_cobs_chain :
    wireFrame (List.replicate 253 0x11#8) = 0xFE#8 :: (List.replicate 253 0x11#8 ++ [0x00#8]) ∧
    wireFrame (List.replicate 254 0x11#8) = 0xFF#8 :: (List.replicate 254 0x11#8 ++ [0x01#8, 0x00#8]) ∧
    wireFrame (List.replicate 255 0x11#8) = 0xFF#8 :: (List.replicate 254 0x11#8 ++ [0x02#8, 0x11#8, 0x00#8]) := by
  decide +kernel

/-- V-ENC-2, the registers after each byte; after the third the source's zero is skipped. -/
theorem test_encoder :
    (List.range 8).map (encAfter [0x01#8, 0x01#8, 0x00#8, 0x85#8, 0xC8#8]) =
      [⟨0#9, 0#8, false, .prefixByte⟩, ⟨0#9, 2#8, false, .data⟩, ⟨1#9, 1#8, false, .data⟩,
       ⟨3#9, 0#8, false, .prefixByte⟩, ⟨3#9, 2#8, false, .data⟩, ⟨4#9, 1#8, false, .data⟩,
       ⟨5#9, 0#8, false, .delim⟩, ⟨5#9, 0#8, false, .done⟩] := by decide +kernel

/-- Negative vectors V-CRC-16 to V-CRC-19 for `01 03 31 32 33`: the CRC is none of the excluded readings. -/
theorem test_crc_excluded :
    crc16X25 [0x01#8, 0x03#8, 0x31#8, 0x32#8, 0x33#8] ∉ [0x482C#16, 0x4479#16, 0xB7D3#16, 0x86BB#16] := by
  decide +kernel

/-- V-VAL-1 to V-VAL-8, the cause of each. -/
theorem test_validate_causes :
    validate [0x01#8, 0x00#8, 0x16#8] = .malformed .short ∧
    validate [0x04#8, 0x00#8, 0x68#8, 0x27#8] = .malformed .badHeader ∧
    validate [0x00#8, 0x00#8, 0x0F#8, 0x47#8] = .malformed .badHeader ∧
    validate [0x01#8, 0x05#8, 0x31#8, 0x32#8, 0x33#8, 0xF0#8, 0x1C#8] = .malformed .badLength ∧
    validate [0x02#8, 0x01#8, 0x00#8, 0x6A#8, 0xAC#8] = .malformed .sLength ∧
    validate [0x03#8, 0x01#8, 0x7F#8, 0xBB#8, 0x00#8] = .malformed .sLength ∧
    validate [0x02#8, 0x00#8, 0x3C#8, 0xF6#8] = .malformed .badCrc ∧
    validate [0x01#8, 0x03#8, 0x31#8, 0x32#8, 0x33#8, 0xBB#8, 0x87#8] = .malformed .badCrc := by decide +kernel

/-- A byte that nothing has written reads as its free value, in range; 20_memory.md R53. -/
theorem test_unwritten_byte :
    readByte 16 State.reset.txBuffer 15 = .ok (Config.freeByte 0 15) ∧
    readByte 16 State.reset.rxBuffer 0 = .ok (Config.freeByte 1 0) ∧
    readByte 16 State.reset.rxBuffer 16 = .error .indexOutOfRange := ⟨rfl, rfl, rfl⟩

/-! ### One step of each instruction -/

/-- V-OP-1. -/
theorem test_construct_too_short : exec (.construct 3 16 100) State.reset = .refused .txBufferTooShort := by rfl

/-- V-OP-2: `CAP = 0`. -/
theorem test_construct_four : (nextState? (exec (.construct 4 0 0) awaiting)).map cap = some 0 := by rfl

/-- V-ARQ-1 with the bytes of V-FRM-6. -/
theorem test_send :
    (nextState? (exec (.send [0x31#8, 0x32#8, 0x33#8]) State.reset)).map
      (fun t => (t.txState, t.txLen, t.txBuffer, t.result)) =
      some (.sending, 3#8, bufferOf [0x01#8, 0x03#8, 0x31#8, 0x32#8, 0x33#8, 0xBB#8, 0x86#8], some .ok) := by
  decide +kernel

/-- V-OP-5: BUSY comes before TOO_LONG, and nothing changes. -/
theorem test_send_busy :
    exec (.send (List.replicate 300 0x41#8)) awaiting = .next { awaiting with result := some .busy } := by rfl

/-- Program P4, step 6, its first write: `41` (I_CONT), with an ACK waiting. -/
theorem test_pollTx_continues :
    (nextState? (exec (.pollTx 1) { midFrame with sqValid := true, txScript := [.ready] })).map
      (fun t => (t.txWire, t.txCursor, t.enc, t.sqValid)) =
      some ([0x41#8], 4#9, ⟨3#9, 2#8, false, .data⟩, true) := by decide +kernel

/-- The deadline of 42_arq_tx.md R133: the delimiter accepted at 1000 with an interval of 50 gives 1050. -/
theorem test_pollTx_completes :
    (nextState? (exec (.pollTx 1000) { lastByte with retryInterval := 50, txScript := [.ready] })).map
      (fun t => (t.txState, t.txRetryDeadline, t.txCursor, t.result)) =
      some (.awaitingAck, 1050, 0#9, some .ok) := by decide +kernel

/-- V-OP-8 with error value 2: the error is returned and nothing else changes. -/
theorem test_pollRx_error :
    exec .pollRx { awaiting with rxScript := [.error 2] } =
      .next { awaiting with result := some (.transportError 2), rxScript := [] } := by rfl

/-- V-DEC-1, its first byte: a code byte starts a run of 7, and the POLL_RX goes on. -/
theorem test_pollRx_byte :
    exec .pollRx { State.reset with rxScript := [.ready 0x08#8] } =
      .next { State.reset with curOp := .pollRx, result := none, decCode := 8#8, decCnt := 7#8 } := by rfl

/-- V-OP-9. -/
theorem test_isIdle :
    exec .isIdle State.reset = .next { State.reset with result := some (.okBool true) } ∧
    exec .isIdle sending = .next { sending with result := some (.okBool false) } := ⟨rfl, rfl⟩

/-- V-OP-10. -/
theorem test_reservedCmd : exec (.reservedCmd 0x05#8) State.reset = .refused (.reservedCommand 0x05#8) := by rfl

/-- V-VAL-9, a valid I-frame with an empty payload. -/
theorem test_frameI_empty :
    (nextState? (exec (.frameI 0x00#8 [] 0x169F#16) (reading State.reset []))).map
      (fun t => (t.sqValid, t.sqKind, t.result, t.curOp)) =
      some (true, .ack, some (.okMessage (some [])), .none) := by decide +kernel

/-- V-VAL-8: the payload is not surfaced, a NACK is queued, the POLL_RX goes on. -/
theorem test_frameI_badCrc :
    (nextState? (exec (.frameI 0x03#8 [0x31#8, 0x32#8, 0x33#8] 0xBB87#16) (reading State.reset []))).map
      (fun t => (t.sqValid, t.sqKind, t.result, t.curOp)) = some (true, .nack, none, .pollRx) := by decide +kernel

/-- V-ARQ-4: Idle, `tx_len = 0`, and the deadline keeps its value. -/
theorem test_frameAck :
    nextState? (exec (.frameAck 0x00#8 [] 0x3CF7#16) awaiting) =
      some { awaiting with txState := .idle, txLen := 0#8 } := by decide +kernel

/-- V-ARQ-5: Sending, the encoder re-initialised. -/
theorem test_frameNack :
    nextState? (exec (.frameNack 0x00#8 [] 0x252F#16) awaiting) =
      some { awaiting with txState := .sending, enc := ⟨0#9, 0#8, false, .prefixByte⟩ } := by decide +kernel

/-- V-VAL-2: a correct CRC does not help a bad header. -/
theorem test_frameBadHeader :
    nextState? (exec (.frameBadHeader 0x04#8 0x00#8 [] 0x6827#16) awaiting) =
      some { awaiting with sqValid := true, sqKind := .nack } := by decide +kernel

/-- V-DEC-3: a stray delimiter is EMPTY and is NACKed. -/
theorem test_wireDelim_empty :
    exec .wireDelim State.reset = .next { State.reset with sqValid := true, sqKind := .nack } := by rfl

/-- V-DEC-2, its last byte, with V-ARQ-4: the completed ACK frees the sender. -/
theorem test_wireDelim_ack :
    (nextState? (exec .wireDelim { awaiting with
      decCode := 3#8, rxCursor := 4, rxBuffer := rxBufferOf [0x02#8, 0x00#8, 0x3C#8, 0xF7#8] })).map
      (fun t => (t.txState, t.decCode, t.rxCursor, t.sqValid)) = some (.idle, 0#8, 0, false) := by decide +kernel

/-- V-DEC-2, its third byte: a later code byte stores the implied zero. -/
theorem test_wireCode :
    exec (.wireCode 0x03#8) runEnd = .next { runEnd with
      decCode := 3#8, decCnt := 2#8, rxCursor := 2, rxBuffer := rxBufferOf [0x02#8, 0x00#8] } := by rfl

/-- After a run with code `0xFF` a code byte `0xFF` stores no zero (V-COBS-8, 508 bytes). -/
theorem test_wireCodeChain :
    exec .wireCodeChain { runEnd with decCode := 0xFF#8 } =
      .next { runEnd with decCode := 0xFF#8, decCnt := 254#8 } := by rfl

/-- V-DEC-1, its fourth byte. -/
theorem test_wireData :
    exec (.wireData 0x31#8) inRun = .next { inRun with
      decCnt := 4#8, rxCursor := 3, rxBuffer := rxBufferOf [0x01#8, 0x03#8, 0x31#8] } := by rfl

/-- V-DEC-10: the byte that finds `rx_cursor = M` sets the flag and is not stored. -/
theorem test_wireData_overflow :
    exec (.wireData 0x03#8) fullInRun = .next { fullInRun with rxOverflow := true, decCnt := 5#8 } := by rfl

/-! ### The invariant in each state of the sender -/

theorem inv_reset : Inv State.reset := by constructor <;> decide

theorem inv_sending : Inv sending := by constructor <;> decide +kernel

theorem inv_midFrame : Inv midFrame := by constructor <;> decide +kernel

theorem inv_lastByte : Inv lastByte := by constructor <;> decide +kernel

theorem inv_awaiting : Inv awaiting := by constructor <;> decide +kernel

/-! ### Witnesses: for each obligation with hypotheses, concrete values that meet them, clause by clause -/

/-- Clauses: `n = 3`; `n = 4`; another state with the same outside. -/
theorem witness_ConstructLeavesResetValues :
    State.reset.curOp = .none ∧ 3 < 4 ∧ 4 ≤ 4 ∧
    awaiting ≠ State.reset ∧ awaiting.curOp = .none ∧ awaiting.requests = State.reset.requests ∧
    awaiting.txWire = State.reset.txWire ∧ awaiting.txScript = State.reset.txScript ∧
    awaiting.rxScript = State.reset.rxScript ∧ awaiting.freeCount = State.reset.freeCount := by decide

theorem witness_FirstOperationsAfterConstruct :
    awaiting.curOp = .none ∧ 4 ≤ 4 ∧
    ∃ t, exec (.construct 4 0 0) { awaiting with rxScript := [.ready 0x01#8] } = .next t ∧
      0x01#8 ≠ 0#8 ∧ t.rxScript = .ready 0x01#8 :: [] := ⟨rfl, by decide, _, rfl, by decide, rfl⟩

/-- Clauses: busy; 13 bytes are too long for `N = 16`; 12 bytes, and no byte with `N = 4`; the two lengths at 255. -/
theorem witness_SendBuildsTheFrame :
    (awaiting.curOp = .none ∧ awaiting.txState ≠ .idle) ∧
    (State.reset.curOp = .none ∧ State.reset.txState = .idle ∧
      min 255 (State.reset.N - 4) < (List.replicate 13 0x41#8).length) ∧
    (4 ≤ State.reset.N ∧ (List.replicate 12 0x41#8).length ≤ min 255 (State.reset.N - 4)) ∧
    ({ State.reset with N := 4 }.txState = .idle ∧ ([] : List Byte).length ≤ min 255 (4 - 4)) ∧
    (List.replicate 255 0x41#8).length ≤ min 255 (300 - 4) ∧
    min 255 (300 - 4) < (List.replicate 256 0x41#8).length := by decide +kernel

theorem witness_IsIdleReportsTheSender : State.reset.curOp = .none ∧ awaiting.curOp = .none := by decide

theorem witness_RequestsDuringAnOperationHaveNoMove :
    (reading State.reset []).curOp ≠ .none ∧ { sending with curOp := .pollTx 0 }.curOp ≠ .none := by decide

theorem witness_ReservedCodesAreRefused :
    5 ≤ (0x05#8).toNat ∧ 5 ≤ (0xFF#8).toNat ∧
    (asking State.reset ⟨0x05#8, []⟩).txState ≠ .waitingRetry ∧ (asking State.reset ⟨0x05#8, []⟩).curOp = .none ∧
    (asking State.reset ⟨0x05#8, []⟩).requests = ⟨0x05#8, []⟩ :: [] := by decide

/-- Each operation answers next, SEND with each of its results, the polls ending and going on. -/
theorem witness_ResultsOfEachOperation :
    (∃ t, exec (.construct 4 0 0) awaiting = .next t) ∧
    (nextState? (exec (.send [0x41#8]) State.reset)).map State.result = some (some .ok) ∧
    (nextState? (exec (.send [0x41#8]) awaiting)).map State.result = some (some .busy) ∧
    (nextState? (exec (.send (List.replicate 13 0x41#8)) State.reset)).map State.result = some (some .tooLong) ∧
    (nextState? (exec (.pollTx 0) { sending with txScript := [.ready] })).map State.result = some none ∧
    (nextState? (exec (.pollTx 0) State.reset)).map State.result = some (some .ok) ∧
    (nextState? (exec (.pollTx 0) { sending with txScript := [.error 1] })).map State.result =
      some (some (.transportError 1)) ∧
    (nextState? (exec .pollRx { State.reset with rxScript := [.ready 0x01#8] })).map State.result = some none ∧
    (nextState? (exec .pollRx { State.reset with rxScript := [.wouldBlock] })).map State.result =
      some (some (.okMessage none)) ∧
    (nextState? (exec .isIdle State.reset)).map State.result = some (some (.okBool true)) := by
  refine ⟨⟨_, rfl⟩, ?_⟩
  decide +kernel

/-- Idle; and one tick before the deadline. -/
theorem witness_PollTxWithNothingToSend :
    (State.reset.curOp = .none ∧ State.reset.sIdx = 0#3 ∧ State.reset.sqValid = false ∧ State.reset.txState = .idle) ∧
    (awaiting.curOp = .none ∧ awaiting.sIdx = 0#3 ∧ awaiting.sqValid = false ∧ awaiting.txState = .awaitingAck ∧
      99 < awaiting.txRetryDeadline) := by decide

/-- The last byte of an S-frame in progress; a queued one, of an idle sender and before the first byte of an attempt. -/
theorem witness_PollTxSendsTheSFrame :
    ({ State.reset with sIdx := 5#3, txScript := [.ready] }.sIdx.toNat ≤ 5 ∧
      { State.reset with sIdx := 5#3, txScript := [.ready] }.sIdx ≠ 0#3) ∧
    ({ State.reset with sqValid := true }.sqValid = true ∧
      ¬(State.reset.txState = .sending ∧ State.reset.txCursor ≠ 0#9)) ∧
    ({ sending with sqValid := true }.sqValid = true ∧ ¬(sending.txState = .sending ∧ sending.txCursor ≠ 0#9)) ∧
    State.reset.curOp = .none ∧ sending.curOp = .none ∧ State.reset.sIdx.toNat ≤ 5 ∧
    { sending with txScript := [.ready] }.txScript = .ready :: [] := by decide

/-- The first byte, a byte in the middle, and the delimiter. -/
theorem witness_PollTxSendsTheNextWireByte :
    (Inv { sending with txScript := [.ready] } ∧ sending.sqValid = false ∧ sending.txState = .sending ∧
      txSource sending = .ok frame41 ∧ sending.txCursor.toNat + 1 < (wireFrame frame41).length) ∧
    (Inv { midFrame with txScript := [.ready] } ∧ midFrame.txCursor ≠ 0#9 ∧ midFrame.txState = .sending ∧
      txSource midFrame = .ok frame41 ∧ midFrame.txCursor.toNat + 1 < (wireFrame frame41).length) ∧
    (Inv { lastByte with txScript := [.ready] } ∧ lastByte.txCursor ≠ 0#9 ∧ lastByte.txState = .sending ∧
      txSource lastByte = .ok frame41 ∧ lastByte.txCursor.toNat + 1 = (wireFrame frame41).length) ∧
    sending.curOp = .none ∧ midFrame.curOp = .none ∧ lastByte.curOp = .none ∧
    sending.sIdx = 0#3 ∧ midFrame.sIdx = 0#3 ∧ lastByte.sIdx = 0#3 := by
  refine ⟨⟨?_, by decide +kernel⟩, ⟨?_, by decide +kernel⟩, ⟨?_, by decide +kernel⟩, by decide⟩ <;>
    constructor <;> decide +kernel

/-- At the deadline itself. -/
theorem witness_TimeoutRestartsTheAttempt :
    Inv { awaiting with txScript := [.ready] } ∧ awaiting.curOp = .none ∧ awaiting.sIdx = 0#3 ∧
    awaiting.sqValid = false ∧ awaiting.txState = .awaitingAck ∧ awaiting.txRetryDeadline ≤ 100 ∧
    txSource awaiting = .ok frame41 := by
  refine ⟨?_, by decide +kernel⟩
  constructor <;> decide +kernel

/-- Each source, and the timeout, with a refused and with a failed byte. -/
theorem witness_UnacceptedByteStaysOnOffer :
    (Inv { midFrame with txScript := [.wouldBlock] } ∧ midFrame.curOp = .none ∧
      (select 0 { midFrame with txScript := [.wouldBlock] }).1 = some .iCont) ∧
    (Inv { sending with txScript := [.error 1] } ∧ sending.curOp = .none ∧
      (select 0 { sending with txScript := [.error 1] }).1 = some .iStart) ∧
    (Inv { State.reset with sqValid := true, txScript := [.wouldBlock] } ∧
      (select 0 { State.reset with sqValid := true, txScript := [.wouldBlock] }).1 = some .sStart) ∧
    (Inv { State.reset with sIdx := 5#3, txScript := [.error 1] } ∧
      (select 0 { State.reset with sIdx := 5#3, txScript := [.error 1] }).1 = some .sCont) ∧
    (Inv { awaiting with txScript := [.wouldBlock] } ∧ awaiting.txState = .awaitingAck ∧
      awaiting.txRetryDeadline ≤ 100 ∧ (select 100 { awaiting with txScript := [.wouldBlock] }).1 = some .iStart) := by
  refine ⟨⟨?_, by decide +kernel⟩, ⟨?_, by decide +kernel⟩, ⟨?_, by decide +kernel⟩, ⟨?_, by decide +kernel⟩,
    ⟨?_, by decide +kernel⟩⟩ <;> constructor <;> decide +kernel

theorem witness_AttemptEmitsTheWireFrame :
    Inv { sending with curOp := .pollTx 0, result := none, txScript := List.replicate 7 .ready } ∧
    { sending with curOp := .pollTx 0 }.curOp = .pollTx 0 ∧ sending.sIdx = 0#3 ∧ sending.sqValid = false ∧
    sending.txState = .sending ∧ sending.txCursor = 0#9 ∧ txSource sending = .ok frame41 ∧
    { sending with txScript := List.replicate 7 .ready }.txScript =
      List.replicate (wireFrame frame41).length .ready ++ [] := by
  refine ⟨?_, by decide +kernel⟩
  constructor <;> decide +kernel

/-- Each state of the sender. -/
theorem witness_PollTxAlwaysEnds :
    Inv (asking State.reset ⟨0x02#8, [.nat 0]⟩) ∧ Inv (asking midFrame ⟨0x02#8, [.nat 0]⟩) ∧
    Inv (asking awaiting ⟨0x02#8, [.nat 100]⟩) ∧ State.reset.curOp = .none ∧ midFrame.curOp = .none ∧
    awaiting.curOp = .none ∧ (asking awaiting ⟨0x02#8, [.nat 100]⟩).requests = ⟨0x02#8, [.nat 100]⟩ :: [] := by
  refine ⟨?_, ?_, ?_, by decide⟩ <;> constructor <;> decide +kernel

/-- The last index of a buffer, a byte that is not written, and the first index past the end. -/
theorem witness_BufferAccess :
    15 < 16 ∧ State.reset.txBuffer.written 15 = false ∧ (bufferOf frame41).written 5 = false ∧ 16 ≤ 16 := by decide

/-- States in which the block holds a frame, reads one and has a payload to send; a step that answers next and one that
is refused. -/
theorem witness_UnspecifiedBytesAreNeverRead :
    (Inv (asking midFrame ⟨0x02#8, [.nat 0]⟩) ∧ Inv (reading inRun [0x31#8]) ∧ Inv State.reset) ∧
    (nextState? (step (reading inRun [0x31#8]))).isSome = true ∧
    (nextState? (exec (.send [0x41#8]) State.reset)).isSome = true ∧
    step (asking midFrame ⟨0x05#8, []⟩) = .refused (.reservedCommand 0x05#8) ∧
    exec (.construct 3 16 100) midFrame = .refused .txBufferTooShort ∧
    (midFrame.withContents 7 8).txBuffer ≠ midFrame.txBuffer := by
  refine ⟨⟨?_, ?_, inv_reset⟩, by decide +kernel, by decide +kernel, rfl, rfl, by decide⟩ <;>
    constructor <;> decide +kernel

/-- The shortest and the longest source, and the first and the last byte of each. -/
theorem witness_StreamingEncoderMeetsCobs :
    (([] : List Byte).length ≤ 259 ∧ (cobsEncode [] ++ [0x00#8])[0]? = some 0x01#8 ∧
      (cobsEncode [] ++ [0x00#8])[1]? = some 0x00#8) ∧
    ((List.replicate 259 0x11#8).length ≤ 259 ∧
      (cobsEncode (List.replicate 259 0x11#8) ++ [0x00#8])[0]? = some 0xFF#8 ∧
      (cobsEncode (List.replicate 259 0x11#8) ++ [0x00#8])[261]? = some 0x00#8) := by decide +kernel

/-- The empty frame, with no buffer at all, and a frame that fills the buffer. -/
theorem witness_DecoderInvertsCobs :
    decoderAtStart State.reset ∧ ([] : List Byte).length ≤ { State.reset with M := 0 }.M ∧
    decoderAtStart { State.reset with M := 0 } ∧ frame41.length ≤ { State.reset with M := 5 }.M ∧
    decoderAtStart { State.reset with M := 5 } := by
  refine ⟨?_, by decide, ?_, by decide, ?_⟩ <;> exact ⟨rfl, rfl, rfl, rfl⟩

/-- The lengths at both ends of the range. -/
theorem witness_WireFrameLength :
    4 ≤ (List.replicate 4 0x11#8).length ∧ (List.replicate 4 0x11#8).length ≤ 259 ∧
    4 ≤ (List.replicate 259 0x11#8).length ∧ (List.replicate 259 0x11#8).length ≤ 259 := by decide +kernel

/-- Clauses: after a `0xFF` run; after a shorter run, with the last place of the buffer free. -/
theorem witness_DecoderAcceptsNonCanonicalEnds :
    ({ runEnd with decCode := 0xFF#8 }.decCnt = 0#8 ∧ { runEnd with decCode := 0xFF#8 }.decCode = 0xFF#8) ∧
    (runEnd.decCnt = 0#8 ∧ runEnd.decCode ≠ 0x00#8 ∧ runEnd.decCode ≠ 0xFF#8 ∧ runEnd.rxOverflow = false ∧
      { runEnd with M := 2 }.rxCursor < { runEnd with M := 2 }.M) := by decide

/-- Each answer of the transport. -/
theorem witness_PollRxReadsOneByte :
    State.reset.curOp = .none ∧ { State.reset with rxScript := [.wouldBlock] }.rxScript = .wouldBlock :: [] ∧
    { State.reset with rxScript := [.error 0] }.rxScript = .error 0 :: [] ∧
    { State.reset with rxScript := [.ready 0x00#8] }.rxScript = .ready 0x00#8 :: [] := by decide

/-- Clauses: empty; truncated with one byte due; overflow; complete with 3 and with 4 bytes. -/
theorem witness_DelimiterEndsTheFrame :
    State.reset.decCode = 0#8 ∧
    ({ inRun with decCnt := 1#8 }.decCode ≠ 0#8 ∧ { inRun with decCnt := 1#8 }.decCnt ≠ 0#8) ∧
    (runEnd.decCode ≠ 0#8 ∧ runEnd.decCnt = 0#8 ∧ { runEnd with M := 1, rxOverflow := true }.rxOverflow = true) ∧
    (runEnd.rxOverflow = false ∧ readBytes 16 (bufferOf [0x01#8, 0x00#8, 0x16#8]) 0 3 = .ok [0x01#8, 0x00#8, 0x16#8] ∧
      [0x01#8, 0x00#8, 0x16#8].length < 4) ∧
    (readBytes 4 (bufferOf [0x02#8, 0x00#8, 0x3C#8, 0xF7#8]) 0 4 = .ok [0x02#8, 0x00#8, 0x3C#8, 0xF7#8] ∧
      decodeFrame [0x02#8, 0x00#8, 0x3C#8, 0xF7#8] = .ok (.frameAck 0x00#8 [] 0x3CF7#16)) := by decide

theorem witness_FirstCodeByteStartsARun : State.reset.decCode = 0#8 ∧ 0x01#8 ≠ 0#8 ∧ 0xFE#8 ≠ 0#8 := by decide

/-- Clauses: dropped; the flag set at `rx_cursor = M`; stored in the last place; out of range. -/
theorem witness_DataByteIsStored :
    0x01#8 ≠ 0#8 ∧ inRun.decCode ≠ 0#8 ∧ inRun.decCnt ≠ 0#8 ∧ fullInRun.decCode ≠ 0#8 ∧ fullInRun.decCnt ≠ 0#8 ∧
    { fullInRun with rxOverflow := true }.rxOverflow = true ∧
    (fullInRun.rxOverflow = false ∧ fullInRun.rxCursor = fullInRun.M) ∧
    (inRun.rxOverflow = false ∧ { inRun with M := 3 }.rxCursor < { inRun with M := 3 }.M) ∧
    (inRun.rxOverflow = false ∧ { inRun with M := 1 }.M < { inRun with M := 1 }.rxCursor) := by decide

/-- Clauses: after a `0xFF` run; dropped; the flag set; stored in the last place; out of range. -/
theorem witness_LaterCodeByteRestoresTheZero :
    0x01#8 ≠ 0#8 ∧ (Instr.wireCode 0x01#8 = .wireCode 0x01#8 ∨ (Instr.wireCode 0x01#8 = .wireCodeChain ∧ 0x01#8 = 0xFF#8)) ∧
    (Instr.wireCodeChain = .wireCode 0xFF#8 ∨ (Instr.wireCodeChain = .wireCodeChain ∧ 0xFF#8 = 0xFF#8)) ∧ 0xFF#8 ≠ 0#8 ∧
    runEnd.decCode ≠ 0#8 ∧ runEnd.decCnt = 0#8 ∧
    { runEnd with decCode := 0xFF#8 }.decCode = 0xFF#8 ∧
    (runEnd.decCode ≠ 0xFF#8 ∧ { runEnd with M := 1, rxOverflow := true }.rxOverflow = true) ∧
    (runEnd.rxOverflow = false ∧ { runEnd with M := 1 }.rxCursor = { runEnd with M := 1 }.M) ∧
    (runEnd.rxOverflow = false ∧ { runEnd with M := 2 }.rxCursor < { runEnd with M := 2 }.M) ∧
    (runEnd.rxOverflow = false ∧ { runEnd with M := 0 }.M < { runEnd with M := 0 }.rxCursor) := by decide

/-- One stray delimiter, and three. -/
theorem witness_PollRxMayGoOnForEver :
    decoderAtStart (reading State.reset [0x00#8]) ∧ (reading State.reset [0x00#8]).txState ≠ .waitingRetry ∧
    (reading State.reset [0x00#8]).curOp = .pollRx ∧
    (reading State.reset [0x00#8]).rxScript = List.replicate (0 + 1) (.ready 0x00#8) ++ [] ∧
    (reading State.reset [0x00#8, 0x00#8, 0x00#8]).rxScript = List.replicate (2 + 1) (.ready 0x00#8) ++ [] :=
  ⟨⟨rfl, rfl, rfl, rfl⟩, by decide⟩

/-- The empty payload with the smallest buffer, and the longest one. -/
theorem witness_IFrameIsAckedAndReturned :
    (([] : List Byte).length ≤ 255 ∧ ([] : List Byte).length + 4 ≤ { State.reset with M := 4 }.M) ∧
    ((List.replicate 255 0x41#8).length ≤ 255 ∧
      (List.replicate 255 0x41#8).length + 4 ≤ { State.reset with M := 259 }.M) := by decide +kernel

theorem witness_AckFreesTheSender :
    4 ≤ { awaiting with M := 4 }.M ∧ { awaiting with M := 4 }.txState = .awaitingAck ∧
    4 ≤ midFrame.M ∧ midFrame.txState ≠ .awaitingAck ∧ State.reset.txState ≠ .awaitingAck := by decide

theorem witness_NackRestartsTheAttempt :
    4 ≤ { awaiting with M := 4 }.M ∧ { awaiting with M := 4 }.txState = .awaitingAck ∧
    4 ≤ midFrame.M ∧ midFrame.txState ≠ .awaitingAck ∧ State.reset.txState ≠ .awaitingAck := by decide

/-- Clauses (a) to (h). -/
theorem witness_MalformedFramesQueueANack :
    State.reset.decCode = 0#8 ∧
    ({ inRun with decCnt := 1#8 }.decCode ≠ 0#8 ∧ { inRun with decCnt := 1#8 }.decCnt ≠ 0#8) ∧
    (runEnd.decCode ≠ 0#8 ∧ runEnd.decCnt = 0#8 ∧ { runEnd with M := 1, rxOverflow := true }.rxOverflow = true) ∧
    { State.reset with M := 4 }.M < [0x41#8].length + 4 ∧
    (runEnd.rxOverflow = false ∧ { runEnd with rxCursor := 3 }.rxCursor < 4 ∧
      { runEnd with M := 3, rxCursor := 3 }.rxCursor ≤ { runEnd with M := 3, rxCursor := 3 }.M) ∧
    (0x00#8 ≠ 0x01#8 ∧ 0x00#8 ≠ 0x02#8 ∧ 0x00#8 ≠ 0x03#8 ∧ 0x04#8 ≠ 0x01#8 ∧ 0x04#8 ≠ 0x02#8 ∧ 0x04#8 ≠ 0x03#8) ∧
    [0x31#8, 0x32#8, 0x33#8].length ≠ (0x05#8).toNat ∧
    crc16X25 [0x02#8, 0x00#8] ≠ 0x3CF6#16 ∧ 0x01#8 ≠ 0#8 := by decide +kernel

/-- V-VAL-8, whose CRC is one bit off, and the longest payload. -/
theorem witness_SentFramesValidate :
    validate (0x01#8 :: 0x03#8 :: ([0x31#8, 0x32#8, 0x33#8] ++ [0xBB#8, 0x87#8])) = .malformed .badCrc ∧
    crc16X25 (0x01#8 :: 0x03#8 :: [0x31#8, 0x32#8, 0x33#8]) ≠ 0xBB#8 ++ 0x87#8 ∧
    (List.replicate 255 0x41#8).length ≤ 255 := by decide +kernel

/-- A step of POLL_RX with each of the three effects, and a valid ACK and NACK with `M = 4`. -/
theorem witness_ReceivePathQueuesOnlyAnswers :
    (reading State.reset [0x08#8]).curOp = .pollRx ∧
    (nextState? (step (reading State.reset [0x08#8]))).map State.sqValid = some false ∧
    (nextState? (step (reading { runEnd with
      decCode := 6#8, rxCursor := 5, rxBuffer := rxBufferOf frame41 } [0x00#8]))).map State.sqKind = some .ack ∧
    (nextState? (step (reading State.reset [0x00#8]))).map State.sqKind = some .nack ∧
    4 ≤ { awaiting with M := 4 }.M ∧
    (nextState? (exec (.frameAck 0x00#8 [] 0x3CF7#16) { awaiting with M := 4 })).map State.txState = some .idle ∧
    (nextState? (exec (.frameNack 0x00#8 [] 0x252F#16) { awaiting with M := 4 })).map State.txState =
      some .sending := by decide +kernel

/-- The payload `[41]` with a buffer that it fills. -/
theorem witness_WireFrameIsDelivered :
    decoderAtStart (reading { State.reset with M := 5 } wire41) ∧ [0x41#8].length ≤ 255 ∧
    [0x41#8].length + 4 ≤ (reading { State.reset with M := 5 } wire41).M ∧
    (reading State.reset wire41).txState ≠ .waitingRetry ∧ (reading State.reset wire41).curOp = .pollRx ∧
    (reading State.reset wire41).rxScript = (wireFrame (iFrame [0x41#8])).map .ready ++ [] :=
  ⟨⟨rfl, rfl, rfl, rfl⟩, by decide +kernel⟩

/-- Two peers as `State.reset` has them with 12 bytes, and the empty payload with the smallest buffers. -/
theorem witness_LosslessExchangeCompletes :
    Inv State.reset ∧ decoderAtStart State.reset ∧ State.reset.curOp = .none ∧ State.reset.txState = .idle ∧
    State.reset.sIdx = 0#3 ∧ State.reset.sqValid = false ∧ 4 ≤ State.reset.M ∧
    (List.replicate 12 0x41#8).length ≤ min 255 (State.reset.N - 4) ∧
    (List.replicate 12 0x41#8).length + 4 ≤ State.reset.M ∧
    Inv { State.reset with N := 4, M := 4 } ∧ ([] : List Byte).length ≤ min 255 (4 - 4) ∧
    ([] : List Byte).length + 4 ≤ 4 := by
  refine ⟨inv_reset, ⟨rfl, rfl, rfl, rfl⟩, rfl, rfl, rfl, rfl, by decide, by decide, by decide, ?_, by decide, by decide⟩
  constructor <;> decide

/-- Clauses: a request; one that does not decode; none; a byte read; each poll going on. -/
theorem witness_StepRunsTheDecodedInstruction :
    State.reset.txState ≠ .waitingRetry ∧ State.reset.curOp = .none ∧
    (asking State.reset ⟨0x04#8, []⟩).requests = ⟨0x04#8, []⟩ :: [] ∧ decodeCommand ⟨0x04#8, []⟩ = .ok .isIdle ∧
    decodeCommand ⟨0x04#8, [.nat 1]⟩ = .error (.wrongOperands 0x04#8) ∧ State.reset.requests = [] ∧
    (reading State.reset [0x08#8]).curOp = .pollRx ∧
    (reading State.reset [0x08#8]).rxScript = .ready 0x08#8 :: [] ∧ (reading State.reset []).result = none ∧
    { midFrame with curOp := .pollTx 0, result := none }.curOp = .pollTx 0 := by decide

theorem witness_FetchWordIsRun :
    State.reset.txState ≠ .waitingRetry ∧ decodeTableWord 8 0x04 = some .isIdle ∧
    decodeTableWord 8 0xFF = some (.reservedCmd 0xFF#8) := by decide

/-- A step of each poll and of IS_IDLE. -/
theorem witness_OnlyPollsTouchTheTransport :
    (nextState? (step { midFrame with curOp := .pollTx 0, result := none, txScript := [.ready] })).map
      State.txWire = some [0x41#8] ∧
    (nextState? (step (reading State.reset [0x08#8]))).map State.rxScript = some [] ∧
    (nextState? (step (asking State.reset ⟨0x04#8, []⟩))).map State.result = some (some (.okBool true)) ∧
    stepOp (asking State.reset ⟨0x04#8, []⟩) = some .isIdle := by decide +kernel

/-- A step of SEND, of POLL_RX and of neither. -/
theorem witness_BuffersAndConfigurationHaveOneWriter :
    (nextState? (step (asking State.reset ⟨0x01#8, [.bytes [0x41#8]]⟩))).map State.txBuffer =
      some (bufferOf frame41) ∧
    stepOp (asking State.reset ⟨0x01#8, [.bytes [0x41#8]]⟩) = some (.send [0x41#8]) ∧
    (nextState? (step (reading inRun [0x31#8]))).map State.rxBuffer = some (rxBufferOf [0x01#8, 0x03#8, 0x31#8]) ∧
    stepOp (reading inRun [0x31#8]) = some .pollRx ∧
    (nextState? (step (asking State.reset ⟨0x04#8, []⟩))).isSome = true := by decide +kernel

/-- Each change of the sender's state. -/
theorem witness_SenderStateChangesAsListed :
    (nextState? (step (asking State.reset ⟨0x01#8, [.bytes [0x41#8]]⟩))).map State.txState = some .sending ∧
    (nextState? (step { lastByte with curOp := .pollTx 0, result := none, txScript := [.ready] })).map
      State.txState = some .awaitingAck ∧
    (nextState? (step { awaiting with curOp := .pollTx 100, result := none, txScript := [.ready] })).map
      State.txState = some .sending ∧
    (nextState? (step (reading { awaiting with
      decCode := 3#8, rxCursor := 4, rxBuffer := rxBufferOf [0x02#8, 0x00#8, 0x3C#8, 0xF7#8] } [0x00#8]))).map
      State.txState = some .idle ∧
    (nextState? (step (reading { awaiting with
      decCode := 3#8, rxCursor := 4, rxBuffer := rxBufferOf [0x03#8, 0x00#8, 0x25#8, 0x2F#8] } [0x00#8]))).map
      State.txState = some .sending := by decide +kernel

/-- CONSTRUCT makes a sender idle whatever it was doing. -/
theorem witness_SenderStateChangesAsListed_construct :
    ∃ t, step (asking awaiting ⟨0x00#8, [.nat 4, .nat 0, .nat 0]⟩) = .next t ∧ t.txState ≠ awaiting.txState :=
  ⟨_, rfl, by decide⟩

/-- A step from each state of the sender, and one with the overflow flag set before and after it. -/
theorem witness_StepKeepsTheInvariant :
    (Inv State.reset ∧ ∃ t, step State.reset = .next t) ∧ Inv midFrame ∧ Inv awaiting ∧
    Inv (reading { fullInRun with rxOverflow := true } [0x31#8]) ∧
    (nextState? (step (reading { fullInRun with rxOverflow := true } [0x31#8]))).map State.rxOverflow = some true := by
  refine ⟨⟨inv_reset, _, rfl⟩, inv_midFrame, inv_awaiting, ?_, by decide +kernel⟩
  constructor <;> decide +kernel

theorem witness_NothingFaultsWhereTheInvariantHolds :
    Inv State.reset ∧ Inv sending ∧ Inv midFrame ∧ Inv lastByte ∧ Inv awaiting :=
  ⟨inv_reset, inv_sending, inv_midFrame, inv_lastByte, inv_awaiting⟩

/-- For each clause: the invariant, no operation in progress, `n = 4`; and with a POLL_RX in progress. -/
theorem witness_EveryInstructionCompletes :
    (Inv State.reset ∧ State.reset.curOp = .none ∧ 4 ≤ 4) ∧ (Inv awaiting ∧ awaiting.curOp = .none) ∧
    Inv (reading inRun [0x31#8]) := by
  refine ⟨⟨inv_reset, by decide⟩, ⟨inv_awaiting, by decide⟩, ?_⟩
  constructor <;> decide +kernel

/-- A well-formed instruction of each row that has a condition. -/
theorem witness_DecodeOfEncode :
    (Instr.construct 4 0 0).wellFormed = true ∧ (Instr.reservedCmd 0xFF#8).wellFormed = true ∧
    (Instr.frameI 0x00#8 [] 0x169F#16).wellFormed = true ∧ (Instr.frameAck 0x00#8 [] 0x3CF7#16).wellFormed = true ∧
    (Instr.frameNack 0x00#8 [] 0x252F#16).wellFormed = true ∧
    (Instr.frameBadHeader 0xFF#8 0x00#8 [] 0x0000#16).wellFormed = true ∧
    (Instr.wireCode 0xFE#8).wellFormed = true ∧ (Instr.wireData 0xFF#8).wellFormed = true := by decide +kernel

/-- Each of the three cases. -/
theorem witness_EncodeOfDecode :
    decode (.frame frame41) = .ok (.frameI 0x01#8 [0x41#8] 0xD645#16) ∧
    decode (.command ⟨0x05#8, [.nat 1]⟩) = .ok (.reservedCmd 0x05#8) ∧
    decode (.wire .dataDue 0x00#8) = .ok .wireDelim := by decide

end Sys2Proof.Tests
end

namespace Sys2Proof.Machine

/-! ## The streaming encoder emits the wire frame (40_cobs.md R85 to R87) -/

/-- From `e` on, the encoder offers these bytes one after the other. -/
def Emits (S : List Byte) (e : Encoder) (bs : List Byte) : Prop :=
  ∀ j b, bs[j]? = some b → encPeek S (encFrom S e j) = .ok b

theorem Emits.append {S : List Byte} {e : Encoder} {xs ys : List Byte} (hx : Emits S e xs)
    (hy : Emits S (encFrom S e xs.length) ys) : Emits S e (xs ++ ys) := by
  intro j b hj
  by_cases hlt : j < xs.length
  · exact hx j b (by rwa [List.getElem?_append_left hlt] at hj)
  · have hy' := hy (j - xs.length) b (by rwa [List.getElem?_append_right (by omega)] at hj)
    rwa [← encFrom_add, show xs.length + (j - xs.length) = j by omega] at hy'

/-- In DELIM the delimiter is offered, and then the attempt is over. -/
theorem emits_delimiter (S : List Byte) (e : Encoder) (h : e.phase = .delim) :
    Emits S e [0x00#8] ∧ (encFrom S e 1).phase = .done := by
  refine ⟨fun j b hj => ?_, by simp [encFrom, encAdvance, h]⟩
  obtain ⟨rfl, rfl⟩ : j = 0 ∧ b = 0x00#8 := by cases j <;> simp_all
  simp [encFrom, encPeek, h]

/-- From the start of any run on, the encoder offers the encoding of what is left of its source, then the delimiter,
and then it is DONE. -/
theorem emits_runs (S : List Byte) (hS : S.length ≤ 259) {F out : List Byte} (runs : Runs F out) :
    ∀ (p : Nat) (e : Encoder), e.phase = .prefixByte → e.pos.toNat = p → p ≤ S.length → S.drop p = F →
      Emits S e (out ++ [0x00#8]) ∧ (encFrom S e (out ++ [0x00#8]).length).phase = .done := by
  induction runs with
  | last r nonZero short =>
    intro p e hphase hpos hp hdrop
    obtain ⟨hrun, q, e', hq, -, hend⟩ :=
      encFrom_run S r [] p e hS hphase hpos hp (by simpa using hdrop) nonZero (by omega) (.inr (.inl rfl))
    have hlen : q.toNat = S.length := by
      have := congrArg List.length hdrop
      simp only [List.length_drop] at this
      omega
    have hdelim : (encFrom S e (r.length + 1)).phase = .delim := by
      simp [hend, afterRun, hlen, show r.length ≠ 254 by omega]
    obtain ⟨hd1, hd2⟩ := emits_delimiter S _ hdelim
    exact ⟨Emits.append hrun hd1, by rw [List.length_append, encFrom_add]; exact hd2⟩
  | chain r F out nonZero full rest ih =>
    intro p e hphase hpos hp hdrop
    obtain ⟨hrun, q, e', hq, hpos', hend⟩ :=
      encFrom_run S r F p e hS hphase hpos hp hdrop nonZero (by omega) (.inl full)
    have hlen := congrArg List.length hdrop
    simp only [List.length_drop, List.length_append] at hlen
    have hnext : encFrom S e (r.length + 1) = { e' with phase := .prefixByte } := by
      rw [hend]; simp [afterRun, full]
    obtain ⟨h1, h2⟩ := ih (p + r.length) (encFrom S e (r.length + 1)) (by rw [hnext])
      (by rw [hnext, ← hq, ← hpos']) (by omega) (by rw [← List.drop_drop, hdrop, List.drop_left])
    rw [full, show codeByte 254 = 0xFF#8 from rfl] at hrun
    rw [← List.cons_append, List.append_assoc]
    exact ⟨Emits.append hrun h1, by rw [List.length_append, encFrom_add]; exact h2⟩
  | zero r F out nonZero short rest ih =>
    intro p e hphase hpos hp hdrop
    obtain ⟨hrun, q, e', hq, hpos', hend⟩ :=
      encFrom_run S r (0x00#8 :: F) p e hS hphase hpos hp hdrop nonZero (by omega) (.inr (.inr ⟨F, rfl⟩))
    have hlen := congrArg List.length hdrop
    simp only [List.length_drop, List.length_append, List.length_cons] at hlen
    have hnext : encFrom S e (r.length + 1) = { e' with pos := q + 1#9, phase := .prefixByte } := by
      simp [hend, afterRun, show r.length ≠ 254 by omega, show q.toNat ≠ S.length by omega]
    have hrest : S.drop (p + r.length + 1) = F := by
      rw [Nat.add_assoc, ← List.drop_drop, hdrop, ← List.drop_drop, List.drop_left, List.drop_one, List.tail_cons]
    obtain ⟨h1, h2⟩ := ih (p + r.length + 1) (encFrom S e (r.length + 1)) (by rw [hnext])
      (by rw [hnext]; simp only [BitVec.toNat_add, hq]; simp; omega) (by omega) hrest
    rw [← List.cons_append, List.append_assoc]
    exact ⟨Emits.append hrun h1, by rw [List.length_append, encFrom_add]; exact h2⟩

/-- From `enc_init` on, the encoder offers its source's wire frame, and then it is DONE (40_cobs.md R87). -/
theorem emits_wireFrame (S : List Byte) (hS : S.length ≤ 259) :
    Emits S Encoder.init (wireFrame S) ∧ (encAfter S (wireFrame S).length).phase = .done := by
  rw [encAfter_eq_encFrom]
  exact emits_runs S hS (cobsEncode_runs S) 0 Encoder.init rfl rfl (by omega) rfl

theorem encPeek_encAfter (S : List Byte) (hS : S.length ≤ 259) (k : Nat) (hk : k < (wireFrame S).length) :
    encPeek S (encAfter S k) = .ok (wireFrame S)[k] := by
  rw [encAfter_eq_encFrom]
  exact (emits_wireFrame S hS).1 k _ (List.getElem?_eq_getElem hk)

/-- A run encoding adds less than one code byte for every 254 bytes, and one more. -/
theorem Runs.length_le {F out : List Byte} (runs : Runs F out) : 254 * out.length ≤ 255 * F.length + 254 := by
  induction runs with
  | last r nonZero short => simp only [List.length_cons]; omega
  | chain r F out nonZero full rest ih => simp only [List.length_cons, List.length_append]; omega
  | zero r F out nonZero short rest ih => simp only [List.length_cons, List.length_append]; omega

/-- The wire frame of a frame that `tx_buffer` can hold is short enough for `tx_cursor`. -/
theorem wireFrame_length_le (S : List Byte) (hS : S.length ≤ 259) : (wireFrame S).length ≤ 262 := by
  have := (cobsEncode_runs S).length_le
  simp only [wireFrame, List.length_append, List.length_singleton]
  omega

theorem wireFrame_length_pos (S : List Byte) : 0 < (wireFrame S).length := by simp [wireFrame]

end Sys2Proof.Machine

namespace Sys2Proof.Machine

/-! ## What keeps the invariant: one rule for each update of the state (10_state.md R37) -/

/-! ### CONSTRUCT and reset -/

/-- A state whose registers hold the reset values of 10_state.md R41, with nothing written to its buffers. -/
theorem Inv.of_resetRegisters {s : State} {u v : Nat} (hN : 4 ≤ s.N) (htx : s.txBuffer = Memory.fresh u)
    (hlen : s.txLen = 0#8) (hidle : s.txState = .idle) (hcursor : s.txCursor = 0#9) (hidx : s.sIdx = 0#3)
    (hrx : s.rxBuffer = Memory.fresh v) (hdec : decoderAtStart s) (hop : s.curOp = .none) : Inv s := by
  obtain ⟨hcode, hcnt, hrxCursor, hoverflow⟩ := hdec
  constructor <;> simp [Memory.writtenBelow_iff, *]

theorem Inv.constructed (s : State) {n : Nat} (m interval : Nat) (hn : 4 ≤ n) :
    Inv (Machine.constructed n m interval s) :=
  .of_resetRegisters hn rfl rfl rfl rfl rfl rfl ⟨rfl, rfl, rfl, rfl⟩ rfl

/-! ### Updates that the invariant does not see -/

theorem Inv.withRequests {s : State} (h : Inv s) (rest : List Command) : Inv { s with requests := rest } := { h with }

theorem Inv.putOnWire {s : State} (h : Inv s) (b : Byte) : Inv (Machine.putOnWire b s) := { h with }

theorem Inv.sqPut {s : State} (h : Inv s) (k : SKind) : Inv (Machine.sqPut k s) := { h with }

theorem Inv.drawTx {s s' : State} {r : TxResponse} (h : Inv s) (hdraw : drawTx s = (r, s')) : Inv s' := by
  rcases drawTx_next s s' r hdraw with ⟨rest, -, rfl⟩ | ⟨-, rfl⟩
  · exact { h with }
  · exact { h with }

theorem Inv.drawRx {s s' : State} {r : RxResponse} (h : Inv s) (hdraw : drawRx s = (r, s')) : Inv s' := by
  rcases drawRx_cases s with ⟨r', rest, -, e⟩ | ⟨-, e⟩ <;> obtain ⟨-, rfl⟩ := Prod.mk.inj (e.symm.trans hdraw)
  · exact { h with }
  · exact { h with }

/-! ### The sender -/

/-- The encoder's source has a readable value, no longer than the longest I-frame. -/
theorem Inv.source {s : State} (h : Inv s) : ∃ S, txSource s = .ok S ∧ S.length ≤ 259 := by
  refine ⟨_, h.readSource, ?_⟩
  have := s.txLen.isLt
  simp only [List.length_map, List.length_range', txSourceLen]
  omega

theorem encoderInStep_iff {s : State} {S : List Byte} (hS : txSource s = .ok S) :
    encoderInStep s = true ↔ s.enc = encAfter S s.txCursor.toNat ∧ s.txCursor.toNat < (wireFrame S).length := by
  simp [encoderInStep, hS]

theorem holdsIFrame_iff {s : State} {S : List Byte} (hS : txSource s = .ok S) :
    holdsIFrame s = true ↔ S = iFrame ((S.drop 2).take s.txLen.toNat) := by
  simp [holdsIFrame, hS]

/-- While Sending, the encoder stands inside the wire frame of its source, where `tx_cursor` says. -/
theorem Inv.encoder {s : State} (h : Inv s) (hs : s.txState = .sending) :
    ∃ S, txSource s = .ok S ∧ S.length ≤ 259 ∧ s.enc = encAfter S s.txCursor.toNat ∧
      s.txCursor.toNat < (wireFrame S).length := by
  obtain ⟨S, hS, hlen⟩ := h.source
  exact ⟨S, hS, hlen, (encoderInStep_iff hS).1 (h.encoderTracks hs)⟩

/-- A new attempt for the frame held, by a timeout or a NACK (42_arq_tx.md R121, R136). -/
theorem Inv.timeout {s : State} (h : Inv s) (hs : s.txState ≠ .idle) : Inv (Machine.timeout s) := by
  obtain ⟨S, hS, -⟩ := h.source
  have hS' : txSource (Machine.timeout s) = .ok S := hS
  exact { h with
    idleHasNoLength := by simp
    cursorOnlySending := by simp
    oneFrameInProgress := by simp
    neverWaitingRetry := by simp
    holdsFrame := fun _ => h.holdsFrame hs
    frameWritten := fun _ => h.frameWritten hs
    encoderTracks := fun _ => (encoderInStep_iff hS').2 ⟨rfl, wireFrame_length_pos S⟩ }

/-- The end of an attempt (42_arq_tx.md R133), whatever the encoder was left at. -/
theorem Inv.attemptComplete {s : State} (h : Inv s) (hs : s.txState = .sending) (now : Instant) (e : Encoder)
    (c : BitVec 9) : Inv (Machine.attemptComplete now { s with enc := e, txCursor := c }) :=
  { h with
    idleHasNoLength := by simp
    cursorOnlySending := by simp
    oneFrameInProgress := by simp
    neverWaitingRetry := by simp
    holdsFrame := fun _ => h.holdsFrame (by simp [hs])
    frameWritten := fun _ => h.frameWritten (by simp [hs])
    encoderTracks := by simp }

/-- The I-frame byte on offer can be accepted: the attempt goes on or is complete (42_arq_tx.md R132, R133). -/
theorem Inv.acceptI {s : State} (h : Inv s) (hs : s.txState = .sending) (hidx : s.sIdx = 0#3) (now : Instant) :
    ∃ t, Machine.acceptI now s = .ok t ∧ Inv t := by
  obtain ⟨S, hS, hlen, henc, hlt⟩ := h.encoder hs
  have hwire := wireFrame_length_le S hlen
  have hcursor : (s.txCursor + 1#9).toNat = s.txCursor.toNat + 1 := by
    rw [BitVec.toNat_add, BitVec.toNat_one (by decide), Nat.mod_eq_of_lt (by omega)]
  have hadvance : encAdvance S s.enc = encAfter S (s.txCursor.toNat + 1) := by rw [henc]; rfl
  by_cases hdone : (encAdvance S s.enc).phase = .done
  · exact ⟨_, by simp [Machine.acceptI, hS, hdone]; rfl, (h.attemptComplete hs now _ _).finish .ok⟩
  · have hmore : s.txCursor.toNat + 1 ≠ (wireFrame S).length := fun heq =>
      hdone (by rw [hadvance, heq]; exact (emits_wireFrame S hlen).2)
    refine ⟨{ s with enc := encAdvance S s.enc, txCursor := s.txCursor + 1#9 },
      by simp [Machine.acceptI, hS, hdone], ?_⟩
    have hS' : txSource { s with enc := encAdvance S s.enc, txCursor := s.txCursor + 1#9 } = .ok S := hS
    exact { h with
      cursorOnlySending := fun _ => hs
      oneFrameInProgress := fun hboth => hboth.1 hidx
      encoderTracks := fun _ => (encoderInStep_iff hS').2 ⟨by rw [hcursor]; exact hadvance, by rw [hcursor]; omega⟩ }

/-- An accepted S-frame byte, while no I-frame is in progress (42_arq_tx.md R131). -/
theorem Inv.acceptS {s : State} (h : Inv s) (hcursor : s.txCursor = 0#9) : Inv (Machine.acceptS s) := by
  have hidx := h.sIndexInFrame
  have hnext : (if s.sIdx + 1#3 = 6#3 then 0#3 else s.sIdx + 1#3).toNat ≤ 5 := by
    generalize s.sIdx = i at hidx ⊢
    revert i; decide
  unfold Machine.acceptS
  split
  · exact { h with oneFrameInProgress := fun hboth => hboth.2 hcursor, sIndexInFrame := hnext }
  · exact { h with oneFrameInProgress := fun hboth => hboth.2 hcursor, sIndexInFrame := hnext }

/-- What the arbiter makes sure of before a byte of this source is offered (42_arq_tx.md R130). -/
def Selected (s : State) : TxSource → Prop
  | .sCont => s.txCursor = 0#9
  | .sStart => s.txCursor = 0#9
  | .iCont => s.txState = .sending ∧ s.sIdx = 0#3
  | .iStart => s.txState = .sending ∧ s.sIdx = 0#3

theorem Inv.select {s s' : State} {now : Instant} {o : Option TxSource} (h : Inv s)
    (hsel : select now s = (o, s')) : Inv s' ∧ ∀ src, o = some src → Selected s' src := by
  rcases select_cases now s with ⟨hidx, e⟩ | ⟨hidx, hs, -, e⟩ | ⟨-, hno, -, e⟩ | ⟨hidx, hs, -, -, e⟩ |
    ⟨hidx, hs, -, -, e⟩ | ⟨-, -, -, -, e⟩ <;> obtain ⟨rfl, rfl⟩ := Prod.mk.inj (e.symm.trans hsel)
  · have hcursor : s.txCursor = 0#9 := by_contra fun hc => h.oneFrameInProgress ⟨hidx, hc⟩
    exact ⟨h, by rintro _ ⟨⟩; exact hcursor⟩
  · exact ⟨h, by rintro _ ⟨⟩; exact ⟨hs, hidx⟩⟩
  · have hcursor : s.txCursor = 0#9 := by_contra fun hc => hno ⟨h.cursorOnlySending hc, hc⟩
    exact ⟨h, by rintro _ ⟨⟩; exact hcursor⟩
  · exact ⟨h, by rintro _ ⟨⟩; exact ⟨hs, hidx⟩⟩
  · exact ⟨h.timeout (by simp [hs]), by rintro _ ⟨⟩; exact ⟨rfl, hidx⟩⟩
  · exact ⟨h, by simp⟩

theorem Selected.drawTx {s s' : State} {r : TxResponse} {src : TxSource} (h : Selected s src)
    (hdraw : drawTx s = (r, s')) : Selected s' src := by
  rcases drawTx_next s s' r hdraw with ⟨rest, -, rfl⟩ | ⟨-, rfl⟩
  · exact h
  · exact h

theorem sByte_of_le (k : SKind) (i : BitVec 3) (hi : i.toNat ≤ 5) : ∃ b, sByte k i = .ok b := by
  have hlt : i.toNat < (sBytes k).length := by cases k <;> simp [sBytes] <;> omega
  exact ⟨_, by rw [sByte, List.getElem?_eq_getElem hlt]⟩

/-- The source the arbiter selects has a byte to offer. -/
theorem Inv.offer {s : State} (h : Inv s) {src : TxSource} (hsel : Selected s src) :
    ∃ b, Machine.offer src s = .ok b := by
  have onI : s.txState = .sending → ∃ b, offerI s = .ok b := fun hs => by
    obtain ⟨S, hS, hlen, henc, hlt⟩ := h.encoder hs
    exact ⟨_, by simp only [offerI, hS]; rw [henc, encPeek_encAfter S hlen _ hlt]⟩
  cases src with
  | sCont => exact sByte_of_le _ _ h.sIndexInFrame
  | sStart => exact sByte_of_le _ _ h.sIndexInFrame
  | iCont => exact onI hsel.1
  | iStart => exact onI hsel.1

theorem Inv.accept {s : State} (h : Inv s) {src : TxSource} (hsel : Selected s src) (now : Instant) :
    ∃ t, Machine.accept src now s = .ok t ∧ Inv t := by
  cases src with
  | sCont => exact ⟨_, rfl, h.acceptS hsel⟩
  | sStart => exact ⟨_, rfl, h.acceptS hsel⟩
  | iCont => exact h.acceptI hsel.1 hsel.2 now
  | iStart => exact h.acceptI hsel.1 hsel.2 now

/-! ### The receiver -/

theorem Inv.onVerdict {s : State} (h : Inv s) (d : List Byte) (v : Verdict) : Inv (Machine.onVerdict d v s) := by
  cases v with
  | i len => exact (h.sqPut .ack).finish _
  | ack =>
    simp only [Machine.onVerdict, onAck]
    split
    · rename_i hs
      exact { h with
        lengthInCap := by simp
        idleHasNoLength := by simp
        cursorOnlySending := fun hc => absurd (h.cursorOnlySending hc) (by simp [hs])
        neverWaitingRetry := by simp
        holdsFrame := by simp
        frameWritten := by simp
        encoderTracks := by simp }
    · exact h
  | nack =>
    simp only [Machine.onVerdict, onNack]
    split
    · rename_i hs
      exact h.timeout (by simp [hs])
    · exact h
  | malformed cause => exact h.sqPut .nack

theorem Inv.decReset {s : State} (h : Inv s) : Inv (Machine.decReset s) :=
  { h with
    rxCursorInBuffer := by simp
    overflowAtEnd := by simp
    countInRun := by simp
    countNeedsCode := by simp
    frameStart := by simp
    frameStored := by simp [Memory.writtenBelow_iff] }

/-- A code byte starts a run (40_cobs.md R93, R95). -/
theorem Inv.startRun {s : State} (h : Inv s) {b : Byte} (hb : b ≠ 0#8) : Inv (Machine.startRun b s) :=
  { h with
    countInRun := by simp only [startRun_decCnt]; bv_omega
    countNeedsCode := fun hzero => absurd hzero hb
    frameStart := fun hzero => absurd hzero hb }

/-- A byte of the run is done with (40_cobs.md R94). -/
theorem Inv.countDown {s : State} (h : Inv s) (hcode : s.decCode ≠ 0#8) (hcnt : s.decCnt ≠ 0#8) :
    Inv { s with decCnt := s.decCnt - 1#8 } :=
  { h with
    countInRun := by have := h.countInRun; show (s.decCnt - 1#8).toNat ≤ 254; bv_omega
    countNeedsCode := fun hzero => absurd hzero hcode }

/-- While `rx_overflow` is set, `rx_cursor` does not change (10_state.md R37 (d)). -/
def CursorHeld (s t : State) : Prop := s.rxOverflow = true → t.rxOverflow = true → t.rxCursor = s.rxCursor

/-- Inside a frame a byte can be stored (40_cobs.md R97). -/
theorem Inv.store {s : State} (h : Inv s) (hcode : s.decCode ≠ 0#8) (v : Byte) :
    ∃ t, Machine.store v s = .ok t ∧ Inv t ∧ CursorHeld s t ∧ t.decCode = s.decCode ∧ t.decCnt = s.decCnt := by
  rcases store_cases v s h.rxCursorInBuffer with ⟨-, e⟩ | ⟨hno, hfull, e⟩ | ⟨hno, hroom, e⟩ <;>
    refine ⟨_, e, ?_, ?_, rfl, rfl⟩
  · exact h
  · exact fun _ _ => rfl
  · exact { h with overflowAtEnd := fun _ => hfull, frameStart := fun hzero => absurd hzero hcode }
  · exact fun _ _ => rfl
  · obtain ⟨hwf, hrange⟩ := h.rxBufferForm
    have hstored := (Memory.writtenBelow_iff _ _).1 h.frameStored
    exact { h with
      rxCursorInBuffer := hroom
      overflowAtEnd := fun hset => absurd hset (by simp [hno])
      frameStart := fun hzero => absurd hzero hcode
      rxBufferForm := ⟨Memory.set_wf _ _ _ hwf, Memory.set_inRange _ _ _ _ hroom hrange⟩
      frameStored := (Memory.writtenBelow_iff _ _).2 fun a ha => by
        simp only [Memory.written_set, Bool.or_eq_true, decide_eq_true_eq]
        exact (Nat.lt_succ_iff_lt_or_eq.1 ha).elim (fun hlt => .inr (hstored a hlt)) .inl }
  · exact fun hset => absurd hset (by simp [hno])

/-! ### SEND -/

/-- A payload within the capacity leaves room for its frame in `tx_buffer`, and its length fits its register. -/
theorem Inv.room {s : State} (h : Inv s) {p : List Byte} (hp : p.length ≤ cap s) :
    p.length + 4 ≤ s.N ∧ (BitVec.ofNat 8 p.length).toNat = p.length := by
  have hN := h.bufferLength
  simp only [cap] at hp
  exact ⟨by omega, by rw [BitVec.toNat_ofNat, Nat.mod_eq_of_lt (by omega)]⟩

/-- The sender as an accepted SEND leaves it (44_host_ops.md R174), with `m` in `tx_buffer`. -/
def attemptOf (p : List Byte) (m : Memory) (s : State) : State :=
  startAttempt { s with txBuffer := m, txLen := BitVec.ofNat 8 p.length, txState := .sending }

/-- An Idle sender accepts a payload within the capacity (44_host_ops.md R174). -/
theorem Inv.sendAccepted {s : State} (h : Inv s) {p : List Byte} (hp : p.length ≤ cap s) :
    ∃ m, Machine.sendAccepted p s = .next (Machine.finish .ok (attemptOf p m s)) ∧ Inv (attemptOf p m s) := by
  obtain ⟨hroom, hlen⟩ := h.room hp
  obtain ⟨m, hwrite, hget, hwritten, hwf, hrange, -⟩ := writeIFrame_spec s.N s.txBuffer p hroom
  refine ⟨m, by simp [Machine.sendAccepted, hwrite, attemptOf], ?_⟩
  have hsourceLen : txSourceLen (attemptOf p m s) = p.length + 4 := congrArg (· + 4) hlen
  have hsource : txSource (attemptOf p m s) = .ok (iFrame p) := by
    rw [txSource, hsourceLen, ← iFrame_length p]
    refine readBytes_of_get _ _ _ (by rw [iFrame_length]; exact hroom) fun j hj => (hget j).trans ?_
    rw [if_pos (by rwa [iFrame_length] at hj), List.getElem?_eq_getElem hj, Option.getD_some]
  have hpayload : ((iFrame p).drop 2).take p.length = p := by simp [iFrame, frameBytes]
  obtain ⟨hwf0, hrange0⟩ := h.txBufferForm
  exact { h with
    lengthInCap := hlen.trans_le hp
    idleHasNoLength := by simp [attemptOf]
    cursorOnlySending := by simp [attemptOf]
    oneFrameInProgress := by simp [attemptOf]
    neverWaitingRetry := by simp [attemptOf]
    txBufferForm := ⟨hwf hwf0, hrange hrange0⟩
    holdsFrame := fun _ => (holdsIFrame_iff hsource).2 (by
      rw [show (attemptOf p m s).txLen.toNat = p.length from hlen, hpayload])
    frameWritten := fun _ => (Memory.writtenBelow_iff _ _).2 fun a ha => by
      rw [hsourceLen] at ha
      exact (hwritten a).trans (by simp [ha])
    encoderTracks := fun _ => (encoderInStep_iff hsource).2 ⟨rfl, wireFrame_length_pos _⟩ }

end Sys2Proof.Machine

namespace Sys2Proof.Machine

/-! ## Every instruction and every step keeps the invariant -/

/-- The answer is a next state that meets the invariant. -/
def Completes (s : State) (o : Out) : Prop := ∃ t, o = .next t ∧ Inv t ∧ CursorHeld s t

theorem cursorHeld_of_eq {s t : State} (h : t.rxCursor = s.rxCursor) : CursorHeld s t := fun _ _ => h

theorem cursorHeld_of_clear {s t : State} (h : t.rxOverflow = false) : CursorHeld s t :=
  fun _ hset => absurd (h.symm.trans hset) Bool.false_ne_true

theorem Inv.finishes {s : State} (h : Inv s) (r : Result) : Completes s (.next (Machine.finish r s)) :=
  ⟨_, rfl, h.finish r, cursorHeld_of_eq rfl⟩

/-- A micro-step of POLL_TX always completes (44_host_ops.md R176). -/
theorem Inv.txMicro {s : State} (h : Inv s) (now : Instant) : Completes s (Machine.txMicro now s) := by
  have key : ∃ t, Machine.txMicro now s = .next t ∧ Inv t := by
    rcases txMicro_cases now s with ⟨s1, hsel, e⟩ | ⟨src, s1, hsel, hoffer⟩
    · exact ⟨_, e, (h.select hsel).1.finish _⟩
    · obtain ⟨h1, hselected⟩ := h.select hsel
      have hready := hselected src rfl
      obtain ⟨b, hb⟩ := h1.offer hready
      rcases hoffer with ⟨f, hf, -⟩ | ⟨b', r, s2, -, hdraw, hanswer⟩
      · exact absurd (hf.symm.trans hb) (by simp)
      · have h2 := h1.drawTx hdraw
        rcases hanswer with ⟨-, e⟩ | ⟨err, -, e⟩ | ⟨-, e⟩
        · exact ⟨_, e, h2.finish _⟩
        · exact ⟨_, e, h2.finish _⟩
        · have hready' : Selected s2 src := hready.drawTx hdraw
          obtain ⟨t, ht, hinv⟩ := (h2.putOnWire b').accept (src := src) hready' now
          exact ⟨t, by rw [e, ht]; rfl, hinv⟩
  obtain ⟨t, ht, hinv⟩ := key
  exact ⟨t, ht, hinv, cursorHeld_of_eq (txMicro_next now s t ht).rxCursor⟩

/-- A received frame is always dispatched (43_arq_rx.md R151). -/
theorem Inv.receiveFrame {s : State} (h : Inv s) (d : List Byte) : Completes s (Machine.receiveFrame d s) := by
  obtain ⟨-, -, -, hcursor, -⟩ := onVerdict_acted d (frameVerdict d s) s
  exact ⟨_, rfl, h.onVerdict d _, cursorHeld_of_eq hcursor⟩

/-- A delimiter ends the frame being received, and its event is acted on (40_cobs.md R92, 43_arq_rx.md R150). -/
theorem Inv.onDelimiter {s : State} (h : Inv s) : Completes s (onEvent (delimEvent s) (Machine.decReset s)) := by
  have malformed : ∀ cause, Completes s (onEvent (.malformed cause) (Machine.decReset s)) := fun _ =>
    ⟨_, rfl, h.decReset.sqPut .nack, cursorHeld_of_clear rfl⟩
  rcases delimEvent_cases s with ⟨-, e⟩ | ⟨-, -, e⟩ | ⟨-, -, -, e⟩ | ⟨-, -, -, e⟩ <;> rw [e]
  · exact malformed .empty
  · exact malformed .truncated
  · exact malformed .overflow
  · obtain ⟨v, hv⟩ := runFrame_verdict ((List.range' 0 s.rxCursor).map s.rxBuffer.get) (Machine.decReset s)
    obtain ⟨-, -, -, -, hclear, -⟩ := onVerdict_acted ((List.range' 0 s.rxCursor).map s.rxBuffer.get) v
      (Machine.decReset s)
    exact ⟨_, by simp only [onEvent, decReset_M, decReset_rxBuffer, h.readFrame]; exact hv,
      h.decReset.onVerdict _ v, cursorHeld_of_clear hclear⟩

/-- A received byte always completes, whatever its class (40_cobs.md R91). -/
theorem Inv.receiveByte {s : State} (h : Inv s) (b : Byte) : Completes s (Machine.receiveByte b s) := by
  unfold Machine.receiveByte
  rcases decStep_cases b s with ⟨-, e⟩ | ⟨hb, -, e⟩ | ⟨-, hcode, hcnt, e⟩ | ⟨hb, hcode, -, -, e⟩ | ⟨hb, -, -, e⟩ <;>
    rw [e]
  · exact h.onDelimiter
  · exact ⟨_, rfl, h.startRun hb, cursorHeld_of_eq rfl⟩
  · obtain ⟨u, hu, hinv, hheld, hcode', hcnt'⟩ := h.store hcode b
    rw [hu]
    exact ⟨_, rfl, hinv.countDown (hcode' ▸ hcode) (hcnt' ▸ hcnt), hheld⟩
  · obtain ⟨u, hu, hinv, hheld, -, -⟩ := h.store hcode 0x00#8
    rw [hu]
    exact ⟨_, rfl, hinv.startRun hb, hheld⟩
  · exact ⟨_, rfl, h.startRun hb, cursorHeld_of_eq rfl⟩

theorem drawRx_rxCursor {s s' : State} {r : RxResponse} (h : drawRx s = (r, s')) :
    s'.rxCursor = s.rxCursor ∧ s'.rxOverflow = s.rxOverflow := by
  rcases drawRx_cases s with ⟨r', rest, -, e⟩ | ⟨-, e⟩ <;> obtain ⟨-, rfl⟩ := Prod.mk.inj (e.symm.trans h)
  · exact ⟨rfl, rfl⟩
  · exact ⟨rfl, rfl⟩

/-- A micro-step of POLL_RX always completes (44_host_ops.md R178). -/
theorem Inv.rxMicro {s : State} (h : Inv s) : Completes s (Machine.rxMicro s) := by
  obtain ⟨r, s1, hdraw, hanswer⟩ := rxMicro_cases s
  have h1 := h.drawRx hdraw
  obtain ⟨hcursor, hoverflow⟩ := drawRx_rxCursor hdraw
  have key : Completes s1 (Machine.rxMicro s) := by
    rcases hanswer with ⟨-, e⟩ | ⟨err, -, e⟩ | ⟨b, -, e⟩ <;> rw [e]
    · exact h1.finishes _
    · exact h1.finishes _
    · exact h1.receiveByte b
  obtain ⟨t, ht, hinv, hheld⟩ := key
  exact ⟨t, ht, hinv, by rwa [CursorHeld, hcursor, hoverflow] at hheld⟩

theorem Inv.execConstruct {s : State} (hop : s.curOp = .none) {n : Nat} (hn : 4 ≤ n) (m interval : Nat) :
    Completes s (Machine.execConstruct n m interval s) := by
  rw [Machine.execConstruct, whenFree_of_none _ _ hop, if_neg (by omega)]
  exact ⟨_, rfl, (Inv.constructed s m interval hn).finish .ok, cursorHeld_of_clear rfl⟩

theorem Inv.execSend {s : State} (h : Inv s) (hop : s.curOp = .none) (p : List Byte) :
    Completes s (Machine.execSend p s) := by
  rw [Machine.execSend, whenFree_of_none _ _ hop]
  split
  · exact h.finishes .busy
  · split
    · exact h.finishes .tooLong
    · rename_i hfits
      obtain ⟨m, hm, hinv⟩ := h.sendAccepted (Nat.not_lt.1 hfits)
      exact ⟨_, hm, hinv.finish .ok, cursorHeld_of_eq rfl⟩

theorem Inv.execPollTx {s : State} (h : Inv s) (hop : s.curOp = .none) (now : Instant) :
    Completes s (Machine.execPollTx now s) := by
  rw [Machine.execPollTx, whenFree_of_none _ _ hop]
  exact (h.begin _).txMicro now

theorem Inv.execPollRx {s : State} (h : Inv s) (hop : s.curOp = .none) : Completes s (Machine.execPollRx s) := by
  rw [Machine.execPollRx, whenFree_of_none _ _ hop]
  exact (h.begin _).rxMicro

theorem Inv.execIsIdle {s : State} (h : Inv s) (hop : s.curOp = .none) : Completes s (Machine.execIsIdle s) := by
  rw [Machine.execIsIdle, whenFree_of_none _ _ hop]
  exact h.finishes _

/-- The answer completes with the invariant kept, or is a refusal; it is no fault. -/
def Keeps (s : State) (o : Out) : Prop := Completes s o ∨ ∃ r, o = .refused r

/-- A host operation has to be looked at only while none is in progress (44_host_ops.md R170). -/
theorem keeps_whenFree {s : State} {answer : Out} (h : s.curOp = .none → Keeps s (whenFree s answer)) :
    Keeps s (whenFree s answer) := by
  by_cases hop : s.curOp = .none
  · exact h hop
  · exact .inr ⟨_, by rw [whenFree_eq, if_neg hop]⟩

/-- Every instruction completes with the invariant kept, or is refused. -/
theorem Inv.exec {s : State} (h : Inv s) (i : Instr) : Keeps s (Machine.exec i s) := by
  cases i with
  | construct n m interval =>
    refine keeps_whenFree fun hop => ?_
    by_cases hn : 4 ≤ n
    · exact .inl (Inv.execConstruct hop hn m interval)
    · exact .inr ⟨_, by rw [whenFree_of_none _ _ hop, if_pos (by omega)]⟩
  | send p => exact keeps_whenFree fun hop => .inl (h.execSend hop p)
  | pollTx now => exact keeps_whenFree fun hop => .inl (h.execPollTx hop now)
  | pollRx => exact keeps_whenFree fun hop => .inl (h.execPollRx hop)
  | isIdle => exact keeps_whenFree fun hop => .inl (h.execIsIdle hop)
  | reservedCmd code => exact .inr ⟨_, rfl⟩
  | frameI len p crc => exact .inl (h.receiveFrame _)
  | frameAck len p crc => exact .inl (h.receiveFrame _)
  | frameNack len p crc => exact .inl (h.receiveFrame _)
  | frameBadHeader hdr len p crc => exact .inl (h.receiveFrame _)
  | wireDelim => exact .inl (h.receiveByte 0x00#8)
  | wireCode b => exact .inl (h.receiveByte b)
  | wireCodeChain => exact .inl (h.receiveByte 0xFF#8)
  | wireData b => exact .inl (h.receiveByte b)

/-- Every step completes with the invariant kept, or is a refusal. -/
theorem Inv.step {s : State} (h : Inv s) : Keeps s (Machine.step s) := by
  rcases step_cases s with ⟨hstuck, -⟩ | ⟨-, ⟨now, -, e⟩ | ⟨-, e⟩ | ⟨-, -, e⟩ | ⟨c, rest, -, -, hrequest⟩⟩
  · exact absurd hstuck h.neverWaitingRetry
  · exact .inl (e ▸ h.txMicro now)
  · exact .inl (e ▸ h.rxMicro)
  · exact .inl ⟨s, e, h, cursorHeld_of_eq rfl⟩
  · rcases hrequest with ⟨err, -, e⟩ | ⟨i, -, e⟩
    · exact .inr ⟨_, e⟩
    · exact e ▸ (h.withRequests rest).exec i

/-- Settles O46: the step either completes as `Completes` says or is refused, and here it is not refused. -/
theorem stepKeepsTheInvariant : Obligations.StepKeepsTheInvariant := by
  intro s t h ht
  rcases h.step with ⟨t', ht', hinv, hheld⟩ | ⟨r, hr⟩
  · obtain rfl : t = t' := by simpa using ht.symm.trans ht'
    exact ⟨hinv, hheld⟩
  · exact absurd (hr.symm.trans ht) (by simp)

/-- Settles O45: `State.reset` holds the reset values of 10_state.md R41 and `N = 16`. -/
theorem invHoldsAtReset : Obligations.InvHoldsAtReset :=
  .of_resetRegisters (u := 0) (v := 1) (by decide) rfl rfl rfl rfl rfl rfl ⟨rfl, rfl, rfl, rfl⟩ rfl

/-- Settles O1: both buffers are fresh, and every other row is a field of `State.reset`. -/
theorem resetHoldsSpecifiedValues : Obligations.ResetHoldsSpecifiedValues :=
  ⟨fun a => ⟨Memory.written_fresh 0 a, Memory.written_fresh 1 a⟩, rfl, rfl, rfl, rfl, rfl, rfl, rfl, rfl, rfl, rfl, rfl⟩

end Sys2Proof.Machine

namespace Sys2Proof.Machine

/-! ## Who writes what: buffers, configuration and sender state (10_state.md R22 to R32) -/

/-- What a micro-step of POLL_RX leaves alone, and what it can do to the sender (43_arq_rx.md R150). -/
theorem rxMicro_sender {s t : State} (h : rxMicro s = .next t) :
    t.N = s.N ∧ t.M = s.M ∧ t.retryInterval = s.retryInterval ∧ t.txBuffer = s.txBuffer ∧
    (t.txState = s.txState ∨ (s.txState = .awaitingAck ∧ (t.txState = .idle ∨ t.txState = .sending))) := by
  obtain ⟨s1, hs1, hcase⟩ := rxMicro_next s t h
  have hread : s1.N = s.N ∧ s1.M = s.M ∧ s1.retryInterval = s.retryInterval ∧ s1.txBuffer = s.txBuffer ∧
      s1.txState = s.txState := by
    rcases hs1 with rfl | ⟨r, rest, -, rfl⟩ <;> exact ⟨rfl, rfl, rfl, rfl, rfl⟩
  obtain ⟨hN, hM, hinterval, hbuffer, hstate⟩ := hread
  rcases hcase with rfl | ⟨e, rfl⟩ | ⟨b, hb⟩
  · exact ⟨hN, hM, hinterval, hbuffer, .inl hstate⟩
  · exact ⟨hN, hM, hinterval, hbuffer, .inl hstate⟩
  · obtain ⟨frame, acted⟩ := receiveByte_next b s1 t hb
    refine ⟨frame.N.trans hN, frame.M.trans hM, frame.retryInterval.trans hinterval, frame.txBuffer.trans hbuffer, ?_⟩
    rw [← hstate]
    rcases acted with ⟨-, -, -, -, hsender⟩ | ⟨-, -, -, -, hsame⟩ | ⟨-, -, -, -, hsame⟩
    · exact hsender
    · exact .inl hsame
    · exact .inl hsame

/-- What an answered SEND leaves alone, and what it does to the sender (44_host_ops.md R174). -/
theorem execSend_sender {p : List Byte} {s t : State} (h : execSend p s = .next t) :
    t.N = s.N ∧ t.M = s.M ∧ t.retryInterval = s.retryInterval ∧ t.rxBuffer = s.rxBuffer ∧
    (t.txState = s.txState ∨ (s.txState = .idle ∧ t.txState = .sending)) := by
  rcases (execSend_next p s t h).2 with ⟨-, rfl⟩ | ⟨-, -, rfl⟩ | ⟨hidle, m, -, rfl⟩
  · exact ⟨rfl, rfl, rfl, rfl, .inl rfl⟩
  · exact ⟨rfl, rfl, rfl, rfl, .inl rfl⟩
  · exact ⟨rfl, rfl, rfl, rfl, .inr ⟨hidle, rfl⟩⟩

/-- Settles O43, by the operation whose micro-step the step is. -/
theorem buffersAndConfigurationHaveOneWriter : Obligations.BuffersAndConfigurationHaveOneWriter := by
  intro s t h hnotConstruct
  rcases (step_next s t h).2 with ⟨now, u, -, hu, hstart⟩ | ⟨u, hop, hu, hstart⟩ | ⟨-, rfl⟩ | ⟨p, rest, hop, hsend⟩ |
    ⟨n, m, interval, rest, hop, -⟩ | ⟨rest, -, rfl⟩
  · have frame := (txMicro_next now u t hu).toTxFrame
    rcases hstart with rfl | ⟨-, rest, rfl⟩ <;>
      exact ⟨frame.N, frame.M, frame.retryInterval, fun _ => frame.txBuffer, fun _ => frame.rxBuffer⟩
  · obtain ⟨hN, hM, hinterval, hbuffer, -⟩ := rxMicro_sender hu
    rcases hstart with rfl | ⟨-, rest, rfl⟩ <;>
      exact ⟨hN, hM, hinterval, fun _ => hbuffer, fun hnotRx => absurd hop hnotRx⟩
  · exact ⟨rfl, rfl, rfl, fun _ => rfl, fun _ => rfl⟩
  · obtain ⟨hN, hM, hinterval, hbuffer, -⟩ := execSend_sender hsend
    exact ⟨hN, hM, hinterval, fun hnotSend => absurd hop (hnotSend p), fun _ => hbuffer⟩
  · exact absurd hop (hnotConstruct n m interval)
  · exact ⟨rfl, rfl, rfl, fun _ => rfl, fun _ => rfl⟩

/-- Settles O44, by the operation whose micro-step the step is. -/
theorem senderStateChangesAsListed : Obligations.SenderStateChangesAsListed := by
  intro s t h hchange
  rcases (step_next s t h).2 with ⟨now, u, hop, hu, hstart⟩ | ⟨u, hop, hu, hstart⟩ | ⟨-, rfl⟩ | ⟨p, rest, hop, hsend⟩ |
    ⟨n, m, interval, rest, hop, hconstruct⟩ | ⟨rest, -, rfl⟩
  · have hstate := (txMicro_next now u t hu).state
    have hstate : t.txState = s.txState ∨
        (s.txState = .sending ∧ t.txState = .awaitingAck ∧ t.txRetryDeadline = now + s.retryInterval) ∨
        (s.txState = .awaitingAck ∧ t.txState = .sending ∧ s.txRetryDeadline ≤ now) := by
      rcases hstart with rfl | ⟨-, rest, rfl⟩ <;> exact hstate
    rcases hstate with hsame | ⟨hfrom, hto, harmed⟩ | ⟨hfrom, hto, hdue⟩
    · exact absurd hsame hchange
    · exact .inr (.inl ⟨hfrom, hto, now, hop, harmed⟩)
    · exact .inr (.inr (.inl ⟨hfrom, hto, now, hop, hdue⟩))
  · obtain ⟨-, -, -, -, hstate⟩ := rxMicro_sender hu
    have hstate : t.txState = s.txState ∨
        (s.txState = .awaitingAck ∧ (t.txState = .idle ∨ t.txState = .sending)) := by
      rcases hstart with rfl | ⟨-, rest, rfl⟩ <;> exact hstate
    rcases hstate with hsame | ⟨hfrom, hacked | hnacked⟩
    · exact absurd hsame hchange
    · exact .inr (.inr (.inr (.inl ⟨hfrom, hacked, hop⟩)))
    · exact .inr (.inr (.inr (.inr (.inl ⟨hfrom, hnacked, hop⟩))))
  · exact absurd rfl hchange
  · obtain ⟨-, -, -, -, hstate⟩ := execSend_sender hsend
    rcases hstate with hsame | ⟨hfrom, hto⟩
    · exact absurd hsame hchange
    · exact .inl ⟨hfrom, hto, p, hop⟩
  · obtain ⟨-, -, rfl⟩ := execConstruct_next n m interval _ t hconstruct
    exact .inr (.inr (.inr (.inr (.inr ⟨rfl, n, m, interval, hop⟩))))
  · exact absurd rfl hchange

end Sys2Proof.Machine

namespace Sys2Proof.Machine

/-! ## No rule reads an unspecified byte (10_state.md R41)

Every operation but CONSTRUCT commutes with a change of the unspecified contents; CONSTRUCT does not see it. -/

@[simp] theorem withContents_M (u v : Nat) (s : State) : (s.withContents u v).M = s.M := rfl
@[simp] theorem withContents_txState (u v : Nat) (s : State) : (s.withContents u v).txState = s.txState := rfl
@[simp] theorem withContents_sqValid (u v : Nat) (s : State) : (s.withContents u v).sqValid = s.sqValid := rfl
@[simp] theorem withContents_sIdx (u v : Nat) (s : State) : (s.withContents u v).sIdx = s.sIdx := rfl
@[simp] theorem withContents_rxCursor (u v : Nat) (s : State) : (s.withContents u v).rxCursor = s.rxCursor := rfl
@[simp] theorem withContents_decCode (u v : Nat) (s : State) : (s.withContents u v).decCode = s.decCode := rfl
@[simp] theorem withContents_decCnt (u v : Nat) (s : State) : (s.withContents u v).decCnt = s.decCnt := rfl
@[simp] theorem withContents_rxOverflow (u v : Nat) (s : State) : (s.withContents u v).rxOverflow = s.rxOverflow := rfl
@[simp] theorem withContents_curOp (u v : Nat) (s : State) : (s.withContents u v).curOp = s.curOp := rfl
@[simp] theorem withContents_requests (u v : Nat) (s : State) : (s.withContents u v).requests = s.requests := rfl
@[simp] theorem withContents_txScript (u v : Nat) (s : State) : (s.withContents u v).txScript = s.txScript := rfl
@[simp] theorem withContents_rxScript (u v : Nat) (s : State) : (s.withContents u v).rxScript = s.rxScript := rfl

/-- The same answer, with other unspecified contents in its next state. -/
def relabel (u v : Nat) : Out → Out
  | .next t => .next (t.withContents u v)
  | .fault f => .fault f
  | .refused r => .refused r

/-- Answering next and refusing are alike, up to unspecified contents. -/
def SameAnswer (o o' : Out) : Prop :=
  (∀ t, o = .next t → ∃ u v, o' = .next (t.withContents u v)) ∧ ∀ r, o = .refused r → o' = .refused r

theorem sameAnswer_of_eq {u v : Nat} {o o' : Out} (h : o' = relabel u v o) : SameAnswer o o' :=
  ⟨by rintro t rfl; exact ⟨u, v, h⟩, by rintro r rfl; exact h⟩

/-- An unchanged answer is alike: a state with its own contents is itself. -/
theorem sameAnswer_of_unchanged {o o' : Out} (h : o' = o) : SameAnswer o o' :=
  ⟨by rintro t rfl; exact ⟨t.txBuffer.contents, t.rxBuffer.contents, h⟩, by rintro r rfl; exact h⟩

theorem orFault_withContents (u v : Nat) (x : Except Fault State) :
    orFault (x.map (State.withContents u v)) = relabel u v (orFault x) := by
  cases x <;> rfl

theorem whenFree_withContents (u v : Nat) (s : State) (answer : Out) :
    whenFree (s.withContents u v) (relabel u v answer) = relabel u v (whenFree s answer) := by
  rw [whenFree_eq, whenFree_eq, withContents_curOp]
  split <;> rfl

/-! ### The transmit side -/

theorem select_withContents (u v : Nat) (now : Instant) (s : State) :
    select now (s.withContents u v) = ((select now s).1, (select now s).2.withContents u v) := by
  have hs : sInProgress (s.withContents u v) = sInProgress s := rfl
  have hi : iInProgress (s.withContents u v) = iInProgress s := rfl
  have ht : timerDue now (s.withContents u v) = timerDue now s := rfl
  simp only [select, hs, hi, ht, withContents_sqValid, withContents_txState]
  split_ifs <;> rfl

theorem drawTx_withContents (u v : Nat) (s : State) :
    drawTx (s.withContents u v) = ((drawTx s).1, (drawTx s).2.withContents u v) := by
  unfold drawTx
  rw [withContents_txScript]
  cases s.txScript <;> rfl

theorem acceptS_withContents (u v : Nat) (s : State) :
    acceptS (s.withContents u v) = (acceptS s).withContents u v := by
  unfold acceptS
  rw [withContents_sIdx]
  split <;> rfl

theorem acceptI_withContents {s : State} (h : Inv s) (hs : s.txState = .sending) (u v : Nat) (now : Instant) :
    acceptI now (s.withContents u v) = (acceptI now s).map (State.withContents u v) := by
  obtain ⟨S, hS, -⟩ := h.source
  have hS' : txSource (s.withContents u v) = .ok S := (h.txSource_withContents (by simp [hs]) u v).trans hS
  have henc : (s.withContents u v).enc = s.enc := rfl
  simp only [acceptI, hS, hS', henc]
  split <;> rfl

theorem accept_withContents {s : State} (h : Inv s) {src : TxSource} (hsel : Selected s src) (u v : Nat)
    (now : Instant) : accept src now (s.withContents u v) = (accept src now s).map (State.withContents u v) := by
  cases src with
  | sCont => exact congrArg Except.ok (acceptS_withContents u v s)
  | sStart => exact congrArg Except.ok (acceptS_withContents u v s)
  | iCont => exact acceptI_withContents h hsel.1 u v now
  | iStart => exact acceptI_withContents h hsel.1 u v now

theorem offer_withContents {s : State} (h : Inv s) {src : TxSource} (hsel : Selected s src) (u v : Nat) :
    offer src (s.withContents u v) = offer src s := by
  have onI : s.txState = .sending → offerI (s.withContents u v) = offerI s := fun hs => by
    unfold offerI
    rw [h.txSource_withContents (by simp [hs]) u v]
    rfl
  cases src with
  | sCont => rfl
  | sStart => rfl
  | iCont => exact onI hsel.1
  | iStart => exact onI hsel.1

theorem txMicro_withContents {s : State} (h : Inv s) (u v : Nat) (now : Instant) :
    txMicro now (s.withContents u v) = relabel u v (txMicro now s) := by
  unfold txMicro
  rw [select_withContents]
  cases hsel : select now s with
  | mk o s1 =>
    obtain ⟨h1, hselected⟩ := h.select hsel
    cases o with
    | none => rfl
    | some src =>
      have hready := hselected src rfl
      obtain ⟨b, hb⟩ := h1.offer hready
      simp only [offer_withContents h1 hready, hb, drawTx_withContents]
      cases hdraw : drawTx s1 with
      | mk r s2 =>
        cases r with
        | wouldBlock => rfl
        | error e => rfl
        | ready =>
          have hready' : Selected s2 src := hready.drawTx hdraw
          have haccept := accept_withContents ((h1.drawTx hdraw).putOnWire b) (src := src) hready' u v now
          exact (congrArg orFault haccept).trans (orFault_withContents u v _)

/-! ### The receive side -/

theorem drawRx_withContents (u v : Nat) (s : State) :
    drawRx (s.withContents u v) = ((drawRx s).1, (drawRx s).2.withContents u v) := by
  unfold drawRx
  rw [withContents_rxScript]
  cases s.rxScript <;> rfl

theorem onVerdict_withContents (u v : Nat) (d : List Byte) (verdict : Verdict) (s : State) :
    onVerdict d verdict (s.withContents u v) = (onVerdict d verdict s).withContents u v := by
  cases verdict with
  | i len => rfl
  | ack =>
    show onAck (s.withContents u v) = (onAck s).withContents u v
    unfold onAck
    rw [withContents_txState]
    split <;> rfl
  | nack =>
    show onNack (s.withContents u v) = (onNack s).withContents u v
    unfold onNack
    rw [withContents_txState]
    split <;> rfl
  | malformed cause => rfl

theorem receiveFrame_withContents (u v : Nat) (d : List Byte) (s : State) :
    receiveFrame d (s.withContents u v) = relabel u v (receiveFrame d s) :=
  congrArg Host.Outcome.next (onVerdict_withContents u v d (frameVerdict d s) s)

/-- A completed frame of at least 4 bytes is received as its row is; a shorter one is malformed. -/
theorem runFrame_eq_receiveFrame (d : List Byte) (s : State) :
    runFrame d s = if d.length < 4 then .next (onMalformed s) else receiveFrame d s := by
  cases hparse : parseFrame d with
  | error e => rw [if_pos ((parseFrame_error_iff d e).1 hparse).1, runFrame, hparse]
  | ok f =>
    have hbytes := frameBytes_of_parseFrame d f hparse
    rw [if_neg (by rw [← hbytes, frameBytes_length]; omega),
      runFrame_eq_exec d s (frameInstr f) (by rw [decodeFrame, hparse]), exec_frameInstr, hbytes]

theorem runFrame_withContents (u v : Nat) (d : List Byte) (s : State) :
    runFrame d (s.withContents u v) = relabel u v (runFrame d s) := by
  rw [runFrame_eq_receiveFrame, runFrame_eq_receiveFrame, receiveFrame_withContents]
  split <;> rfl

/-- A delimiter completes no frame but one whose bytes have all been written. -/
theorem onDelimiter_withContents {s : State} (h : Inv s) (u v : Nat) :
    onEvent (delimEvent s) ((decReset s).withContents u v) = relabel u v (onEvent (delimEvent s) (decReset s)) := by
  rcases delimEvent_cases s with ⟨-, e⟩ | ⟨-, -, e⟩ | ⟨-, -, -, e⟩ | ⟨-, -, -, e⟩ <;> rw [e]
  · rfl
  · rfl
  · rfl
  · have hread := h.readFrame_withContents v
    rw [h.readFrame] at hread
    simp only [onEvent, decReset_M, decReset_rxBuffer, h.readFrame, ← runFrame_withContents]
    simp only [State.withContents, decReset_M, decReset_rxBuffer, hread]

theorem writeByte_withContents (len v : Nat) (m : Memory) (i : Nat) (b : Byte) :
    writeByte len { m with contents := v } i b = (writeByte len m i b).map ({ · with contents := v }) := by
  unfold writeByte
  split <;> rfl

theorem store_withContents (u v : Nat) (b : Byte) (s : State) :
    store b (s.withContents u v) = (store b s).map (State.withContents u v) := by
  have hbuffer : (s.withContents u v).rxBuffer = { s.rxBuffer with contents := v } := rfl
  unfold store overflows
  rw [withContents_rxOverflow, withContents_rxCursor, withContents_M, hbuffer, writeByte_withContents]
  split_ifs
  · rfl
  · rfl
  · cases writeByte s.M s.rxBuffer s.rxCursor b <;> rfl

theorem receiveByte_withContents {s : State} (h : Inv s) (u v : Nat) (b : Byte) :
    receiveByte b (s.withContents u v) = relabel u v (receiveByte b s) := by
  unfold receiveByte decStep
  rw [withContents_decCode, withContents_decCnt]
  split_ifs
  · exact onDelimiter_withContents h u v
  · rfl
  · rw [store_withContents]
    cases store b s <;> rfl
  · rw [store_withContents]
    cases store 0x00#8 s <;> rfl
  · rfl

/-- A byte that POLL_RX has read enters the decoder, whichever row it runs as (43_arq_rx.md R150). -/
theorem runWireByte_eq_receiveByte (b : Byte) (s : State) : runWireByte b s = receiveByte b s := by
  unfold runWireByte
  by_cases hzero : b = 0x00#8
  · rw [if_pos hzero, hzero]; rfl
  · rw [if_neg hzero]
    cases wirePos s.decCode s.decCnt with
    | dataDue => rfl
    | codeDue =>
      by_cases hchain : b = 0xFF#8
      · rw [hchain]; rfl
      · exact if_neg hchain

theorem rxMicro_withContents {s : State} (h : Inv s) (u v : Nat) :
    rxMicro (s.withContents u v) = relabel u v (rxMicro s) := by
  unfold rxMicro
  rw [drawRx_withContents]
  cases hdraw : drawRx s with
  | mk r s1 =>
    cases r with
    | wouldBlock => rfl
    | error e => rfl
    | ready b =>
      simp only [runWireByte_eq_receiveByte]
      exact receiveByte_withContents (h.drawRx hdraw) u v b

/-! ### The host's operations, every instruction, every step -/

theorem sendAccepted_withContents {s : State} (h : Inv s) {p : List Byte} (hp : p.length ≤ cap s) (u v : Nat) :
    sendAccepted p (s.withContents u v) = relabel u v (sendAccepted p s) := by
  obtain ⟨m, hwrite, -, -, -, -, hrelabelled⟩ := writeIFrame_spec s.N s.txBuffer p (h.room hp).1
  have hwrite' : writeIFrame (s.withContents u v).N (s.withContents u v).txBuffer p = .ok { m with contents := u } :=
    hrelabelled u
  simp only [sendAccepted, hwrite, hwrite']
  rfl

theorem execSend_withContents {s : State} (h : Inv s) (p : List Byte) (u v : Nat) :
    execSend p (s.withContents u v) = relabel u v (execSend p s) := by
  have hcap : cap (s.withContents u v) = cap s := rfl
  rw [execSend, execSend, ← whenFree_withContents, withContents_txState, hcap]
  congr 1
  split_ifs with hbusy hlong
  · rfl
  · rfl
  · exact sendAccepted_withContents h (Nat.not_lt.1 hlong) u v

/-- CONSTRUCT keeps nothing of either buffer. -/
theorem execConstruct_withContents (n m interval u v : Nat) (s : State) :
    execConstruct n m interval (s.withContents u v) = execConstruct n m interval s := rfl

/-- An instruction has the same answer whatever the unspecified contents are. -/
theorem exec_withContents {s : State} (h : Inv s) (u v : Nat) (i : Instr) :
    SameAnswer (exec i s) (exec i (s.withContents u v)) := by
  have ofByte : ∀ b, SameAnswer (receiveByte b s) (receiveByte b (s.withContents u v)) := fun b =>
    sameAnswer_of_eq (receiveByte_withContents h u v b)
  have ofFrame : ∀ d, SameAnswer (receiveFrame d s) (receiveFrame d (s.withContents u v)) := fun d =>
    sameAnswer_of_eq (receiveFrame_withContents u v d s)
  cases i with
  | construct n m interval => exact sameAnswer_of_unchanged (execConstruct_withContents n m interval u v s)
  | send p => exact sameAnswer_of_eq (execSend_withContents h p u v)
  | pollTx now =>
    exact sameAnswer_of_eq
      ((congrArg _ (txMicro_withContents (h.begin _) u v now)).trans (whenFree_withContents u v s _))
  | pollRx =>
    exact sameAnswer_of_eq ((congrArg _ (rxMicro_withContents (h.begin _) u v)).trans (whenFree_withContents u v s _))
  | isIdle => exact sameAnswer_of_eq (whenFree_withContents u v s (.next (finish (.okBool (idleStatus s)) s)))
  | reservedCmd code => exact sameAnswer_of_unchanged rfl
  | frameI len p crc => exact ofFrame _
  | frameAck len p crc => exact ofFrame _
  | frameNack len p crc => exact ofFrame _
  | frameBadHeader hdr len p crc => exact ofFrame _
  | wireDelim => exact ofByte 0x00#8
  | wireCode b => exact ofByte b
  | wireCodeChain => exact ofByte 0xFF#8
  | wireData b => exact ofByte b

/-- A step has the same answer whatever the unspecified contents are. -/
theorem step_withContents {s : State} (h : Inv s) (u v : Nat) :
    SameAnswer (step s) (step (s.withContents u v)) := by
  unfold step
  rw [withContents_txState, withContents_curOp, if_neg h.neverWaitingRetry, if_neg h.neverWaitingRetry]
  cases s.curOp with
  | pollTx now => exact sameAnswer_of_eq (txMicro_withContents h u v now)
  | pollRx => exact sameAnswer_of_eq (rxMicro_withContents h u v)
  | none =>
    rcases fetch_cases s with ⟨hnone, e⟩ | ⟨c, rest, hsome, e⟩
    · have e' : fetch (s.withContents u v) = none := by simp [fetch, hnone]
      rw [e, e']
      exact sameAnswer_of_eq (u := u) (v := v) rfl
    · have e' : fetch (s.withContents u v) = some (c, { s with requests := rest }.withContents u v) := by
        simp only [fetch, withContents_requests, hsome]; rfl
      simp only [e, e']
      cases decodeCommand c with
      | error err => exact sameAnswer_of_unchanged rfl
      | ok i => exact exec_withContents (h.withRequests rest) u v i

/-- Settles O53: a step and an instruction each have the same answer with other unspecified contents. -/
theorem unspecifiedBytesAreNeverRead : Obligations.UnspecifiedBytesAreNeverRead := by
  intro u v s h
  obtain ⟨hstepNext, hstepRefused⟩ := step_withContents h u v
  exact ⟨hstepNext, hstepRefused, fun i => (exec_withContents h u v i).1, fun i => (exec_withContents h u v i).2⟩

end Sys2Proof.Machine

namespace Sys2Proof.Machine

/-! ## No fault, and the buffers (20_memory.md R46, R53) -/

theorem Keeps.ne_fault {s : State} {o : Out} (h : Keeps s o) (f : Fault) : o ≠ .fault f := by
  rintro rfl
  rcases h with ⟨t, ht, -⟩ | ⟨r, hr⟩
  · cases ht
  · cases hr

/-- Settles O47: what completes or is refused is no fault. -/
theorem nothingFaultsWhereTheInvariantHolds : Obligations.NothingFaultsWhereTheInvariantHolds :=
  fun _ f h => ⟨h.step.ne_fault f, fun i => (h.exec i).ne_fault f⟩

theorem Memory.get_of_not_written (m : Memory) (i : Nat) (h : m.written i = false) :
    m.get i = Config.freeByte m.contents i := by
  have hcell : cellAt m.cells i = none := by simpa [Memory.written] using h
  simp [Memory.get, hcell]

theorem readByte_out_of_range {len i : Nat} (h : len ≤ i) (m : Memory) :
    readByte len m i = .error .indexOutOfRange := if_neg (Nat.not_lt.2 h)

theorem writeByte_out_of_range {len i : Nat} (h : len ≤ i) (m : Memory) (v : Byte) :
    writeByte len m i v = .error .indexOutOfRange := if_neg (Nat.not_lt.2 h)

/-- Settles O52: in range a write is `Memory.set`, which changes the byte at its index alone. -/
theorem bufferAccess : Obligations.BufferAccess := by
  intro len m i v
  refine ⟨fun hi => (readByte_eq_ok len m i _).2 ⟨hi, rfl⟩, m.get_of_not_written i, fun hi => ?_,
    fun hi => ⟨readByte_out_of_range hi m, writeByte_out_of_range hi m v⟩⟩
  exact ⟨m.set i v, (writeByte_eq_ok len m _ i v).2 ⟨hi, rfl⟩, m.get_set_same i v, by simp, m.set_contents i v,
    fun a ha => ⟨m.get_set_other i a v ha, by simp [ha]⟩⟩

end Sys2Proof.Machine

namespace Sys2Proof.Machine

/-! ## An attempt, byte by byte (42_arq_tx.md R132, R133) -/

/-- The encoder is DONE when the whole wire frame has been accepted, and not before (40_cobs.md R87). -/
theorem encAfter_phase_done_iff {S : List Byte} (hS : S.length ≤ 259) {k : Nat} (hk : k ≤ (wireFrame S).length) :
    (encAfter S k).phase = .done ↔ k = (wireFrame S).length := by
  refine ⟨fun hdone => by_contra fun hne => ?_, fun heq => heq ▸ (emits_wireFrame S hS).2⟩
  have hpeek := encPeek_encAfter S hS k (by omega)
  simp [encPeek, hdone] at hpeek

/-- In Sending the I-frame is selected while it is in progress, and starts while no S-frame is queued
(42_arq_tx.md R130). -/
theorem select_iFrame (now : Instant) {s : State} (hs : s.txState = .sending) (hidx : s.sIdx = 0#3)
    (hfree : s.txCursor ≠ 0#9 ∨ s.sqValid = false) :
    select now s = (some .iCont, s) ∨ select now s = (some .iStart, s) := by
  rcases select_cases now s with ⟨hs', -⟩ | ⟨-, -, -, e⟩ | ⟨-, hno, hq, -⟩ | ⟨-, -, -, -, e⟩ | ⟨-, hs', -⟩ |
    ⟨-, hs', -⟩
  · exact absurd hidx hs'
  · exact .inl e
  · rcases hfree with hcursor | hnone
    · exact absurd ⟨hs, hcursor⟩ hno
    · exact absurd (hq.symm.trans hnone) (by decide)
  · exact .inr e
  · exact absurd (hs.symm.trans hs') (by decide)
  · exact absurd hs hs'

/-- The state after the I-frame byte `b` has been accepted, less what completes an attempt (42_arq_tx.md R132). -/
def byteAccepted (S : List Byte) (b : Byte) (rest : List TxResponse) (s : State) : State :=
  { s with
    enc := encAdvance S s.enc
    txCursor := s.txCursor + 1#9
    txWire := s.txWire ++ [b]
    txScript := rest }

/-- A micro-step of POLL_TX whose I-frame byte the transport accepts (42_arq_tx.md R132, R133). -/
theorem txMicro_iFrame (now : Instant) {s : State} {S : List Byte} {b : Byte} {rest : List TxResponse}
    (hs : s.txState = .sending) (hidx : s.sIdx = 0#3) (hfree : s.txCursor ≠ 0#9 ∨ s.sqValid = false)
    (hS : txSource s = .ok S) (hpeek : encPeek S s.enc = .ok b) (hscript : s.txScript = .ready :: rest) :
    txMicro now s = .next (if (encAdvance S s.enc).phase = .done
      then finish .ok (attemptComplete now (byteAccepted S b rest s)) else byteAccepted S b rest s) := by
  have hoffer : offerI s = .ok b := by simp [offerI, hS, hpeek]
  have hdraw : drawTx s = (.ready, { s with txScript := rest }) := by simp [drawTx, hscript]
  have hmicro : txMicro now s = orFault (acceptI now (putOnWire b { s with txScript := rest })) := by
    rcases select_iFrame now hs hidx hfree with e | e
    · simp only [txMicro, e, offer, hoffer, hdraw, accept]
    · simp only [txMicro, e, offer, hoffer, hdraw, accept]
  have hS' : txSource (putOnWire b { s with txScript := rest }) = .ok S := hS
  rw [hmicro]
  by_cases hdone : (encAdvance S s.enc).phase = .done
  · simp only [acceptI, hS', putOnWire_enc, hdone, if_true]; rfl
  · simp only [acceptI, hS', putOnWire_enc, hdone, if_false]; rfl

/-- While Sending, the encoder stands inside the wire frame of this source. -/
theorem Inv.encoder_of_source {s : State} (h : Inv s) (hs : s.txState = .sending) {S : List Byte}
    (hS : txSource s = .ok S) :
    S.length ≤ 259 ∧ s.enc = encAfter S s.txCursor.toNat ∧ s.txCursor.toNat < (wireFrame S).length := by
  obtain ⟨S', hS', hencoder⟩ := h.encoder hs
  obtain rfl : S' = S := by simpa using hS'.symm.trans hS
  exact hencoder

/-- The I-frame byte accepted is the byte of the wire frame at `tx_cursor`, and the last one completes the attempt. -/
theorem Inv.txMicro_wireByte {s : State} (h : Inv s) (now : Instant) {S : List Byte} {rest : List TxResponse}
    (hs : s.txState = .sending) (hidx : s.sIdx = 0#3) (hfree : s.txCursor ≠ 0#9 ∨ s.sqValid = false)
    (hS : txSource s = .ok S) (hscript : s.txScript = .ready :: rest) :
    ∃ hlt : s.txCursor.toNat < (wireFrame S).length,
      Machine.txMicro now s = .next (if s.txCursor.toNat + 1 = (wireFrame S).length
        then Machine.finish .ok
          (Machine.attemptComplete now (byteAccepted S (wireFrame S)[s.txCursor.toNat] rest s))
        else byteAccepted S (wireFrame S)[s.txCursor.toNat] rest s) := by
  obtain ⟨hlen, henc, hlt⟩ := h.encoder_of_source hs hS
  have hpeek : encPeek S s.enc = .ok (wireFrame S)[s.txCursor.toNat] := by
    rw [henc]; exact encPeek_encAfter S hlen _ hlt
  have hdone : (encAdvance S s.enc).phase = .done ↔ s.txCursor.toNat + 1 = (wireFrame S).length := by
    rw [henc]; exact encAfter_phase_done_iff hlen hlt
  exact ⟨hlt, by simp only [txMicro_iFrame now hs hidx hfree hS hpeek hscript, hdone]⟩

theorem step_of_pollTx {s : State} {now : Instant} (h : s.curOp = .pollTx now) (hs : s.txState ≠ .waitingRetry) :
    step s = txMicro now s := by
  simp [step, h, hs]

/-- The state after what is left of the attempt has been accepted (42_arq_tx.md R133). -/
def attemptDone (now : Instant) (S : List Byte) (rest : List TxResponse) (s : State) : State :=
  finish .ok (attemptComplete now { s with
    enc := encAfter S (wireFrame S).length
    txWire := s.txWire ++ (wireFrame S).drop s.txCursor.toNat
    txScript := rest })

/-- An accepted byte that is not the last leaves one byte less for the same end. -/
theorem attemptDone_byteAccepted (now : Instant) {S : List Byte} (rest rest' : List TxResponse) {s : State}
    (hlt : s.txCursor.toNat < (wireFrame S).length)
    (hcursor : (s.txCursor + 1#9).toNat = s.txCursor.toNat + 1) :
    attemptDone now S rest (byteAccepted S (wireFrame S)[s.txCursor.toNat] rest' s) = attemptDone now S rest s := by
  have hwire : s.txWire ++ (wireFrame S).drop s.txCursor.toNat =
      s.txWire ++ [(wireFrame S)[s.txCursor.toNat]] ++ (wireFrame S).drop (s.txCursor + 1#9).toNat := by
    rw [hcursor, List.drop_eq_getElem_cons hlt, List.append_assoc, List.singleton_append]
  rw [attemptDone, attemptDone, hwire]
  rfl

/-- From anywhere inside an attempt, the rest of the wire frame is put on the wire, and the attempt is complete when all
of it has been accepted. -/
theorem Inv.run_attempt {now : Instant} {S : List Byte} {rest : List TxResponse} (n : Nat) :
    ∀ {s : State}, Inv s → s.curOp = .pollTx now → s.txState = .sending → s.sIdx = 0#3 →
      (s.txCursor ≠ 0#9 ∨ s.sqValid = false) → txSource s = .ok S →
      s.txCursor.toNat + (n + 1) = (wireFrame S).length → s.txScript = List.replicate (n + 1) .ready ++ rest →
      run (n + 1) s = .next (attemptDone now S rest s) := by
  induction n with
  | zero =>
    intro s h hop hs hidx hfree hS hend hscript
    obtain ⟨-, henc, -⟩ := h.encoder_of_source hs hS
    obtain ⟨hlt, hbyte⟩ := h.txMicro_wireByte now hs hidx hfree hS hscript
    rw [if_pos hend, ← step_of_pollTx hop h.neverWaitingRetry] at hbyte
    have hlast : encAdvance S s.enc = encAfter S (wireFrame S).length := by rw [henc, ← hend]; rfl
    have hwire : (wireFrame S).drop s.txCursor.toNat = [(wireFrame S)[s.txCursor.toNat]] := by
      rw [List.drop_eq_getElem_cons hlt, List.drop_eq_nil_of_le hend.ge]
    rw [run_succ _ _ _ hbyte, run_zero, attemptDone, hwire, ← hlast]
    rfl
  | succ n ih =>
    intro s h hop hs hidx hfree hS hend hscript
    have hwireLen := wireFrame_length_le S (h.encoder_of_source hs hS).1
    obtain ⟨hlt, hbyte⟩ := h.txMicro_wireByte now hs hidx hfree hS hscript
    rw [if_neg (by omega), ← step_of_pollTx hop h.neverWaitingRetry] at hbyte
    have hcursor : (s.txCursor + 1#9).toNat = s.txCursor.toNat + 1 := by bv_omega
    have hinside : s.txCursor + 1#9 ≠ 0#9 := by bv_omega
    rw [run_succ _ _ _ hbyte, ← attemptDone_byteAccepted now rest _ hlt hcursor]
    exact ih (stepKeepsTheInvariant s _ h hbyte).1 hop hs hidx (.inl hinside) hS
      (by simp only [byteAccepted, hcursor]; omega) rfl

/-- Settles O14: the attempt run from its first byte. -/
theorem attemptEmitsTheWireFrame : Obligations.AttemptEmitsTheWireFrame := by
  intro now s S rest h hop hidx hnone hs hcursor hS hscript
  obtain ⟨n, hn⟩ := Nat.exists_eq_succ_of_ne_zero (wireFrame_length_pos S).ne'
  obtain ⟨hlen, -⟩ := h.encoder_of_source hs hS
  refine ⟨encAfter S (wireFrame S).length, (emits_wireFrame S hlen).2, ?_⟩
  have hrun := h.run_attempt n hop hs hidx (.inr hnone) hS (by simp [hcursor, hn]) (hn ▸ hscript)
  rw [attemptDone, hcursor, BitVec.toNat_zero, List.drop_zero, ← Nat.succ_eq_add_one, ← hn] at hrun
  exact hrun

end Sys2Proof.Machine

namespace Sys2Proof

open Sys2Proof.Machine

/-! ## Decoding and encoding are inverse (30_encoding.md R60 to R74) -/

/-! ### Host command words -/

/-- A code of `0x05` or more is reserved, whatever its operands (30_encoding.md R74). -/
theorem decodeCommand_reserved {code : Byte} (h : 5 ≤ code.toNat) (operands : List Operand) :
    decodeCommand ⟨code, operands⟩ = .ok (.reservedCmd code) := by
  have hne : ∀ b : Byte, b.toNat < 5 → code ≠ b := by rintro b hb rfl; omega
  simp [decodeCommand, hne]

/-- What a command word decodes to is encoded as that word, but for a reserved code (30_encoding.md R73, R74). -/
theorem encode_of_decodeCommand {c : Command} {i : Instr} (h : decodeCommand c = .ok i) :
    encode i = .command c ∨ (i = .reservedCmd c.cmd ∧ 5 ≤ c.cmd.toNat) := by
  obtain ⟨cmd, operands⟩ := c
  simp only [decodeCommand] at h
  split_ifs at h
  pick_goal 6
  · cases h
    exact .inr ⟨rfl, by bv_omega⟩
  all_goals
    subst cmd
    split at h
    · cases h; exact .inl rfl
    · cases h

/-! ### Frames -/

/-- A frame whose header is none of the three has the bad-header row (30_encoding.md R62). -/
theorem frameInstr_badHeader {f : Frame} (h1 : f.hdr ≠ 0x01#8) (h2 : f.hdr ≠ 0x02#8) (h3 : f.hdr ≠ 0x03#8) :
    frameInstr f = .frameBadHeader f.hdr f.len f.payload f.crc := by
  simp [frameInstr, h1, h2, h3]

theorem decodeFrame_frameBytes (f : Frame) : decodeFrame (frameBytes f) = .ok (frameInstr f) := by
  simp [decodeFrame, parseFrame_frameBytes]

/-- A frame row is encoded as the bytes of its frame. -/
theorem encode_frameInstr (f : Frame) : encode (frameInstr f) = .frame (frameBytes f) := by
  obtain ⟨hdr, len, p, crc⟩ := f
  simp only [frameInstr]
  split_ifs with h1 h2 h3
  · rw [h1]; rfl
  · rw [h2]; rfl
  · rw [h3]; rfl
  · rfl

theorem encode_of_decodeFrame {d : List Byte} {i : Instr} (h : decodeFrame d = .ok i) : encode i = .frame d := by
  cases hparse : parseFrame d with
  | error e => simp [decodeFrame, hparse] at h
  | ok f =>
    obtain rfl : frameInstr f = i := by simpa [decodeFrame, hparse] using h
    rw [encode_frameInstr, frameBytes_of_parseFrame d f hparse]

/-! ### Wire bytes -/

/-- A wire byte that is no delimiter is encoded as itself, in the position it was in (30_encoding.md R66). -/
theorem encode_decodeWire (pos : WirePos) {b : Byte} (h : b ≠ 0x00#8) : encode (decodeWire pos b) = .wire pos b := by
  cases pos with
  | dataDue => simp [decodeWire, h, encode]
  | codeDue =>
    by_cases hchain : b = 0xFF#8
    · rw [hchain]; rfl
    · simp [decodeWire, h, hchain, encode]

/-! ### The round trips -/

/-- Settles O49: each row's encoding is decoded by its own branch, which the row's well-formedness selects. -/
theorem decodeOfEncode : Obligations.DecodeOfEncode := by
  intro i h
  cases i with
  | construct n m interval => rfl
  | send p => rfl
  | pollTx now => rfl
  | pollRx => rfl
  | isIdle => rfl
  | reservedCmd code => exact decodeCommand_reserved (of_decide_eq_true h) []
  | frameI len p crc => exact decodeFrame_frameBytes ⟨0x01#8, len, p, crc⟩
  | frameAck len p crc => exact decodeFrame_frameBytes ⟨0x02#8, len, p, crc⟩
  | frameNack len p crc => exact decodeFrame_frameBytes ⟨0x03#8, len, p, crc⟩
  | frameBadHeader hdr len p crc =>
    obtain ⟨⟨h1, h2⟩, h3⟩ : (hdr ≠ 0x01#8 ∧ hdr ≠ 0x02#8) ∧ hdr ≠ 0x03#8 := by simpa [Instr.wellFormed] using h
    rw [← frameInstr_badHeader (f := ⟨hdr, len, p, crc⟩) h1 h2 h3, encode_frameInstr]
    exact decodeFrame_frameBytes _
  | wireDelim => rfl
  | wireCode b =>
    obtain ⟨hzero, hchain⟩ : b ≠ 0x00#8 ∧ b ≠ 0xFF#8 := by simpa [Instr.wellFormed] using h
    simp [encode, decode, decodeWire, hzero, hchain]
  | wireCodeChain => rfl
  | wireData b =>
    have hzero : b ≠ 0x00#8 := by simpa [Instr.wellFormed] using h
    simp [encode, decode, decodeWire, hzero]

/-- Settles O50, by the space the encoding is of; only a reserved code and a delimiter lose something. -/
theorem encodeOfDecode : Obligations.EncodeOfDecode := by
  intro e i h
  cases e with
  | command c =>
    rcases encode_of_decodeCommand h with hword | ⟨hreserved, hcode⟩
    · exact .inl hword
    · exact .inr (.inl ⟨c, rfl, hreserved, hcode⟩)
  | frame d => exact .inl (encode_of_decodeFrame h)
  | wire pos b =>
    obtain rfl : decodeWire pos b = i := Except.ok.inj h
    by_cases hzero : b = 0x00#8
    · subst hzero
      cases pos with
      | codeDue => exact .inl rfl
      | dataDue => exact .inr (.inr ⟨rfl, rfl⟩)
    · exact .inl (encode_decodeWire pos hzero)

/-- Settles O51: every word is a closed term that its decoder evaluates. -/
theorem encodingsWrittenOut : Obligations.EncodingsWrittenOut :=
  ⟨rfl, rfl, rfl, rfl, rfl, rfl, rfl, rfl, rfl, rfl, rfl, rfl, rfl, rfl, rfl⟩

end Sys2Proof

namespace Sys2Proof.Machine

/-! ## A decoded request is run (44_host_ops.md R170) -/

/-- With no operation in progress, the host's next request is what a step runs. -/
theorem step_of_request {s : State} {c : Command} {rest : List Command} {i : Instr} (hs : s.txState ≠ .waitingRetry)
    (hop : s.curOp = .none) (hrequests : s.requests = c :: rest) (hdecode : decodeCommand c = .ok i) :
    step s = exec i { s with requests := rest } := by
  simp [step, hs, hop, fetch, hrequests, hdecode]

/-- Settles O7: a reserved code decodes to RESERVED_CMD, whose meaning is the refusal. -/
theorem reservedCodesAreRefused : Obligations.ReservedCodesAreRefused := by
  intro code operands s hcode
  have hdecode := decodeCommand_reserved hcode operands
  exact ⟨hdecode, rfl, fun rest hs hop hrequests => step_of_request hs hop hrequests hdecode⟩

theorem decodeTableWord_eq_some {nbits w : Nat} {i : Instr} (h : decodeTableWord nbits w = some i) :
    decodeCommand (tableCommand nbits w) = .ok i := by
  unfold decodeTableWord at h
  cases hdecode : decodeCommand (tableCommand nbits w) with
  | error e => simp [hdecode] at h
  | ok j => simpa [hdecode] using h

/-- Settles O41: the placed word is the host's next request. -/
theorem fetchWordIsRun : Obligations.FetchWordIsRun :=
  fun s nbits w _ hs h => step_of_request (s := s.withFetchWord nbits w) hs rfl rfl (decodeTableWord_eq_some h)

end Sys2Proof.Machine

namespace Sys2Proof.Machine

/-! ## Wire frames: their length, and the S-frames' (30_encoding.md R69, R70) -/

/-- A zero-free run that is not full has one code byte. -/
theorem codeByteCount_last {r : List Byte} (nonZero : 0x00#8 ∉ r) (short : r.length < 254) :
    codeByteCount r = 1 := by
  obtain ⟨S, rest, hempty, hseg⟩ := segments_append r [] nonZero
  obtain ⟨rfl, rfl⟩ : [] = S ∧ [] = rest := by simpa [segments] using hempty
  simp only [List.append_nil] at hseg
  simp [codeByteCount, hseg, Nat.div_eq_of_lt short]

/-- A full run adds one code byte to the segment that it starts. -/
theorem codeByteCount_chain {r : List Byte} (F : List Byte) (nonZero : 0x00#8 ∉ r) (full : r.length = 254) :
    codeByteCount (r ++ F) = codeByteCount F + 1 := by
  obtain ⟨S, rest, hF, hseg⟩ := segments_append r F nonZero
  simp only [codeByteCount, hseg, hF, List.map_cons, List.sum_cons, List.length_append, full]
  omega

/-- A run that a zero ends is a segment with one code byte. -/
theorem codeByteCount_zero {r : List Byte} (F : List Byte) (nonZero : 0x00#8 ∉ r) (short : r.length < 254) :
    codeByteCount (r ++ 0x00#8 :: F) = codeByteCount F + 1 := by
  obtain ⟨S, rest, hzero, hseg⟩ := segments_append r (0x00#8 :: F) nonZero
  obtain ⟨rfl, rfl⟩ : [] = S ∧ segments F = rest := by simpa [segments] using hzero
  simp only [codeByteCount, hseg, List.map_cons, List.sum_cons, List.append_nil, Nat.div_eq_of_lt short]
  omega

/-- Each run emits one code byte, and drops the zero that ends it (30_encoding.md R69). -/
theorem Runs.length_add_count {F out : List Byte} (runs : Runs F out) :
    out.length + F.count 0x00#8 = F.length + codeByteCount F := by
  induction runs with
  | last r nonZero short =>
    rw [codeByteCount_last nonZero short, List.count_eq_zero.2 nonZero]; rfl
  | chain r F out nonZero full rest ih =>
    rw [codeByteCount_chain F nonZero full, List.count_append, List.count_eq_zero.2 nonZero]
    simp only [List.length_cons, List.length_append]
    omega
  | zero r F out nonZero short rest ih =>
    rw [codeByteCount_zero F nonZero short, List.count_append, List.count_eq_zero.2 nonZero, List.count_cons_self]
    simp only [List.length_cons, List.length_append]
    omega

/-- An encoding is longer than its source. -/
theorem Runs.length_lt {F out : List Byte} (runs : Runs F out) : F.length < out.length := by
  induction runs with
  | last r nonZero short => simp
  | chain r F out nonZero full rest ih => simp only [List.length_cons, List.length_append]; omega
  | zero r F out nonZero short rest ih => simp only [List.length_cons, List.length_append]; omega

theorem wireFrame_length (F : List Byte) : (wireFrame F).length = (cobsEncode F).length + 1 := by
  simp [wireFrame]

/-- Settles O20: the encoding's length counted run by run, and the delimiter. -/
theorem wireFrameLength : Obligations.WireFrameLength := by
  intro F
  have hcount := (cobsEncode_runs F).length_add_count
  have hlower := (cobsEncode_runs F).length_lt
  refine ⟨by rw [wireFrame_length]; omega, fun hmin hmax => ⟨?_, wireFrame_length_le F hmax⟩⟩
  rw [wireFrame_length]
  omega

/-- The CRC of the ACK's header and length (30_encoding.md R70). -/
theorem crc_ack : crc16X25 [0x02#8, 0x00#8] = 0x3CF7#16 := by decide +kernel

/-- The CRC of the NACK's header and length (30_encoding.md R70). -/
theorem crc_nack : crc16X25 [0x03#8, 0x00#8] = 0x252F#16 := by decide +kernel

theorem sFrame_ack : sFrame .ack = [0x02#8, 0x00#8, 0x3C#8, 0xF7#8] := by
  simp only [sFrame, SKind.header, crc_ack]; rfl

theorem sFrame_nack : sFrame .nack = [0x03#8, 0x00#8, 0x25#8, 0x2F#8] := by
  simp only [sFrame, SKind.header, crc_nack]; rfl

/-- The transmitter's constant is the wire frame of the S-frame (42_arq_tx.md R126). -/
theorem wireFrame_sFrame (k : SKind) : wireFrame (sFrame k) = sBytes k := by
  cases k with
  | ack => rw [sFrame_ack]; decide
  | nack => rw [sFrame_nack]; decide

/-- Settles O24: the two CRCs give the frames, and the frames the transmitter's constants. -/
theorem sFrameConstants : Obligations.SFrameConstants :=
  ⟨sFrame_ack, crc_ack, wireFrame_sFrame .ack, sFrame_nack, crc_nack, wireFrame_sFrame .nack,
    fun k => (wireFrame_sFrame k).symm⟩

end Sys2Proof.Machine

namespace Sys2Proof.Machine

/-! ## What the decoder accepts, and what is malformed (30_encoding.md R71, R72) -/

theorem decRun_delimiter (s : State) : decRun [0x00#8] s = .ok ([delimEvent s], decReset s) := rfl

/-- At the end of a `0xFF` run a superfluous `0x01` run does not change what the delimiter does. -/
theorem decRun_emptyRun_afterChain {s : State} (hcnt : s.decCnt = 0#8) (hcode : s.decCode = 0xFF#8) :
    decRun [0x01#8, 0x00#8] s = .ok ([.none, delimEvent s], decReset s) := by
  have hrun : decRun [0x01#8] s = .ok ([.none], startRun 0x01#8 s) := by
    simp [decRun, decStep, hcode, hcnt]
  have hevent : delimEvent (startRun 0x01#8 s) = delimEvent s := by
    simp [delimEvent, startRun, hcode, hcnt]
  rw [← hevent]
  exact decRun_append [0x01#8] [0x00#8] _ _ _ _ _ hrun (decRun_delimiter _)

/-- Settles O21: a `0xFF` run leaves no zero pending, and a shorter one leaves the zero that the `0x01` run stores. -/
theorem decoderAcceptsNonCanonicalEnds : Obligations.DecoderAcceptsNonCanonicalEnds := by
  intro s hcnt
  refine ⟨fun hcode ev t => ?_, fun hstarted hcode hoverflow hroom => ?_⟩
  · simp [decRun_emptyRun_afterChain hcnt hcode, decRun_delimiter]
  · have hpending : pendingZero s = [0x00#8] := if_pos ⟨hstarted, hcode⟩
    have hrun := decRun_run 0x01#8 [] (by simp) (by decide) rfl s hcnt hoverflow (by simp [hpending]; omega)
    rw [hpending] at hrun
    have hend := decRun_append _ [0x00#8] _ _ _ _ _ hrun (decRun_delimiter _)
    refine ⟨_, by simpa [delimEvent, hoverflow] using hend, ?_, fun a ha => ?_⟩
    · simp [Memory.store]
    · simp [Memory.store, Memory.get_set_other _ _ _ _ ha]

/-- A delimiter ends the frame with its event, and the decoder is reset (40_cobs.md R92). -/
theorem exec_wireDelim (s : State) : exec .wireDelim s = onEvent (delimEvent s) (decReset s) := rfl

theorem exec_wireDelim_of_malformed {s : State} {cause : Cause} (h : delimEvent s = .malformed cause) :
    exec .wireDelim s = .next (nackQueued (decReset s)) := by
  rw [exec_wireDelim, h]; rfl

/-- A completed frame of fewer than 4 bytes is malformed, cause SHORT (43_arq_rx.md R152). -/
theorem onEvent_complete_short {s : State} {L : Nat} (hshort : L < 4) (hfits : L ≤ s.M) :
    onEvent (.complete L) s = .next (nackQueued s) := by
  have hread := readBytes_in s.M s.rxBuffer L 0 (by omega)
  simp only [onEvent, hread]
  rw [runFrame_eq_receiveFrame, if_pos (by simpa using hshort)]
  rfl

/-- A check that a frame fails, in the order of 43_arq_rx.md R152. -/
def FailsCheck (f : Frame) : Prop :=
  (f.hdr ≠ 0x01#8 ∧ f.hdr ≠ 0x02#8 ∧ f.hdr ≠ 0x03#8) ∨ f.payload.length ≠ f.len.toNat ∨
  crc16X25 (f.hdr :: f.len :: f.payload) ≠ f.crc ∨ (f.hdr ≠ 0x01#8 ∧ f.len ≠ 0#8)

/-- Whichever check fails, and whichever others fail before it, the verdict is malformed. -/
theorem validate_of_failsCheck {f : Frame} (h : FailsCheck f) :
    ∃ cause, validate (frameBytes f) = .malformed cause := by
  rw [validate_frameBytes]
  by_cases hhdr : f.hdr ≠ 0x01#8 ∧ f.hdr ≠ 0x02#8 ∧ f.hdr ≠ 0x03#8
  · exact ⟨_, if_pos hhdr⟩
  rw [if_neg hhdr]
  by_cases hlen : f.payload.length + 4 ≠ f.len.toNat + 4
  · exact ⟨_, if_pos hlen⟩
  rw [if_neg hlen]
  by_cases hcrc : crc16X25 (f.hdr :: f.len :: f.payload) ≠ f.crc
  · exact ⟨_, if_pos hcrc⟩
  rw [if_neg hcrc]
  have hsLen : f.hdr ≠ 0x01#8 ∧ f.len ≠ 0#8 := by
    rcases h with h | h | h | h
    · exact absurd h hhdr
    · omega
    · exact absurd h hcrc
    · exact h
  exact ⟨_, if_pos hsLen⟩

/-- A frame that is malformed or too long queues a NACK and changes nothing else (43_arq_rx.md R157). -/
theorem receiveFrame_malformed {d : List Byte} {s : State}
    (h : s.M < d.length ∨ ∃ cause, validate d = .malformed cause) :
    receiveFrame d s = .next (nackQueued s) := by
  have hverdict : ∃ cause, frameVerdict d s = .malformed cause := by
    by_cases hlong : s.M < d.length
    · exact ⟨_, if_pos hlong⟩
    · obtain ⟨cause, hcause⟩ := h.resolve_left hlong
      exact ⟨cause, (if_neg hlong).trans hcause⟩
  obtain ⟨cause, hcause⟩ := hverdict
  rw [receiveFrame, hcause]
  rfl

theorem receiveFrame_of_failsCheck {f : Frame} (h : FailsCheck f) (s : State) :
    receiveFrame (frameBytes f) s = .next (nackQueued s) :=
  receiveFrame_malformed (.inr (validate_of_failsCheck h))

/-- Settles O34: a delimiter by its event, a frame row by the check it fails. -/
theorem malformedFramesQueueANack : Obligations.MalformedFramesQueueANack := by
  intro s
  refine ⟨fun hcode => ?empty, fun hcode hcnt => ?truncated, fun hcode hcnt hoverflow => ?overflowed,
    fun f hlong => ?long, fun hcode hcnt hoverflow hshort hfits => ?short, fun hdr len p crc h1 h2 h3 => ?header,
    fun f hlen => ?length, fun f hcrc => ?crc, fun len p crc hlen => ⟨?ack, ?nack⟩⟩
  case empty => exact exec_wireDelim_of_malformed (cause := .empty) (by simp [delimEvent, hcode])
  case truncated => exact exec_wireDelim_of_malformed (cause := .truncated) (by simp [delimEvent, hcode, hcnt])
  case overflowed =>
    exact exec_wireDelim_of_malformed (cause := .overflow) (by simp [delimEvent, hcode, hcnt, hoverflow])
  case long =>
    rw [exec_frameInstr]
    exact receiveFrame_malformed (.inl (by rwa [frameBytes_length]))
  case short =>
    have hevent : delimEvent s = .complete s.rxCursor := by simp [delimEvent, hcode, hcnt, hoverflow]
    rw [exec_wireDelim, hevent]
    exact onEvent_complete_short hshort hfits
  case header => exact receiveFrame_of_failsCheck (f := ⟨hdr, len, p, crc⟩) (.inl ⟨h1, h2, h3⟩) s
  case length =>
    rw [exec_frameInstr]
    exact receiveFrame_of_failsCheck (.inr (.inl hlen)) s
  case crc =>
    rw [exec_frameInstr]
    exact receiveFrame_of_failsCheck (.inr (.inr (.inl hcrc))) s
  case ack =>
    exact receiveFrame_of_failsCheck (f := ⟨0x02#8, len, p, crc⟩) (.inr (.inr (.inr ⟨(by decide : (0x02#8 : Byte) ≠ 0x01#8), hlen⟩))) s
  case nack =>
    exact receiveFrame_of_failsCheck (f := ⟨0x03#8, len, p, crc⟩) (.inr (.inr (.inr ⟨(by decide : (0x03#8 : Byte) ≠ 0x01#8), hlen⟩))) s

end Sys2Proof.Machine

namespace Sys2Proof.Machine

/-! ## The decoder inverts `cobs_encode` (40_cobs.md R82 (b), R98) -/

/-- The decoder at the end of a run with the code byte `c`, after `bs` have been stored. -/
def runEnded (bs : List Byte) (c : Byte) (s : State) : State :=
  { s with rxBuffer := s.rxBuffer.store s.rxCursor bs, rxCursor := s.rxCursor + bs.length, decCode := c, decCnt := 0#8 }

/-- Two runs store their bytes in a row. -/
theorem runEnded_runEnded (a b : List Byte) (c d : Byte) (s : State) :
    runEnded b d (runEnded a c s) = runEnded (a ++ b) d s := by
  simp [runEnded, Memory.store_append, Nat.add_assoc]

/-- A run and then an encoding of what is left: the bytes that each stores, in a row, and no event. -/
theorem decRun_run_append {b : Byte} {r out G : List Byte} {s : State} {c : Byte}
    (hrun : decRun (b :: r) s = .ok (List.replicate (b :: r).length .none, runEnded (pendingZero s ++ r) b s))
    (hrest : decRun out (runEnded (pendingZero s ++ r) b s) =
      .ok (List.replicate out.length .none, runEnded G c (runEnded (pendingZero s ++ r) b s))) :
    decRun (b :: (r ++ out)) s =
      .ok (List.replicate (b :: (r ++ out)).length .none, runEnded (pendingZero s ++ (r ++ G)) c s) := by
  have happend := decRun_append _ _ _ _ _ _ _ hrun hrest
  rwa [List.replicate_append_replicate, ← List.length_append, runEnded_runEnded, List.append_assoc,
    List.cons_append] at happend

/-- From the end of any run, an encoding that fits the buffer stores the zero that is pending and its source, gives no
event, and ends at the end of a run. -/
theorem decRun_runs {F out : List Byte} (runs : Runs F out) :
    ∀ s : State, s.decCnt = 0#8 → s.rxOverflow = false → s.rxCursor + (pendingZero s ++ F).length ≤ s.M →
      ∃ c : Byte, c ≠ 0#8 ∧
        decRun out s = .ok (List.replicate out.length .none, runEnded (pendingZero s ++ F) c s) := by
  induction runs with
  | last r nonZero short =>
    intro s hcnt hoverflow hfits
    obtain ⟨hzero, -, hlength⟩ := codeByte_short r.length short
    exact ⟨_, hzero, decRun_run _ r nonZero hzero hlength s hcnt hoverflow hfits⟩
  | chain r F out nonZero full rest ih =>
    intro s hcnt hoverflow hfits
    rw [← List.append_assoc, List.length_append, ← Nat.add_assoc] at hfits
    have hrun := decRun_run 0xFF#8 r nonZero (by decide) full.symm s hcnt hoverflow (by omega)
    have hpending : pendingZero (runEnded (pendingZero s ++ r) 0xFF#8 s) = [] := rfl
    obtain ⟨c, hc, hrest⟩ := ih (runEnded (pendingZero s ++ r) 0xFF#8 s) rfl hoverflow
      (by rw [hpending]; exact hfits)
    rw [hpending, List.nil_append] at hrest
    exact ⟨c, hc, decRun_run_append hrun hrest⟩
  | zero r F out nonZero short rest ih =>
    intro s hcnt hoverflow hfits
    rw [← List.append_assoc, List.length_append, ← Nat.add_assoc] at hfits
    obtain ⟨hzero, hchain, hlength⟩ := codeByte_short r.length short
    have hrun := decRun_run _ r nonZero hzero hlength s hcnt hoverflow (by omega)
    have hpending : pendingZero (runEnded (pendingZero s ++ r) (codeByte r.length) s) = [0x00#8] :=
      if_pos ⟨hzero, hchain⟩
    obtain ⟨c, hc, hrest⟩ := ih (runEnded (pendingZero s ++ r) (codeByte r.length) s) rfl hoverflow
      (by rw [hpending]; exact hfits)
    rw [hpending] at hrest
    exact ⟨c, hc, decRun_run_append hrun hrest⟩

/-- At the end of a run with no overflow a delimiter completes the frame (40_cobs.md R92). -/
theorem delimEvent_complete {s : State} (hcode : s.decCode ≠ 0#8) (hcnt : s.decCnt = 0#8)
    (hoverflow : s.rxOverflow = false) : delimEvent s = .complete s.rxCursor := by
  simp [delimEvent, hcode, hcnt, hoverflow]

/-- Settles O17: the runs of the encoding store the frame from index 0 on, and the delimiter completes it. -/
theorem decoderInvertsCobs : Obligations.DecoderInvertsCobs := by
  intro F s hfits hstart
  obtain ⟨hcode, hcnt, hcursor, hoverflow⟩ := hstart
  have hpending : pendingZero s = [] := by simp [pendingZero, hcode]
  obtain ⟨c, hc, hrun⟩ := decRun_runs (cobsEncode_runs F) s hcnt hoverflow (by simpa [hpending, hcursor] using hfits)
  rw [hpending, List.nil_append] at hrun
  have hevent : delimEvent (runEnded F c s) = .complete (s.rxCursor + F.length) :=
    delimEvent_complete hc rfl hoverflow
  rw [hcursor, Nat.zero_add] at hevent
  have hreset : decReset (runEnded F c s) = { s with rxBuffer := s.rxBuffer.store 0 F } := by
    simp [decReset, runEnded, hcode, hcnt, hcursor, hoverflow]
  refine ⟨s.rxBuffer.store 0 F, ?_, ?_, fun a ha => ?_⟩
  · rw [decRun_append _ _ _ _ _ _ _ hrun (decRun_delimiter _), hevent, hreset]
  · refine readBytes_of_get s.M _ F hfits fun j hj => ?_
    simp [Memory.get_store, hj]
  · rw [Memory.get_store, if_neg (by omega)]

end Sys2Proof.Machine

namespace Sys2Proof.Machine

/-! ## The streaming encoder (40_cobs.md R87) -/

/-- Settles O16: it offers the bytes of the wire frame in turn, and is DONE after the last and not before. -/
theorem streamingEncoderMeetsCobs : Obligations.StreamingEncoderMeetsCobs := by
  intro S hS
  refine ⟨fun k b hb => ?_, (encAfter_phase_done_iff hS (by rw [wireFrame_length])).2 (wireFrame_length S).symm⟩
  obtain ⟨hk, rfl⟩ : ∃ hk : k < (wireFrame S).length, (wireFrame S)[k] = b := List.getElem?_eq_some_iff.1 hb
  exact ⟨fun hdone => Nat.ne_of_lt hk ((encAfter_phase_done_iff hS hk.le).1 hdone), encPeek_encAfter S hS k hk⟩

end Sys2Proof.Machine

namespace Sys2Proof.Machine

/-! ## `cobs_encode` by segments (40_cobs.md R81) -/

/-- A frame is its segments with a zero byte between each two. -/
theorem intercalate_segments (F : List Byte) : List.intercalate [0x00#8] (segments F) = F := by
  induction F with
  | nil => rfl
  | cons b F ih =>
    obtain ⟨S, rest, hF⟩ := segments_eq_cons F
    rw [hF] at ih
    by_cases hzero : b = 0x00#8
    · simp [segments, hzero, hF, List.intercalate_cons_cons, ih]
    · cases rest with
      | nil => simpa [segments, hzero, hF] using ih
      | cons T rest => simpa [segments, hzero, hF, List.intercalate_cons_cons] using ih

theorem zero_notMem_of_mem_segments (F : List Byte) : ∀ S ∈ segments F, 0x00#8 ∉ S := by
  induction F with
  | nil => simp [segments]
  | cons b F ih =>
    obtain ⟨S, rest, hF⟩ := segments_eq_cons F
    rw [hF, List.forall_mem_cons] at ih
    by_cases hzero : b = 0x00#8
    · simpa [segments, hzero, hF] using ih
    · simpa [segments, hzero, hF, Ne.symm hzero] using ih

theorem segments_zeroFree {r : List Byte} (nonZero : 0x00#8 ∉ r) : segments r = [r] := by
  obtain ⟨S, rest, hempty, hseg⟩ := segments_append r [] nonZero
  obtain ⟨rfl, rfl⟩ : [] = S ∧ [] = rest := by simpa [segments] using hempty
  simpa using hseg

/-- A zero ends the first segment. -/
theorem segments_append_zero {r : List Byte} (F : List Byte) (nonZero : 0x00#8 ∉ r) :
    segments (r ++ 0x00#8 :: F) = r :: segments F := by
  obtain ⟨S, rest, hzero, hseg⟩ := segments_append r (0x00#8 :: F) nonZero
  obtain ⟨rfl, rfl⟩ : [] = S ∧ segments F = rest := by simpa [segments] using hzero
  simpa using hseg

/-- A segment shorter than a full run is one run. -/
theorem encSegment_short {r : List Byte} (short : r.length < 254) : encSegment r = codeByte r.length :: r := by
  simp [encSegment, codeByte, Nat.div_eq_of_lt short, Nat.mod_eq_of_lt short, Nat.ne_of_lt short]

/-- A segment that starts with a full run is that run and the encoding of what is left of it. -/
theorem encSegment_append_full {r : List Byte} (S : List Byte) (full : r.length = 254) :
    encSegment (r ++ S) = 0xFF#8 :: (r ++ encSegment S) := by
  have hdrop : ∀ k, (r ++ S).drop (254 * (k + 1)) = S.drop (254 * k) := fun k => by
    rw [Nat.mul_add, Nat.add_comm, ← List.drop_drop, mul_one, ← full, List.drop_left]
  have hdiv : (r ++ S).length / 254 = S.length / 254 + 1 := by
    rw [List.length_append, full, Nat.add_comm, Nat.add_div_right _ (by decide)]
  have hmod : (r ++ S).length % 254 = S.length % 254 := by
    rw [List.length_append, full, Nat.add_mod_left]
  have htake : (r ++ S).take 254 = r := List.take_left' full
  simp [encSegment, hdiv, hmod, List.range_succ_eq_map, List.flatMap_map, hdrop, htake, -List.length_append]

/-- The encoding by runs is the encoding by segments. -/
theorem Runs.eq_flatMap_encSegment {F out : List Byte} (runs : Runs F out) :
    out = (segments F).flatMap encSegment := by
  induction runs with
  | last r nonZero short => simp [segments_zeroFree nonZero, encSegment_short short]
  | chain r F out nonZero full rest ih =>
    obtain ⟨S, tail, hF, hseg⟩ := segments_append r F nonZero
    simp [ih, hF, hseg, encSegment_append_full S full]
  | zero r F out nonZero short rest ih => simp [ih, segments_append_zero F nonZero, encSegment_short short]

/-- Settles O18: the runs of a segment are its encoding. -/
theorem cobsEncodesSegmentBySegment : Obligations.CobsEncodesSegmentBySegment := fun F =>
  ⟨(intercalate_segments F).symm, zero_notMem_of_mem_segments F, (cobsEncode_runs F).eq_flatMap_encSegment⟩

/-! ## Zero-free, and how long (40_cobs.md R82 (a), (c)) -/

/-- Neither a code byte nor a data byte is zero. -/
theorem Runs.zeroFree {F out : List Byte} (runs : Runs F out) : 0x00#8 ∉ out := by
  induction runs with
  | last r nonZero short => simp [nonZero, (codeByte_short r.length short).1.symm]
  | chain r F out nonZero full rest ih => simp [nonZero, ih]
  | zero r F out nonZero short rest ih => simp [nonZero, ih, (codeByte_short r.length short).1.symm]

/-- Each zero of a frame starts one more segment. -/
theorem segments_length (F : List Byte) : (segments F).length = F.count 0x00#8 + 1 := by
  induction F with
  | nil => rfl
  | cons b F ih =>
    by_cases hzero : b = 0x00#8
    · simp [segments, hzero, ih]
    · obtain ⟨S, rest, hF⟩ := segments_eq_cons F
      rw [hF] at ih
      simpa [segments, hzero, hF] using ih

/-- Each segment has one code byte more than it has full runs. -/
theorem codeByteCount_eq (F : List Byte) :
    codeByteCount F = ((segments F).map (fun S => S.length / 254)).sum + (F.count 0x00#8 + 1) := by
  simp [codeByteCount, List.sum_map_add, segments_length]

/-- Settles O19: the code bytes counted by segments give the exact length, and counted by runs the bound. -/
theorem cobsIsZeroFreeAndShort : Obligations.CobsIsZeroFreeAndShort := by
  intro F
  have hexact := (cobsEncode_runs F).length_add_count
  have hbound := (cobsEncode_runs F).length_le
  rw [codeByteCount_eq] at hexact
  exact ⟨(cobsEncode_runs F).zeroFree, by omega, by omega⟩

end Sys2Proof.Machine

namespace Sys2Proof.Machine

/-! ## One received byte (40_cobs.md R92 to R97) -/

/-- The first code byte of a frame starts its run (40_cobs.md R93). -/
theorem receiveByte_firstCode {b : Byte} {s : State} (hb : b ≠ 0#8) (hcode : s.decCode = 0#8) :
    receiveByte b s = .next (startRun b s) := by
  simp [receiveByte, decStep, hb, hcode, onEvent]

/-- A data byte is stored, and counts (40_cobs.md R94). -/
theorem receiveByte_data {b : Byte} {s : State} (hb : b ≠ 0#8) (hcode : s.decCode ≠ 0#8) (hcnt : s.decCnt ≠ 0#8) :
    receiveByte b s = orFault ((store b s).map fun t => { t with decCnt := t.decCnt - 1#8 }) := by
  simp only [receiveByte, decStep, hb, hcode, hcnt, if_false, if_true, ne_eq, not_false_eq_true]
  cases store b s <;> rfl

/-- A code byte at the end of a `0xFF` run starts its own run (40_cobs.md R95). -/
theorem receiveByte_code_afterChain {b : Byte} {s : State} (hb : b ≠ 0#8) (hchain : s.decCode = 0xFF#8)
    (hcnt : s.decCnt = 0#8) : receiveByte b s = .next (startRun b s) := by
  simp [receiveByte, decStep, hb, hchain, hcnt, onEvent]

/-- A code byte at the end of a shorter run stores the zero that ended it, and starts its own run (40_cobs.md R95). -/
theorem receiveByte_code_afterShort {b : Byte} {s : State} (hb : b ≠ 0#8) (hcode : s.decCode ≠ 0#8)
    (hchain : s.decCode ≠ 0xFF#8) (hcnt : s.decCnt = 0#8) :
    receiveByte b s = orFault ((store 0x00#8 s).map (startRun b)) := by
  simp only [receiveByte, decStep, hb, hcode, hchain, hcnt, if_false, if_true, ne_eq, not_false_eq_true,
    not_true_eq_false]
  cases store 0x00#8 s <;> rfl

/-- Once the flag is set, nothing is stored (40_cobs.md R97). -/
theorem store_overflowed (v : Byte) {s : State} (h : s.rxOverflow = true) : store v s = .ok s := if_pos h

/-- With the buffer full, the flag is set (40_cobs.md R97). -/
theorem store_full (v : Byte) {s : State} (h : s.rxOverflow = false) (hfull : s.rxCursor = s.M) :
    store v s = .ok { s with rxOverflow := true } := by
  simp [store, overflows, h, hfull]

/-- With room in the buffer, the byte is appended (40_cobs.md R97). -/
theorem store_room (v : Byte) {s : State} (h : s.rxOverflow = false) (hroom : s.rxCursor < s.M) :
    store v s = .ok { s with rxBuffer := s.rxBuffer.set s.rxCursor v, rxCursor := s.rxCursor + 1 } := by
  simp [store, overflows, h, Nat.ne_of_lt hroom, writeByte, hroom]

/-- Past the buffer, the model faults (20_memory.md R46). -/
theorem store_out_of_range (v : Byte) {s : State} (h : s.rxOverflow = false) (hpast : s.M < s.rxCursor) :
    store v s = .error .indexOutOfRange := by
  simp [store, overflows, h, Nat.ne_of_gt hpast, writeByte_out_of_range hpast.le]

/-- Settles O27: either row is its code byte, which starts the run. -/
theorem firstCodeByteStartsARun : Obligations.FirstCodeByteStartsARun := fun _ hcode =>
  ⟨fun _ hb => receiveByte_firstCode hb hcode, receiveByte_firstCode (by decide) hcode⟩

/-- Settles O28: the byte is stored in each of the four ways, and counts. -/
theorem dataByteIsStored : Obligations.DataByteIsStored := by
  intro b s hb hcode hcnt
  rw [show exec (.wireData b) s = receiveByte b s from rfl, receiveByte_data hb hcode hcnt]
  refine ⟨fun hoverflow => ?_, fun hoverflow hfull => ?_, fun hoverflow hroom => ?_, fun hoverflow hpast => ?_⟩
  · rw [store_overflowed b hoverflow]; rfl
  · rw [store_full b hoverflow hfull]; rfl
  · rw [store_room b hoverflow hroom]
    exact ⟨_, rfl, Memory.get_set_same .., fun a ha => Memory.get_set_other _ _ _ _ ha⟩
  · rw [store_out_of_range b hoverflow hpast]; rfl

/-- Settles O29: a `0xFF` run leaves no zero, and a shorter run's zero is stored in each of the four ways. -/
theorem laterCodeByteRestoresTheZero : Obligations.LaterCodeByteRestoresTheZero := by
  intro b i s hb hrow hcode hcnt
  have hexec : exec i s = receiveByte b s := by
    rcases hrow with rfl | ⟨rfl, rfl⟩ <;> rfl
  rw [hexec]
  refine ⟨fun hchain => receiveByte_code_afterChain hb hchain hcnt, fun hshort hoverflow => ?_,
    fun hshort hoverflow hfull => ?_, fun hshort hoverflow hroom => ?_, fun hshort hoverflow hpast => ?_⟩ <;>
    rw [receiveByte_code_afterShort hb hcode hshort hcnt]
  · rw [store_overflowed _ hoverflow]; rfl
  · rw [store_full _ hoverflow hfull]; rfl
  · rw [store_room _ hoverflow hroom]
    exact ⟨_, rfl, Memory.get_set_same .., fun a ha => Memory.get_set_other _ _ _ _ ha⟩
  · rw [store_out_of_range _ hoverflow hpast]; rfl

/-- A completed frame is read from `rx_buffer` and run (43_arq_rx.md R150). -/
theorem onEvent_complete {s : State} {L : Nat} {d : List Byte} (h : readBytes s.M s.rxBuffer 0 L = .ok d) :
    onEvent (.complete L) s = runFrame d s := by
  simp only [onEvent, h]

/-- Settles O26: the event is the first of the causes that holds, and a complete frame runs as its row. -/
theorem delimiterEndsTheFrame : Obligations.DelimiterEndsTheFrame := by
  intro s
  have hstep : decStep 0x00#8 s = .ok (delimEvent s, decReset s) := rfl
  rw [hstep]
  refine ⟨fun hcode => ?_, fun hcode hcnt => ?_, fun hcode hcnt hoverflow => ?_, fun hcode hcnt hoverflow => ?_, rfl⟩
  · simp [delimEvent, hcode]
  · simp [delimEvent, hcode, hcnt]
  · simp [delimEvent, hcode, hcnt, hoverflow]
  · have hevent := delimEvent_complete hcode hcnt hoverflow
    refine ⟨by rw [hevent], fun d hd => ?_⟩
    have hexec : exec .wireDelim s = runFrame d (decReset s) := by
      rw [exec_wireDelim, hevent]
      exact onEvent_complete hd
    rw [hexec]
    refine ⟨fun hshort => ?_, fun i hi => runFrame_eq_exec d _ i hi⟩
    rw [runFrame_eq_receiveFrame, if_pos hshort]
    rfl

end Sys2Proof.Machine

namespace Sys2Proof.Machine

/-! ## The CRC's two forms (41_crc.md R111 and R112)

The byte-serial register is, after every byte, the reflection of R111's register: `reflect16` carries each shift and
each byte of the one form to that of the other, and R111's reflected output undoes it at the end. -/

theorem reflect16_xor (c d : Word16) : reflect16 (c ^^^ d) = reflect16 c ^^^ reflect16 d := by
  unfold reflect16
  ext i hi
  simp [BitVec.getElem_reverse]

/-- Reflection turns a shift to the left into a shift to the right. -/
theorem reflect16_shiftLeft (c : Word16) (n : Nat) : reflect16 (c <<< n) = reflect16 c >>> n := by
  unfold reflect16
  refine BitVec.eq_of_getLsbD_eq fun i hi => ?_
  simp [BitVec.getLsbD_reverse, BitVec.getMsbD_shiftLeft, Nat.add_comm]

/-- Reflection brings the register's high bit, which `crcShift` tests, to the low end. -/
theorem reflect16_getLsbD_zero (c : Word16) : (reflect16 c).getLsbD 0 = c.getLsbD 15 := by
  unfold reflect16
  rw [BitVec.getLsbD_reverse]
  rfl

/-- The reflection of R111's polynomial is that of the byte-serial form (41_crc.md R112). -/
theorem reflect16_polynomial : reflect16 0x1021#16 = 0x8408#16 := by decide

/-- A byte that enters reflected at the high end of the one register enters as it is at the low end of the other. -/
theorem reflect16_reflect8 (b : Byte) : reflect16 ((reflect8 b).setWidth 16 <<< 8) = b.setWidth 16 := by
  rw [reflect16_shiftLeft]
  unfold reflect16 reflect8
  refine BitVec.eq_of_getLsbD_eq fun i hi => ?_
  simp [BitVec.getLsbD_reverse, BitVec.getMsbD_setWidth, BitVec.getMsbD_reverse, hi]

/-- One shift, by the bit that leaves the register. -/
theorem reflect16_crcShift (c : Word16) : reflect16 (crcShift c) = crcSerialShift (reflect16 c) := by
  unfold crcShift crcSerialShift
  rw [reflect16_getLsbD_zero]
  split
  · rw [reflect16_xor, reflect16_shiftLeft, reflect16_polynomial]
  · rw [reflect16_shiftLeft]

theorem reflect16_repeat_crcShift (n : Nat) (c : Word16) :
    reflect16 (Nat.repeat crcShift n c) = Nat.repeat crcSerialShift n (reflect16 c) := by
  induction n with
  | zero => rfl
  | succ n ih => rw [Nat.repeat, Nat.repeat, reflect16_crcShift, ih]

theorem reflect16_crcByte (c : Word16) (b : Byte) : reflect16 (crcByte c b) = crcStep (reflect16 c) b := by
  rw [crcByte, crcStep, reflect16_repeat_crcShift, reflect16_xor, reflect16_reflect8]

/-- The byte-serial register over `s` is the reflection of R111's. -/
theorem foldl_crcStep_reflect16 (s : List Byte) (c : Word16) :
    s.foldl crcStep (reflect16 c) = reflect16 (s.foldl crcByte c) :=
  List.foldl_hom reflect16 fun c b => (reflect16_crcByte c b).symm

/-- The two forms agree: the initial value is its own reflection, and the final XOR is the same. -/
theorem crcSerial_eq_crc16X25 (s : List Byte) : crcSerial s = crc16X25 s := by
  have hinit : reflect16 0xFFFF#16 = 0xFFFF#16 := by decide
  rw [crcSerial, crcFinal, crc16X25, ← foldl_crcStep_reflect16, hinit]

/-- Settles O22: reflection carries the one form to the other, byte by byte. -/
theorem crcFormsAgree : Obligations.CrcFormsAgree := ⟨reflect16_polynomial, crcSerial_eq_crc16X25⟩

/-- The register trace over the I-frame with payload "123" (41_crc.md R116). -/
theorem crcStep_trace :
    crcStep 0xFFFF#16 0x01#8 = 0x1E0E#16 ∧ crcStep 0x1E0E#16 0x03#8 = 0xDBFB#16 ∧
    crcStep 0xDBFB#16 0x31#8 = 0x698D#16 ∧ crcStep 0x698D#16 0x32#8 = 0x4D15#16 ∧
    crcStep 0x4D15#16 0x33#8 = 0x4479#16 ∧ crcFinal 0x4479#16 = 0xBB86#16 := by decide

/-- The trace ends in the CRC of its bytes, since the two forms agree. -/
theorem crc_payload123 : crc16X25 [0x01#8, 0x03#8, 0x31#8, 0x32#8, 0x33#8] = 0xBB86#16 := by
  obtain ⟨h01, h03, h31, h32, h33, hfinal⟩ := crcStep_trace
  rw [← crcSerial_eq_crc16X25]
  simp only [crcSerial, List.foldl, h01, h03, h31, h32, h33, hfinal]

/-- Settles O23: the first value ends the register trace, the S-frames' are known, and the other four are evaluated. -/
theorem crcWorkedValues : Obligations.CrcWorkedValues := by
  refine ⟨crc_payload123, crc_ack, crc_nack, ?emptyIFrame, ?payload00, ?payload41, ?checkValue, crcStep_trace⟩
  all_goals decide +kernel

end Sys2Proof.Machine

namespace Sys2Proof.Machine

/-! ## The arbiter's choice, case by case (42_arq_tx.md R130) -/

/-- The S-frame in progress goes on, and a queued one starts unless an I-frame is in progress (42_arq_tx.md R130). -/
theorem select_sFrame (now : Instant) {s : State}
    (hsend : s.sIdx ≠ 0#3 ∨ (s.sqValid = true ∧ ¬(s.txState = .sending ∧ s.txCursor ≠ 0#9))) :
    select now s = (some .sCont, s) ∨ select now s = (some .sStart, s) := by
  by_cases hidx : s.sIdx = 0#3
  · obtain ⟨hqueued, hno⟩ := hsend.resolve_left fun hne => hne hidx
    exact .inr (by simpa [select, sInProgress, iInProgress, hidx, hqueued] using hno)
  · exact .inl (by simp [select, sInProgress, hidx])

/-- A new attempt starts when no S-frame is queued (42_arq_tx.md R130). -/
theorem select_iStart (now : Instant) {s : State} (hidx : s.sIdx = 0#3) (hnone : s.sqValid = false)
    (hs : s.txState = .sending) (hcursor : s.txCursor = 0#9) : select now s = (some .iStart, s) := by
  simp [select, sInProgress, iInProgress, hidx, hnone, hs, hcursor]

/-- A due timeout is taken when nothing comes before it (42_arq_tx.md R136). -/
theorem select_timeout {now : Instant} {s : State} (hidx : s.sIdx = 0#3) (hnone : s.sqValid = false)
    (hs : s.txState = .awaitingAck) (hdue : s.txRetryDeadline ≤ now) :
    select now s = (some .iStart, timeout s) := by
  simp [select, sInProgress, iInProgress, timerDue, hidx, hnone, hs, hdue]

/-- The last case of the arbiter (42_arq_tx.md R130). -/
theorem select_nothing {now : Instant} {s : State} (hidx : s.sIdx = 0#3) (hnone : s.sqValid = false)
    (hs : s.txState = .idle ∨ (s.txState = .awaitingAck ∧ now < s.txRetryDeadline)) : select now s = (none, s) := by
  rcases hs with hidle | ⟨hawaiting, hearly⟩
  · simp [select, sInProgress, iInProgress, timerDue, hidx, hnone, hidle]
  · simp [select, sInProgress, iInProgress, timerDue, hidx, hnone, hawaiting, hearly]

/-! ## One micro-step of POLL_TX, by the transport's answer (44_host_ops.md R176) -/

/-- A POLL_TX that is requested starts, and its first micro-step runs. -/
theorem exec_pollTx {s : State} (hop : s.curOp = .none) (now : Instant) :
    exec (.pollTx now) s = txMicro now (begin (.pollTx now) s) := whenFree_of_none _ _ hop

theorem drawTx_of_script {s : State} {r : TxResponse} {rest : List TxResponse} (h : s.txScript = r :: rest) :
    drawTx s = (r, { s with txScript := rest }) := by
  simp [drawTx, h]

section
variable {now : Instant} {s s1 : State} {src : TxSource} {b : Byte} {rest : List TxResponse}

theorem txMicro_of_select_none (hsel : select now s = (none, s1)) : txMicro now s = .next (finish .ok s1) := by
  simp [txMicro, hsel]

theorem txMicro_of_ready (hsel : select now s = (some src, s1)) (hoffer : offer src s1 = .ok b)
    (hscript : s1.txScript = .ready :: rest) :
    txMicro now s = orFault (accept src now (putOnWire b { s1 with txScript := rest })) := by
  simp [txMicro, hsel, hoffer, drawTx_of_script hscript]

theorem txMicro_of_wouldBlock (hsel : select now s = (some src, s1)) (hoffer : offer src s1 = .ok b)
    (hscript : s1.txScript = .wouldBlock :: rest) :
    txMicro now s = .next (finish .ok { s1 with txScript := rest }) := by
  simp [txMicro, hsel, hoffer, drawTx_of_script hscript]

theorem txMicro_of_error {e : TransportErr} (hsel : select now s = (some src, s1)) (hoffer : offer src s1 = .ok b)
    (hscript : s1.txScript = .error e :: rest) :
    txMicro now s = .next (finish (.transportError e) { s1 with txScript := rest }) := by
  simp [txMicro, hsel, hoffer, drawTx_of_script hscript]

end

/-! ### I-frame bytes -/

/-- Settles O11: the first micro-step of the POLL_TX accepts the byte of the wire frame at `tx_cursor`. -/
theorem pollTxSendsTheNextWireByte : Obligations.PollTxSendsTheNextWireByte := by
  intro now s S rest h hop hidx hs hfree hS hscript
  obtain ⟨hlt, hbyte⟩ := (h.begin (.pollTx now)).txMicro_wireByte now hs hidx hfree hS hscript
  rw [← exec_pollTx hop] at hbyte
  exact ⟨_, List.getElem?_eq_getElem hlt, fun hmore => hbyte.trans (congrArg _ (if_neg hmore.ne)),
    fun hlast => hbyte.trans (congrArg _ (if_pos hlast))⟩

/-- A micro-step that takes the timeout is the first one of the new attempt (42_arq_tx.md R136). -/
theorem txMicro_timeout {now : Instant} {s : State} (hidx : s.sIdx = 0#3) (hnone : s.sqValid = false)
    (hs : s.txState = .awaitingAck) (hdue : s.txRetryDeadline ≤ now) :
    txMicro now s = txMicro now (timeout s) := by
  have hstart : select now (timeout s) = (some .iStart, timeout s) := select_iStart now hidx hnone rfl rfl
  simp only [txMicro, select_timeout hidx hnone hs hdue, hstart]

/-- A wire frame has a code byte before its delimiter (40_cobs.md R80). -/
theorem one_lt_wireFrame_length (S : List Byte) : 1 < (wireFrame S).length := by
  have := (cobsEncode_runs S).length_lt
  rw [wireFrame_length]
  omega

/-- Settles O12: the new attempt's first byte is accepted in the micro-step that takes the timeout. -/
theorem timeoutRestartsTheAttempt : Obligations.TimeoutRestartsTheAttempt := by
  intro now s S rest h hop hidx hnone hs hdue hS hscript
  have hattempt : Inv (timeout (begin (.pollTx now) s)) := (h.begin _).timeout (by simp [hs])
  obtain ⟨hlt, hbyte⟩ := hattempt.txMicro_wireByte now rfl hidx (.inr hnone) hS hscript
  have hmore : 0 + 1 ≠ (wireFrame S).length := (one_lt_wireFrame_length S).ne
  rw [← txMicro_timeout (s := begin (.pollTx now) s) hidx hnone hs hdue, ← exec_pollTx hop] at hbyte
  exact ⟨_, List.getElem?_eq_getElem hlt, hbyte.trans (congrArg _ (if_neg hmore))⟩

/-! ### A byte that is not accepted, and nothing to send -/

/-- Settles O13: the source has a byte to offer, and neither answer lets the micro-step get past it. -/
theorem unacceptedByteStaysOnOffer : Obligations.UnacceptedByteStaysOnOffer := by
  intro now s s1 src rest h hop hsel
  have hsel' : select now (begin (.pollTx now) s) = (some src, begin (.pollTx now) s1) := by
    rw [select_begin, hsel]
  obtain ⟨hinv, hselected⟩ := (h.begin (.pollTx now)).select hsel'
  obtain ⟨b, hb⟩ := hinv.offer (hselected src rfl)
  have harbiter : s1 = s ∨ (s.txState = .awaitingAck ∧ s.txRetryDeadline ≤ now ∧ s1 = timeout s) :=
    (select_next now s s1 _ hsel).1.imp_right fun ⟨hs, hdue, htimeout, _⟩ => ⟨hs, hdue, htimeout⟩
  have hscript : s1.txScript = s.txScript := by
    rcases harbiter with rfl | ⟨-, -, rfl⟩
    · rfl
    · rfl
  refine ⟨harbiter, fun hanswer => ?_, fun e hanswer => ?_, fun r => ?_⟩
  · rw [exec_pollTx hop, txMicro_of_wouldBlock hsel' hb (hscript.trans hanswer)]; rfl
  · rw [exec_pollTx hop, txMicro_of_error hsel' hb (hscript.trans hanswer)]; rfl
  · cases src with
    | sCont => rfl
    | iCont => rfl
    | sStart => rfl
    | iStart => rfl

/-- Settles O9: the arbiter selects nothing, so the first micro-step ends the POLL_TX. -/
theorem pollTxWithNothingToSend : Obligations.PollTxWithNothingToSend := by
  intro now s hop hidx hnone hs
  have hsel : select now (begin (.pollTx now) s) = (none, begin (.pollTx now) s) := select_nothing hidx hnone hs
  rw [exec_pollTx hop, txMicro_of_select_none hsel]
  simp [finish, begin, hop]

/-! ### S-frame bytes -/

theorem sByte_eq_ok {k : SKind} {i : BitVec 3} {b : Byte} : sByte k i = .ok b ↔ (sBytes k)[i.toNat]? = some b := by
  unfold sByte
  cases (sBytes k)[i.toNat]? <;> simp

/-- All that an accepted S-frame byte does: the first takes its kind out of the queue (42_arq_tx.md R131). -/
theorem acceptS_eq (s : State) : acceptS s = { s with
    sKind := offeredKind s
    sqValid := if s.sIdx = 0#3 then false else s.sqValid
    sIdx := if s.sIdx = 5#3 then 0#3 else s.sIdx + 1#3 } := by
  have hlast : s.sIdx + 1#3 = 6#3 ↔ s.sIdx = 5#3 := by bv_omega
  by_cases hfirst : s.sIdx = 0#3
  · simp [acceptS, offeredKind, hfirst]
  · simp [acceptS, offeredKind, hfirst, hlast]

/-- Settles O10: either source offers byte `s_idx` of the kind's constant, and accepts it by `acceptS`. -/
theorem pollTxSendsTheSFrame : Obligations.PollTxSendsTheSFrame := by
  intro now s rest hop hidx hsend hscript
  obtain ⟨b, hb⟩ := sByte_of_le (offeredKind s) s.sIdx hidx
  refine ⟨b, sByte_eq_ok.1 hb, ?_⟩
  have hmicro : txMicro now (begin (.pollTx now) s) =
      .next (acceptS (putOnWire b { begin (.pollTx now) s with txScript := rest })) := by
    rcases select_sFrame now (s := begin (.pollTx now) s) hsend with hsel | hsel
    · exact txMicro_of_ready hsel hb hscript
    · exact txMicro_of_ready hsel hb hscript
  rw [exec_pollTx hop, hmicro, acceptS_eq]
  rfl

end Sys2Proof.Machine

namespace Sys2Proof.Machine

/-! ## A POLL_TX ends (42_arq_tx.md R138): every micro-step that goes on leaves fewer bytes to send -/

/-- A bound on the bytes a POLL_TX can still get accepted: the rest of the S-frame in progress, the queued S-frame, and
the rest of the longest wire frame. -/
def bytesLeft (s : State) : Nat :=
  (if s.sIdx = 0#3 then 0 else 6 - s.sIdx.toNat) + (if s.sqValid then 6 else 0) + (262 - s.txCursor.toNat)

theorem bytesLeft_le (s : State) : bytesLeft s ≤ 273 := by
  have hprogress : (if s.sIdx = 0#3 then 0 else 6 - s.sIdx.toNat) ≤ 5 := by split_ifs <;> bv_omega
  have hqueued : (if s.sqValid then 6 else 0) ≤ 6 := by split_ifs <;> omega
  unfold bytesLeft
  omega

/-- A timeout has no I-frame byte to take back: none is in progress while an answer is awaited. -/
theorem Inv.bytesLeft_select {now : Instant} {s s1 : State} {o : Option TxSource} (h : Inv s)
    (hsel : Machine.select now s = (o, s1)) : bytesLeft s1 = bytesLeft s := by
  rcases (select_next now s s1 o hsel).1 with rfl | ⟨hs, -, rfl, -⟩
  · rfl
  · have hcursor : s.txCursor = 0#9 := by_contra fun hc => by simp [h.cursorOnlySending hc] at hs
    rw [bytesLeft, bytesLeft, hcursor]
    rfl

theorem bytesLeft_drawTx {s s' : State} {r : TxResponse} (hdraw : drawTx s = (r, s')) :
    bytesLeft s' = bytesLeft s := by
  rcases drawTx_next s s' r hdraw with ⟨rest, -, rfl⟩ | ⟨-, rfl⟩
  · rfl
  · rfl

/-- An accepted S-frame byte is one byte less of the S-frame in progress or of the queued one. -/
theorem bytesLeft_acceptS {s : State} (hidx : s.sIdx.toNat ≤ 5) (hsend : s.sIdx ≠ 0#3 ∨ s.sqValid = true) :
    bytesLeft (acceptS s) < bytesLeft s := by
  rw [acceptS_eq]
  by_cases hfirst : s.sIdx = 0#3
  · have hqueued : s.sqValid = true := hsend.resolve_left fun hne => hne hfirst
    simp [bytesLeft, hfirst, hqueued]
  · by_cases hlast : s.sIdx = 5#3
    · simp [bytesLeft, hlast]
    · have hnext : s.sIdx + 1#3 ≠ 0#3 ∧ (s.sIdx + 1#3).toNat = s.sIdx.toNat + 1 := by bv_omega
      simp only [bytesLeft, hfirst, hlast, if_false, hnext.1, hnext.2]
      omega

/-- An accepted I-frame byte ends the POLL_TX or is one byte less of the wire frame. -/
theorem Inv.bytesLeft_acceptI {now : Instant} {s t : State} (h : Inv s) (hs : s.txState = .sending)
    (ht : Machine.acceptI now s = .ok t) : t.curOp = .none ∨ bytesLeft t < bytesLeft s := by
  obtain ⟨S, hS, hlen, -, hlt⟩ := h.encoder hs
  have hwire := wireFrame_length_le S hlen
  simp only [Machine.acceptI, hS] at ht
  split at ht
  · obtain rfl := Except.ok.inj ht
    exact .inl rfl
  · obtain rfl := Except.ok.inj ht
    have hcursor : (s.txCursor + 1#9).toNat = s.txCursor.toNat + 1 := by bv_omega
    refine .inr ?_
    simp only [bytesLeft, hcursor]
    omega

/-- What makes a source the arbiter's choice (42_arq_tx.md R130). -/
def Pending (s : State) : TxSource → Prop
  | .sCont => s.sIdx ≠ 0#3
  | .sStart => s.sqValid = true
  | .iCont => s.txState = .sending
  | .iStart => s.txState = .sending

theorem select_pending {now : Instant} {s s1 : State} {src : TxSource} (hsel : select now s = (some src, s1)) :
    Pending s1 src := by
  rcases select_cases now s with ⟨hidx, e⟩ | ⟨-, hs, -, e⟩ | ⟨-, -, hqueued, e⟩ | ⟨-, hs, -, -, e⟩ |
    ⟨-, -, -, -, e⟩ | ⟨-, -, -, -, e⟩ <;> cases e.symm.trans hsel
  · exact hidx
  · exact hs
  · exact hqueued
  · exact hs
  · exact timeout_txState s

theorem Inv.bytesLeft_accept {now : Instant} {s t : State} {src : TxSource} (h : Inv s) (hsrc : Pending s src)
    (ht : Machine.accept src now s = .ok t) : t.curOp = .none ∨ bytesLeft t < bytesLeft s := by
  cases src with
  | sCont => cases ht; exact .inr (bytesLeft_acceptS h.sIndexInFrame (.inl hsrc))
  | sStart => cases ht; exact .inr (bytesLeft_acceptS h.sIndexInFrame (.inr hsrc))
  | iCont => exact h.bytesLeft_acceptI hsrc ht
  | iStart => exact h.bytesLeft_acceptI hsrc ht

theorem Pending.drawTx {s s' : State} {r : TxResponse} {src : TxSource} (h : Pending s src)
    (hdraw : drawTx s = (r, s')) : Pending s' src := by
  rcases drawTx_next s s' r hdraw with ⟨rest, -, rfl⟩ | ⟨-, rfl⟩
  · exact h
  · exact h

theorem orFault_eq_next {x : Except Fault State} {t : State} : orFault x = .next t ↔ x = .ok t := by
  cases x <;> simp [orFault]

/-- A micro-step that does not end the POLL_TX has had a byte accepted. -/
theorem Inv.bytesLeft_txMicro {now : Instant} {s t : State} (h : Inv s) (ht : Machine.txMicro now s = .next t) :
    t.curOp = .none ∨ bytesLeft t < bytesLeft s := by
  rcases txMicro_cases now s with ⟨s1, -, e⟩ | ⟨src, s1, hsel, ⟨f, -, e⟩ | ⟨b, r, s2, -, hdraw, hanswer⟩⟩
  · cases e.symm.trans ht
    exact .inl rfl
  · cases e.symm.trans ht
  · rcases hanswer with ⟨-, e⟩ | ⟨err, -, e⟩ | ⟨-, e⟩
    · cases e.symm.trans ht
      exact .inl rfl
    · cases e.symm.trans ht
      exact .inl rfl
    · have hinv : Inv (Machine.putOnWire b s2) := ((h.select hsel).1.drawTx hdraw).putOnWire b
      have hsrc : Pending s2 src := (select_pending hsel).drawTx hdraw
      have hsame : bytesLeft (Machine.putOnWire b s2) = bytesLeft s :=
        (bytesLeft_drawTx hdraw).trans (h.bytesLeft_select hsel)
      have haccept := orFault_eq_next.1 (e.symm.trans ht)
      exact hsame ▸ hinv.bytesLeft_accept (src := src) hsrc haccept

/-- The POLL_TX ends within `n` steps, with one of its results (60_exceptions.md R190), and takes no other request. -/
def PollTxEnds (n : Nat) (s : State) : Prop :=
  ∃ k t, 1 ≤ k ∧ k ≤ n ∧ run k s = .next t ∧ t.curOp = .none ∧ t.requests = s.requests ∧
    (t.result = some .ok ∨ ∃ e, t.result = some (.transportError e))

/-- A POLL_TX in progress ends in the micro-step after the last byte left, at the latest. -/
theorem Inv.pollTxEnds {now : Instant} (n : Nat) :
    ∀ {s : State}, Inv s → s.curOp = .pollTx now → bytesLeft s < n → PollTxEnds n s := by
  induction n with
  | zero => exact fun _ _ hn => absurd hn (Nat.not_lt_zero _)
  | succ n ih =>
    intro s h hop hn
    obtain ⟨t, ht, hinv, -⟩ := h.txMicro now
    have frame := txMicro_next now s t ht
    have hstep : Machine.step s = .next t := (step_of_pollTx hop h.neverWaitingRetry).trans ht
    rcases frame.ends with ⟨hended, hresult⟩ | ⟨hsame, -⟩
    · exact ⟨1, t, le_rfl, by omega, run_succ 0 s t hstep, hended, frame.requests, hresult⟩
    · have hop' : t.curOp = .pollTx now := hsame.trans hop
      have hless : bytesLeft t < bytesLeft s := (h.bytesLeft_txMicro ht).resolve_left (by simp [hop'])
      obtain ⟨k, u, -, hk, hrun, hended, hrequests, hresult⟩ := ih hinv hop' (by omega)
      exact ⟨k + 1, u, by omega, by omega, (run_succ k s t hstep).trans hrun, hended,
        hrequests.trans frame.requests, hresult⟩

/-- A run depends on the state only through its first step. -/
theorem run_eq_of_step_eq {s s' : State} (h : step s = step s') {k : Nat} (hk : 1 ≤ k) : run k s = run k s' := by
  obtain ⟨k, rfl⟩ := Nat.exists_eq_add_of_le' hk
  have hcore : core.step s = core.step s' := h
  simp only [run, Host.Core.run]
  rw [hcore]

/-- Settles O15: the request's step is the first micro-step of the POLL_TX it starts, which has at most 273 bytes to
send. -/
theorem pollTxAlwaysEnds : Obligations.PollTxAlwaysEnds := by
  intro now s rest h hop hrequests
  have hinv : Inv (begin (.pollTx now) { s with requests := rest }) := (h.withRequests rest).begin _
  have hstep : step s = step (begin (.pollTx now) { s with requests := rest }) :=
    calc step s = exec (.pollTx now) { s with requests := rest } :=
          step_of_request h.neverWaitingRetry hop hrequests rfl
      _ = txMicro now (begin (.pollTx now) { s with requests := rest }) :=
          exec_pollTx (s := { s with requests := rest }) hop now
      _ = step (begin (.pollTx now) { s with requests := rest }) :=
          (step_of_pollTx rfl hinv.neverWaitingRetry).symm
  obtain ⟨k, t, hpos, hk, hrun, hended⟩ := hinv.pollTxEnds 274 rfl (Nat.lt_succ_of_le (bytesLeft_le _))
  exact ⟨k, t, hpos, hk, (run_eq_of_step_eq hstep hpos).trans hrun, hended⟩

end Sys2Proof.Machine

namespace Sys2Proof.Machine

/-! ## A valid frame (43_arq_rx.md R152, R156 to R161) -/

/-- A frame that fails no check has the verdict of its header. -/
theorem validate_of_valid {f : Frame} (h : ¬FailsCheck f) : validate (frameBytes f) =
    if f.hdr = 0x01#8 then .i f.len.toNat else if f.hdr = 0x02#8 then .ack else .nack := by
  simp only [FailsCheck, not_or, not_not] at h
  obtain ⟨hhdr, hlen, hcrc, hsLen⟩ := h
  rw [validate_frameBytes, if_neg hhdr, if_neg (by omega), if_neg (not_not.2 hcrc), if_neg hsLen]

/-- A frame whose CRC field is right does not fail by its CRC. -/
theorem crc_ne_of_validate_badCrc {f : Frame} (h : validate (frameBytes f) = .malformed .badCrc) :
    crc16X25 (f.hdr :: f.len :: f.payload) ≠ f.crc := by
  intro hcrc
  rw [validate_frameBytes, if_neg (not_not.2 hcrc)] at h
  split_ifs at h <;> simp at h

/-- The I-frame that SEND builds is valid (43_arq_rx.md R154). -/
theorem validate_iFrame {p : List Byte} (hp : p.length ≤ 255) : validate (iFrame p) = .i p.length := by
  have hlen : (BitVec.ofNat 8 p.length).toNat = p.length := by
    rw [BitVec.toNat_ofNat, Nat.mod_eq_of_lt (by omega)]
  rw [iFrame, validate_of_valid (by simp [FailsCheck, hlen]), if_pos rfl, hlen]

/-- Settles O35: `validate` checks the CRC of header, length and payload, whichever frame it is. -/
theorem sentFramesValidate : Obligations.SentFramesValidate := by
  refine ⟨fun hdr len p hi lo => ?_, fun p => validate_iFrame⟩
  have hbytes : hdr :: len :: (p ++ [hi, lo]) = frameBytes ⟨hdr, len, p, crcOfBytes hi lo⟩ := by
    simp [frameBytes]
  rw [hbytes]
  exact ⟨parseFrame_frameBytes _, crc_ne_of_validate_badCrc,
    fun hcrc => validate_of_failsCheck (.inr (.inr (.inl hcrc)))⟩

/-- A frame that fits `rx_buffer` is dispatched on what validation says of it. -/
theorem receiveFrame_of_fits {d : List Byte} {s : State} {v : Verdict} (hfits : d.length ≤ s.M)
    (hverdict : validate d = v) : receiveFrame d s = .next (onVerdict d v s) := by
  rw [receiveFrame, frameVerdict, if_neg (by omega), hverdict]

/-- An I-frame that fits is acknowledged and its payload returned (43_arq_rx.md R156). -/
theorem receiveFrame_iFrame {p : List Byte} {s : State} (hp : p.length ≤ 255) (hfits : p.length + 4 ≤ s.M) :
    receiveFrame (iFrame p) s = .next { s with
      sqValid := true, sqKind := .ack, curOp := .none, result := some (.okMessage (some p)) } := by
  have hpayload : ((iFrame p).drop 2).take p.length = p := by simp [iFrame, frameBytes]
  rw [receiveFrame_of_fits (by rwa [iFrame_length]) (validate_iFrame hp), onVerdict, onI, hpayload]
  rfl

/-- Settles O31: the row's fields are those of the I-frame. -/
theorem iFrameIsAckedAndReturned : Obligations.IFrameIsAckedAndReturned := fun _ _ hp hfits =>
  receiveFrame_iFrame hp hfits

/-- A valid ACK frame is dispatched to `on_ack()` (43_arq_rx.md R160). -/
theorem exec_frameAck_valid {s : State} (h : 4 ≤ s.M) : exec (.frameAck 0x00#8 [] 0x3CF7#16) s = .next (onAck s) :=
  receiveFrame_of_fits (d := frameBytes ⟨0x02#8, 0x00#8, [], 0x3CF7#16⟩) (v := .ack) h
    (validate_of_valid (by simp [FailsCheck, crc_ack]))

/-- A valid NACK frame is dispatched to `on_nack()` (43_arq_rx.md R161). -/
theorem exec_frameNack_valid {s : State} (h : 4 ≤ s.M) :
    exec (.frameNack 0x00#8 [] 0x252F#16) s = .next (onNack s) :=
  receiveFrame_of_fits (d := frameBytes ⟨0x03#8, 0x00#8, [], 0x252F#16⟩) (v := .nack) h
    (validate_of_valid (by simp [FailsCheck, crc_nack]))

/-- Settles O32, by the two branches of `on_ack()`. -/
theorem ackFreesTheSender : Obligations.AckFreesTheSender := fun s hM => by
  rw [exec_frameAck_valid hM]
  exact ⟨fun hawaiting => congrArg _ (if_pos hawaiting), fun hother => congrArg _ (if_neg hother)⟩

/-- Settles O33, by the two branches of `on_nack()`. -/
theorem nackRestartsTheAttempt : Obligations.NackRestartsTheAttempt := fun s hM => by
  rw [exec_frameNack_valid hM]
  exact ⟨fun hawaiting => congrArg _ (if_pos hawaiting), fun hother => congrArg _ (if_neg hother)⟩

/-! ## What a frame queues and returns (43_arq_rx.md R155, R158) -/

/-- What a received frame can queue and return, and the decoder: all that is not the sender's. -/
def receiverView (s : State) :
    (Bool × SKind) × (Option Result × CurOp) × (Memory × Byte × Byte × Nat × Bool) :=
  ((s.sqValid, s.sqKind), (s.result, s.curOp), (s.rxBuffer, s.decCode, s.decCnt, s.rxCursor, s.rxOverflow))

theorem receiverView_onAck (s : State) : receiverView (onAck s) = receiverView s := by
  unfold onAck
  split <;> rfl

theorem receiverView_onNack (s : State) : receiverView (onNack s) = receiverView s := by
  unfold onNack
  split <;> rfl

/-- States that differ in the sender alone still do so after a verdict has been acted on. -/
theorem receiverView_onVerdict_congr {s s' : State} (h : receiverView s' = receiverView s) (d : List Byte)
    (v : Verdict) : receiverView (onVerdict d v s') = receiverView (onVerdict d v s) := by
  cases v with
  | ack => exact (receiverView_onAck s').trans (h.trans (receiverView_onAck s).symm)
  | nack => exact (receiverView_onNack s').trans (h.trans (receiverView_onNack s).symm)
  | i len =>
    exact congrArg (fun view =>
      ((true, SKind.ack), (some (Result.okMessage (some ((d.drop 2).take len))), CurOp.none), view.2.2)) h
  | malformed cause => exact congrArg (fun view => ((true, SKind.nack), view.2)) h

/-- Settles O36: the two states have the same verdict, which is the frame's and `M`'s, and differ in the sender alone. -/
theorem validationIgnoresTheSender : Obligations.ValidationIgnoresTheSender := by
  intro f s x len cursor deadline e m
  rw [exec_frameInstr, exec_frameInstr]
  refine ⟨_, _, rfl, rfl, ?_⟩
  have hview := receiverView_onVerdict_congr (s := s)
    (s' := { s with txState := x, txLen := len, txCursor := cursor, txRetryDeadline := deadline, enc := e, txBuffer := m })
    rfl (frameBytes f) (frameVerdict (frameBytes f) s)
  simp only [receiverView, Prod.mk.injEq] at hview
  obtain ⟨⟨hvalid, hkind⟩, ⟨hresult, hop⟩, hbuffer, hcode, hcnt, hcursor, hoverflow⟩ := hview
  exact ⟨hvalid, hkind, hresult, hop, hbuffer, hcode, hcnt, hcursor, hoverflow⟩

theorem step_of_pollRx {s : State} (h : s.curOp = .pollRx) (hs : s.txState ≠ .waitingRetry) : step s = rxMicro s := by
  simp [step, h, hs]

/-- Settles O37: a byte acts in one of the three ways of `Acted`, and a read that gives none leaves the queue alone. -/
theorem receivePathQueuesOnlyAnswers : Obligations.ReceivePathQueuesOnlyAnswers := by
  refine ⟨fun s t hop ht => ?_, fun s t hM ht => ?_⟩
  · rw [step_of_pollRx hop (step_next s t ht).1] at ht
    obtain ⟨s1, hs1, hcase⟩ := rxMicro_next s t ht
    have hread : s1.sqValid = s.sqValid ∧ s1.sqKind = s.sqKind ∧ s1.curOp = s.curOp ∧ s1.result = s.result ∧
        s1.txState = s.txState := by
      rcases hs1 with rfl | ⟨r, rest, -, rfl⟩ <;> exact ⟨rfl, rfl, rfl, rfl, rfl⟩
    obtain ⟨hvalid, hkind, hop1, hresult, hstate⟩ := hread
    rcases hcase with rfl | ⟨e, rfl⟩ | ⟨b, hb⟩
    · exact .inl ⟨hvalid, hkind⟩
    · exact .inl ⟨hvalid, hkind⟩
    · rcases (receiveByte_next b s1 t hb).2 with ⟨-, -, hvalid', hkind', -⟩ | ⟨hended, hpayload, hvalid', hkind', -⟩ |
        ⟨hop', hresult', hvalid', hkind', hstate'⟩
      · exact .inl ⟨hvalid'.trans hvalid, hkind'.trans hkind⟩
      · exact .inr (.inl ⟨hvalid', hkind', hended, hpayload⟩)
      · exact .inr (.inr ⟨hvalid', hkind', hop'.trans (hop1.trans hop), hresult'.trans hresult, hstate'.trans hstate⟩)
  · rw [exec_frameAck_valid hM, exec_frameNack_valid hM, Host.Outcome.next.injEq, Host.Outcome.next.injEq] at ht
    have hview : receiverView t = receiverView s := by
      rcases ht with rfl | rfl
      · exact receiverView_onAck s
      · exact receiverView_onNack s
    exact Prod.mk.inj (congrArg Prod.fst hview)

end Sys2Proof.Machine

namespace Sys2Proof.Machine

/-! ## A POLL_RX, byte by byte (43_arq_rx.md R150) -/

theorem drawRx_of_script {s : State} {r : RxResponse} {rest : List RxResponse} (h : s.rxScript = r :: rest) :
    drawRx s = (r, { s with rxScript := rest }) := by
  simp [drawRx, h]

/-- A byte runs as the row it decodes to at the decoder's position (40_cobs.md R90). -/
theorem exec_decodeWire (b : Byte) (s : State) :
    exec (decodeWire (wirePos s.decCode s.decCnt) b) s = runWireByte b s := by
  unfold decodeWire runWireByte
  split_ifs
  · rfl
  · cases wirePos s.decCode s.decCnt <;> rfl
  · cases wirePos s.decCode s.decCnt <;> rfl

/-- Settles O25, by the transport's answer. -/
theorem pollRxReadsOneByte : Obligations.PollRxReadsOneByte := by
  intro s rest hop
  have hexec : exec .pollRx s = rxMicro (begin .pollRx s) := whenFree_of_none _ _ hop
  have hdraw {r : RxResponse} (h : s.rxScript = r :: rest) :
      drawRx (begin .pollRx s) = (r, { begin .pollRx s with rxScript := rest }) := drawRx_of_script h
  have hended (r : Result) : finish r { begin .pollRx s with rxScript := rest } =
      { s with result := some r, rxScript := rest } := by
    simp only [finish, begin, hop]
  rw [hexec]
  refine ⟨fun h => ?_, fun e h => ?_, fun b h => ?_⟩
  · simp only [rxMicro, hdraw h, hended]
  · simp only [rxMicro, hdraw h, hended]
  · simp only [rxMicro, hdraw h]
    exact (exec_decodeWire b { begin .pollRx s with rxScript := rest }).symm

/-- The micro-step of a POLL_RX in progress that reads a byte (43_arq_rx.md R150). -/
theorem step_of_readyByte {s : State} {b : Byte} {rest : List RxResponse} (hop : s.curOp = .pollRx)
    (hs : s.txState ≠ .waitingRetry) :
    step { s with rxScript := .ready b :: rest } = receiveByte b { s with rxScript := rest } := by
  rw [step_of_pollRx (s := { s with rxScript := .ready b :: rest }) hop hs, rxMicro, drawRx_of_script rfl]
  exact runWireByte_eq_receiveByte b _

/-- The decoder does not see what the transport is going to answer. -/
theorem decStep_withRxScript (b : Byte) (script : List RxResponse) (s : State) :
    decStep b { s with rxScript := script } =
      (decStep b s).map fun answer => (answer.1, { answer.2 with rxScript := script }) := by
  have hstore (v : Byte) :
      store v { s with rxScript := script } = (store v s).map ({ · with rxScript := script }) := by
    unfold store overflows
    split_ifs
    · rfl
    · rfl
    · cases writeByte s.M s.rxBuffer s.rxCursor v <;> rfl
  unfold decStep
  split_ifs
  · rfl
  · rfl
  · rw [hstore]
    cases store b s <;> rfl
  · rw [hstore]
    cases store 0x00#8 s <;> rfl
  · rfl

/-- The decoder leaves the operation in progress and the sender alone. -/
theorem decStep_frame {b : Byte} {s t : State} {ev : Event} (h : decStep b s = .ok (ev, t)) :
    t.curOp = s.curOp ∧ t.txState = s.txState := by
  have hstored {v : Byte} {g : State → State} (hg : ∀ u, (g u).curOp = u.curOp ∧ (g u).txState = u.txState)
      (h : (store v s).map (fun u => (Event.none, g u)) = .ok (ev, t)) :
      t.curOp = s.curOp ∧ t.txState = s.txState := by
    cases hst : store v s with
    | error f => simp [hst, Except.map] at h
    | ok u =>
      obtain ⟨-, hop, -, -, -, hstate⟩ := store_next v s u hst
      obtain ⟨-, rfl⟩ : Event.none = ev ∧ g u = t := by simpa [hst, Except.map] using h
      exact ⟨(hg u).1.trans hop, (hg u).2.trans hstate⟩
  rcases decStep_cases b s with ⟨-, e⟩ | ⟨-, -, e⟩ | ⟨-, -, -, e⟩ | ⟨-, -, -, -, e⟩ | ⟨-, -, -, e⟩ <;> rw [e] at h
  · cases h; exact ⟨rfl, rfl⟩
  · cases h; exact ⟨rfl, rfl⟩
  · exact hstored (g := fun u => { u with decCnt := u.decCnt - 1#8 }) (fun _ => ⟨rfl, rfl⟩) h
  · exact hstored (g := startRun b) (fun _ => ⟨rfl, rfl⟩) h
  · cases h; exact ⟨rfl, rfl⟩

theorem run_one (s : State) : run 1 s = step s := by
  have hcore : Sys2Proof.core.step s = step s := rfl
  simp only [run, Host.Core.run, hcore]
  cases step s <;> rfl

/-- A POLL_RX that reads bytes of which only the last gives an event takes a step for each, and answers by that
event. -/
theorem run_of_decRun {b : Byte} {ev : Event} {t : State} {rest : List RxResponse} (bs : List Byte) :
    ∀ s : State, s.curOp = .pollRx → s.txState ≠ .waitingRetry →
      decRun (bs ++ [b]) s = .ok (List.replicate bs.length .none ++ [ev], t) →
      run (bs ++ [b]).length { s with rxScript := (bs ++ [b]).map .ready ++ rest } =
        onEvent ev { t with rxScript := rest } := by
  induction bs with
  | nil =>
    intro s hop hs hdec
    have hlast : decStep b s = .ok (ev, t) := by
      cases hb : decStep b s with
      | error f => simp [decRun, hb] at hdec
      | ok answer => simpa [decRun, hb, Prod.ext_iff] using hdec
    refine (run_one _).trans ((step_of_readyByte hop hs).trans ?_)
    simp only [receiveByte, decStep_withRxScript, hlast, Except.map]
    rfl
  | cons x bs ih =>
    intro s hop hs hdec
    obtain ⟨s1, hx, hrest⟩ : ∃ s1, decStep x s = .ok (.none, s1) ∧
        decRun (bs ++ [b]) s1 = .ok (List.replicate bs.length .none ++ [ev], t) := by
      cases hx : decStep x s with
      | error f => simp [decRun, hx] at hdec
      | ok answer =>
        cases hd : decRun (bs ++ [b]) answer.2 with
        | error f => simp [decRun, hx, hd] at hdec
        | ok answers =>
          simp only [decRun, hx, hd, List.cons_append, List.length_cons, List.replicate_succ, Except.ok.injEq,
            Prod.mk.injEq, List.cons.injEq] at hdec
          obtain ⟨⟨hnone, hevents⟩, hend⟩ := hdec
          exact ⟨answer.2, by rw [← hnone], by rw [← hevents, ← hend, hd]⟩
    obtain ⟨hop1, hs1⟩ := decStep_frame hx
    have hstep : step { s with rxScript := ((x :: bs) ++ [b]).map .ready ++ rest } =
        .next { s1 with rxScript := (bs ++ [b]).map .ready ++ rest } := by
      refine (step_of_readyByte hop hs).trans ?_
      simp only [receiveByte, decStep_withRxScript, hx, Except.map, onEvent]
      rfl
    exact (run_succ _ _ _ hstep).trans (ih s1 (hop1.trans hop) (hs1 ▸ hs) hrest)

/-- A POLL_RX in progress at a frame's start that reads the wire frame of a frame that fits runs that frame, with the
frame in `rx_buffer`. -/
theorem run_wireFrame {F : List Byte} {s : State} {rest : List RxResponse} (hfits : F.length ≤ s.M)
    (hop : s.curOp = .pollRx) (hs : s.txState ≠ .waitingRetry) (hstart : decoderAtStart s)
    (hscript : s.rxScript = (wireFrame F).map .ready ++ rest) :
    ∃ m : Memory, run (wireFrame F).length s = runFrame F { s with rxBuffer := m, rxScript := rest } := by
  obtain ⟨m, hdec, hread, -⟩ := decoderInvertsCobs F s hfits hstart
  have hrun := run_of_decRun (rest := rest) (cobsEncode F) s hop hs hdec
  rw [← wireFrame, ← hscript] at hrun
  exact ⟨m, hrun.trans (onEvent_complete hread)⟩

/-- Settles O38: the frame that the wire frame carries is the I-frame. -/
theorem wireFrameIsDelivered : Obligations.WireFrameIsDelivered := by
  intro p s rest hp hfits hs hop hstart hscript
  obtain ⟨m, hrun⟩ := run_wireFrame (F := iFrame p) (by rwa [iFrame_length]) hop hs hstart hscript
  refine ⟨m, ?_⟩
  rw [hrun, runFrame_eq_receiveFrame, if_neg (by rw [iFrame_length]; omega)]
  exact receiveFrame_iFrame hp hfits

end Sys2Proof.Machine

namespace Sys2Proof.Machine

/-! ## The host's operations: when they run, and what they answer (44_host_ops.md R170 to R180) -/

/-- Where no operation is in progress, an operation that ends at once leaves only its result (60_exceptions.md R190). -/
theorem finish_of_curOp_none {s : State} (hop : s.curOp = .none) (r : Result) :
    finish r s = { s with result := some r } := by
  simp [finish, hop]

/-- While an operation is in progress, a request has no move (44_host_ops.md R170). -/
theorem whenFree_of_ne_none {s : State} (hop : s.curOp ≠ .none) (answer : Out) :
    whenFree s answer = .refused .operationInProgress := by
  rw [whenFree_eq, if_neg hop]

/-- Settles O6: each of the five operations is guarded by `whenFree`. -/
theorem requestsDuringAnOperationHaveNoMove : Obligations.RequestsDuringAnOperationHaveNoMove := fun _ hop =>
  ⟨fun _ _ _ => whenFree_of_ne_none hop _, fun _ => whenFree_of_ne_none hop _, fun _ => whenFree_of_ne_none hop _,
    whenFree_of_ne_none hop _, whenFree_of_ne_none hop _⟩

/-- Settles O5: IS_IDLE ends at once, with the idle status as its result. -/
theorem isIdleReportsTheSender : Obligations.IsIdleReportsTheSender := fun s hop =>
  calc exec .isIdle s = .next (finish (.okBool (idleStatus s)) s) := whenFree_of_none _ _ hop
    _ = .next { s with result := some (.okBool (decide (s.txState = .idle))) } :=
        congrArg _ (finish_of_curOp_none hop _)

/-! ### CONSTRUCT -/

theorem exec_construct {s : State} (hop : s.curOp = .none) (n m interval : Nat) : exec (.construct n m interval) s =
    if n < 4 then .refused .txBufferTooShort else .next (finish .ok (constructed n m interval s)) :=
  whenFree_of_none _ _ hop

/-- CONSTRUCT takes from the old state only its outside and the count that the free values depend on (log entry
22). -/
theorem constructed_congr {s s' : State} (hrequests : s'.requests = s.requests) (hwire : s'.txWire = s.txWire)
    (htx : s'.txScript = s.txScript) (hrx : s'.rxScript = s.rxScript) (hcount : s'.freeCount = s.freeCount)
    (n m interval : Nat) :
    finish .ok (constructed n m interval s') = finish .ok (constructed n m interval s) := by
  simp only [finish, constructed, hrequests, hwire, htx, hrx, hcount]

/-- Settles O2: the registers are those of `constructed`, which reads only the outside of the old state. -/
theorem constructLeavesResetValues : Obligations.ConstructLeavesResetValues := by
  intro n m interval s hop
  refine ⟨fun hshort => ?_, fun hn => ⟨finish .ok (constructed n m interval s), ?_, ?_⟩,
    fun s' hop' hrequests hwire htx hrx hcount => ?_⟩
  · rw [exec_construct hop, if_pos hshort]
  · rw [exec_construct hop, if_neg (by omega)]
  · exact ⟨rfl, rfl, rfl, rfl, fun a => ⟨Memory.written_fresh _ a, Memory.written_fresh _ a⟩, rfl, rfl, rfl, rfl, rfl,
      rfl, rfl, rfl, rfl, rfl, rfl, rfl, rfl, rfl, rfl, rfl⟩
  · rw [exec_construct hop, exec_construct hop', constructed_congr hrequests hwire htx hrx hcount]

/-! ### SEND -/

/-- The checks of SEND in their order: BUSY, TOO_LONG, accepted (44_host_ops.md R174). -/
theorem exec_send {s : State} (hop : s.curOp = .none) (p : List Byte) : exec (.send p) s =
    if s.txState ≠ .idle then .next (finish .busy s)
    else if cap s < p.length then .next (finish .tooLong s)
    else sendAccepted p s :=
  whenFree_of_none _ _ hop

/-- An accepted SEND starts an attempt for the I-frame of its payload, which is at the start of `tx_buffer`
(44_host_ops.md R174, 20_memory.md R49). -/
theorem exec_send_accepted {p : List Byte} {s : State} (hop : s.curOp = .none) (hidle : s.txState = .idle)
    (hN : 4 ≤ s.N) (hp : p.length ≤ cap s) :
    ∃ m : Memory, exec (.send p) s = .next (finish .ok (attemptOf p m s)) ∧
      ∀ a, m.get a = if a < p.length + 4 then (iFrame p)[a]?.getD 0#8 else s.txBuffer.get a := by
  have hroom : p.length + 4 ≤ s.N := by simp only [cap] at hp; omega
  obtain ⟨m, hwrite, hget, -⟩ := writeIFrame_spec s.N s.txBuffer p hroom
  refine ⟨m, ?_, hget⟩
  rw [exec_send hop, if_neg (not_not.2 hidle), if_neg (Nat.not_lt.2 hp), sendAccepted, hwrite]
  rfl

/-- The bytes of an I-frame: header, length, payload, CRC with its high byte first (20_memory.md R49). -/
theorem iFrame_eq (p : List Byte) : iFrame p = 0x01#8 :: BitVec.ofNat 8 p.length :: (p ++
    [crcHi (crc16X25 (0x01#8 :: BitVec.ofNat 8 p.length :: p)),
      crcLo (crc16X25 (0x01#8 :: BitVec.ofNat 8 p.length :: p))]) := rfl

/-- Settles O4: the checks in order, and each byte of the buffer as a byte of the I-frame. -/
theorem sendBuildsTheFrame : Obligations.SendBuildsTheFrame := by
  intro p s hop
  refine ⟨fun hbusy => ?_, fun hidle hlong => ?_, fun hidle hN hp => ?_⟩
  · rw [exec_send hop, if_pos hbusy, finish_of_curOp_none hop]
  · rw [exec_send hop, if_neg (not_not.2 hidle), if_pos (show cap s < p.length from hlong),
      finish_of_curOp_none hop]
  · obtain ⟨m, hexec, hget⟩ := exec_send_accepted hop hidle hN hp
    have hframe {a : Nat} (ha : a < p.length + 4) : m.get a = (iFrame p)[a]?.getD 0#8 :=
      (hget a).trans (if_pos ha)
    refine ⟨m, ?_, ?_, ?_, fun i hi => ?_, ?_, ?_, fun a ha => ?_⟩
    · rw [hexec, finish_of_curOp_none (s := attemptOf p m s) hop]; rfl
    · rw [hframe (by omega), iFrame_eq]; rfl
    · rw [hframe (by omega), iFrame_eq]; rfl
    · rw [hframe (by omega), iFrame_eq]; simp [List.getElem?_append_left, hi]
    · rw [hframe (by omega), iFrame_eq]; simp [crcHi]
    · rw [hframe (by omega), iFrame_eq]; simp [crcLo]
    · rw [hget a, if_neg (by omega)]

/-! ### Every instruction -/

theorem Completes.exists_inv {s : State} {o : Out} (h : Completes s o) : ∃ t, o = .next t ∧ Inv t := by
  obtain ⟨t, ht, hinv, -⟩ := h
  exact ⟨t, ht, hinv⟩

/-- Settles O48: a host operation runs where none is in progress, and a frame or byte is always received. -/
theorem everyInstructionCompletes : Obligations.EveryInstructionCompletes := by
  intro s h
  have ofByte (b : Byte) : ∃ t, receiveByte b s = .next t ∧ Inv t := (h.receiveByte b).exists_inv
  refine ⟨fun n m interval hop hn => (Inv.execConstruct hop hn m interval).exists_inv,
    fun p hop => (h.execSend hop p).exists_inv, fun now hop => (h.execPollTx hop now).exists_inv,
    fun hop => (h.execPollRx hop).exists_inv, fun hop => (h.execIsIdle hop).exists_inv, fun f => ?_,
    ofByte 0x00#8, ofByte, ofByte 0xFF#8, ofByte⟩
  rw [exec_frameInstr]
  exact (h.receiveFrame (frameBytes f)).exists_inv

/-! ### What a step runs -/

theorem step_of_undecodable {s : State} {c : Command} {rest : List Command} {e : DecodeError}
    (hs : s.txState ≠ .waitingRetry) (hop : s.curOp = .none) (hrequests : s.requests = c :: rest)
    (hdecode : decodeCommand c = .error e) : step s = .refused (.undecodable e) := by
  simp [step, hs, hop, fetch, hrequests, hdecode]

/-- A block with nothing to do holds all its state (60_exceptions.md R209). -/
theorem step_of_no_request {s : State} (hs : s.txState ≠ .waitingRetry) (hop : s.curOp = .none)
    (hrequests : s.requests = []) : step s = .next s := by
  simp [step, hs, hop, fetch, hrequests]

/-- A byte at the head of the read script is run as its wire row (43_arq_rx.md R150). -/
theorem step_of_scriptedByte {s : State} {b : Byte} {rest : List RxResponse} (hs : s.txState ≠ .waitingRetry)
    (hop : s.curOp = .pollRx) (hscript : s.rxScript = .ready b :: rest) :
    step s = exec (decodeWire (wirePos s.decCode s.decCnt) b) { s with rxScript := rest } := by
  rw [step_of_pollRx hop hs, rxMicro, drawRx_of_script hscript]
  exact (exec_decodeWire b { s with rxScript := rest }).symm

/-- A requested POLL_TX runs as the step that the POLL_TX in progress takes (44_host_ops.md R176; log entry 1). -/
theorem exec_pollTx_eq_step {s : State} (hs : s.txState ≠ .waitingRetry) (hop : s.curOp = .none) (now : Instant) :
    exec (.pollTx now) s = step (begin (.pollTx now) s) :=
  (exec_pollTx hop now).trans (step_of_pollTx (s := begin (.pollTx now) s) rfl hs).symm

/-- A requested POLL_RX runs as the step that the POLL_RX in progress takes (44_host_ops.md R178; log entry 1). -/
theorem exec_pollRx_eq_step {s : State} (hs : s.txState ≠ .waitingRetry) (hop : s.curOp = .none) :
    exec .pollRx s = step (begin .pollRx s) :=
  (whenFree_of_none _ _ hop).trans (step_of_pollRx (s := begin .pollRx s) rfl hs).symm

/-- A poll in progress, with no result yet, is that poll begun again. -/
theorem begin_of_inProgress {s : State} {op : CurOp} (hop : s.curOp = op) (hresult : s.result = none) :
    begin op { s with curOp := .none } = s := by
  subst hop
  simp [begin, ← hresult]

/-- A POLL_TX in progress goes on as a requested one starts. -/
theorem step_eq_exec_pollTx {s : State} {now : Instant} (hs : s.txState ≠ .waitingRetry)
    (hop : s.curOp = .pollTx now) (hresult : s.result = none) :
    step s = exec (.pollTx now) { s with curOp := .none } :=
  calc step s = step (begin (.pollTx now) { s with curOp := .none }) := by rw [begin_of_inProgress hop hresult]
    _ = exec (.pollTx now) { s with curOp := .none } :=
        (exec_pollTx_eq_step (s := { s with curOp := .none }) hs rfl now).symm

/-- A POLL_RX in progress goes on as a requested one starts. -/
theorem step_eq_exec_pollRx {s : State} (hs : s.txState ≠ .waitingRetry) (hop : s.curOp = .pollRx)
    (hresult : s.result = none) : step s = exec .pollRx { s with curOp := .none } :=
  calc step s = step (begin .pollRx { s with curOp := .none }) := by rw [begin_of_inProgress hop hresult]
    _ = exec .pollRx { s with curOp := .none } :=
        (exec_pollRx_eq_step (s := { s with curOp := .none }) hs rfl).symm

/-- Settles O40, by what is in progress and what is next. -/
theorem stepRunsTheDecodedInstruction : Obligations.StepRunsTheDecodedInstruction := fun _ hs =>
  ⟨fun _ _ _ => step_of_request hs, fun _ _ _ => step_of_undecodable hs, step_of_no_request hs,
    fun _ _ => step_of_scriptedByte hs, fun _ => step_eq_exec_pollTx hs, step_eq_exec_pollRx hs⟩

end Sys2Proof.Machine

namespace Sys2Proof.Machine

/-! ## A lossless exchange, leg by leg (95_test_vectors.md V-SRC-L3, P1) -/

/-! ### The S-frame of an answer, byte by byte (42_arq_tx.md R127, R131) -/

/-- What lets a POLL_TX send an S-frame's byte: one is in progress, or one is queued and no I-frame is in progress. -/
def SFrameDue (s : State) : Prop :=
  s.sIdx ≠ 0#3 ∨ (s.sqValid = true ∧ ¬(s.txState = .sending ∧ s.txCursor ≠ 0#9))

/-- The state after what is left of the S-frame has been accepted (42_arq_tx.md R131). -/
def sFrameDone (rest : List TxResponse) (s : State) : State :=
  { s with
    sKind := offeredKind s
    sqValid := if s.sIdx = 0#3 then false else s.sqValid
    sIdx := 0#3
    txWire := s.txWire ++ (sBytes (offeredKind s)).drop s.sIdx.toNat
    txScript := rest }

/-- The state after the S-frame's byte `b` has been accepted. -/
def sByteAccepted (b : Byte) (rest : List TxResponse) (s : State) : State :=
  { s with
    sKind := offeredKind s
    sqValid := if s.sIdx = 0#3 then false else s.sqValid
    sIdx := if s.sIdx = 5#3 then 0#3 else s.sIdx + 1#3
    txWire := s.txWire ++ [b]
    txScript := rest }

/-- A POLL_TX in progress whose S-frame byte the transport accepts: byte `s_idx` of the kind's constant. -/
theorem step_sByte {now : Instant} {s : State} {rest : List TxResponse} (hs : s.txState ≠ .waitingRetry)
    (hop : s.curOp = .pollTx now) (hresult : s.result = none) (hidx : s.sIdx.toNat ≤ 5) (hdue : SFrameDue s)
    (hscript : s.txScript = .ready :: rest) :
    ∃ b, (sBytes (offeredKind s))[s.sIdx.toNat]? = some b ∧ step s = .next (sByteAccepted b rest s) := by
  obtain ⟨b, hb, hexec⟩ := pollTxSendsTheSFrame now { s with curOp := .none } rest rfl hidx hdue hscript
  refine ⟨b, hb, (step_eq_exec_pollTx hs hop hresult).trans (hexec.trans ?_)⟩
  rw [← hop, ← hresult]
  rfl

/-- The S-frame's last byte leaves it done. -/
theorem sByteAccepted_last {b : Byte} {s : State} (hlast : s.sIdx = 5#3)
    (hb : (sBytes (offeredKind s))[s.sIdx.toNat]? = some b) (rest : List TxResponse) :
    sByteAccepted b rest s = sFrameDone rest s := by
  have hwire : (sBytes (offeredKind s)).drop s.sIdx.toNat = [b] := by
    obtain ⟨hlt, rfl⟩ := List.getElem?_eq_some_iff.1 hb
    have hlength : (sBytes (offeredKind s)).length = s.sIdx.toNat + 1 := by
      rw [hlast]; cases offeredKind s <;> rfl
    rw [List.drop_eq_getElem_cons hlt, List.drop_eq_nil_of_le hlength.le]
  rw [sByteAccepted, sFrameDone, hwire, if_pos hlast]

/-- An accepted byte that is not the last leaves one byte less for the same end. -/
theorem sFrameDone_sByteAccepted {b : Byte} {s : State} (hmore : s.sIdx ≠ 5#3) (hnext : s.sIdx + 1#3 ≠ 0#3)
    (hb : (sBytes (offeredKind s))[s.sIdx.toNat]? = some b) (rest rest' : List TxResponse) :
    sFrameDone rest (sByteAccepted b rest' s) = sFrameDone rest s := by
  have hidx : (sByteAccepted b rest' s).sIdx = s.sIdx + 1#3 := if_neg hmore
  have hkind : offeredKind (sByteAccepted b rest' s) = offeredKind s := by rw [offeredKind, hidx, if_neg hnext]; rfl
  have hwire : (sByteAccepted b rest' s).txWire ++ (sBytes (offeredKind s)).drop (s.sIdx + 1#3).toNat =
      s.txWire ++ (sBytes (offeredKind s)).drop s.sIdx.toNat := by
    obtain ⟨hlt, rfl⟩ := List.getElem?_eq_some_iff.1 hb
    have hcount : (s.sIdx + 1#3).toNat = s.sIdx.toNat + 1 := by bv_omega
    rw [hcount, List.drop_eq_getElem_cons hlt]
    simp [sByteAccepted]
  rw [sFrameDone, hidx, hkind, hwire, if_neg hnext]
  rfl

/-- From anywhere inside an S-frame, or before its first byte, the rest of it is put on the wire. -/
theorem run_sFrame {now : Instant} {rest : List TxResponse} (n : Nat) :
    ∀ {s : State}, s.txState ≠ .waitingRetry → s.curOp = .pollTx now → s.result = none → SFrameDue s →
      s.sIdx.toNat + (n + 1) = 6 → s.txScript = List.replicate (n + 1) .ready ++ rest →
      run (n + 1) s = .next (sFrameDone rest s) := by
  induction n with
  | zero =>
    intro s hs hop hresult hdue hend hscript
    obtain ⟨b, hb, hstep⟩ := step_sByte (rest := rest) hs hop hresult (by omega) hdue hscript
    rw [run_one, hstep, sByteAccepted_last (by bv_omega) hb]
  | succ n ih =>
    intro s hs hop hresult hdue hend hscript
    obtain ⟨b, hb, hstep⟩ :=
      step_sByte (rest := List.replicate (n + 1) TxResponse.ready ++ rest) hs hop hresult (by omega) hdue
        hscript
    obtain ⟨hmore, hnext, hcount⟩ :
        s.sIdx ≠ 5#3 ∧ s.sIdx + 1#3 ≠ 0#3 ∧ (s.sIdx + 1#3).toNat = s.sIdx.toNat + 1 := by bv_omega
    have hidx : (sByteAccepted b (List.replicate (n + 1) .ready ++ rest) s).sIdx = s.sIdx + 1#3 := if_neg hmore
    rw [run_succ _ _ _ hstep, ← sFrameDone_sByteAccepted hmore hnext hb rest]
    exact ih hs hop hresult (.inl (by rwa [hidx])) (by rw [hidx, hcount]; omega) rfl

/-! ### The five legs: each a request, and what it answers -/

/-- A requested POLL_TX runs as the one it starts. -/
theorem run_pollTxRequest {s : State} {now : Instant} (hs : s.txState ≠ .waitingRetry) (hop : s.curOp = .none)
    (hrequests : s.requests = [⟨0x02#8, [.nat now]⟩]) {k : Nat} (hk : 1 ≤ k) :
    run k s = run k (begin (.pollTx now) { s with requests := [] }) :=
  run_eq_of_step_eq ((step_of_request hs hop hrequests rfl).trans
    (exec_pollTx_eq_step (s := { s with requests := [] }) hs hop now)) hk

/-- A requested POLL_RX runs as the one it starts. -/
theorem run_pollRxRequest {s : State} (hs : s.txState ≠ .waitingRetry) (hop : s.curOp = .none)
    (hrequests : s.requests = [⟨0x03#8, []⟩]) {k : Nat} (hk : 1 ≤ k) :
    run k s = run k (begin .pollRx { s with requests := [] }) :=
  run_eq_of_step_eq ((step_of_request hs hop hrequests rfl).trans
    (exec_pollRx_eq_step (s := { s with requests := [] }) hs hop)) hk

/-- A frame at the start of `tx_buffer`, with its payload's length in `tx_len`, is the encoder's source. -/
theorem txSource_of_iFrame {s : State} {p : List Byte} (hlen : s.txLen.toNat = p.length) (hroom : p.length + 4 ≤ s.N)
    (hget : ∀ a, a < p.length + 4 → s.txBuffer.get a = (iFrame p)[a]?.getD 0#8) : txSource s = .ok (iFrame p) := by
  rw [txSource, txSourceLen, hlen, ← iFrame_length p]
  refine readBytes_of_get _ _ _ (by rwa [iFrame_length]) fun j hj => ?_
  rw [hget j (by rwa [iFrame_length] at hj), List.getElem?_eq_getElem hj, Option.getD_some]

/-- SEND to an Idle sender: the I-frame of the payload becomes the encoder's source. -/
theorem Inv.run_sendRequest {s : State} (h : Inv s) {p : List Byte} (hop : s.curOp = .none) (hidle : s.txState = .idle)
    (hp : p.length ≤ cap s) :
    ∃ m, run 1 { s with requests := [⟨0x01#8, [.bytes p]⟩] } =
        .next (Machine.finish .ok (attemptOf p m { s with requests := [] })) ∧
      Inv (Machine.finish .ok (attemptOf p m { s with requests := [] })) ∧
      txSource (Machine.finish .ok (attemptOf p m { s with requests := [] })) = .ok (iFrame p) := by
  obtain ⟨hroom, hlen⟩ := h.room hp
  obtain ⟨m, hexec, hget⟩ := exec_send_accepted (s := { s with requests := [] }) hop hidle h.bufferLength hp
  have hstep := (step_of_request (s := { s with requests := [⟨0x01#8, [.bytes p]⟩] }) h.neverWaitingRetry hop rfl
    rfl).trans hexec
  exact ⟨m, (run_one _).trans hstep, (stepKeepsTheInvariant _ _ (h.withRequests _) hstep).1,
    txSource_of_iFrame hlen hroom fun j hj => (hget j).trans (if_pos hj)⟩

/-- POLL_TX at the start of an attempt: the wire frame is put on the wire and the timer armed. -/
theorem Inv.run_attemptRequest {s : State} (h : Inv s) {now : Instant} {S : List Byte} (hop : s.curOp = .none)
    (hrequests : s.requests = [⟨0x02#8, [.nat now]⟩]) (hidx : s.sIdx = 0#3) (hnone : s.sqValid = false)
    (hs : s.txState = .sending) (hcursor : s.txCursor = 0#9) (hS : txSource s = .ok S)
    (hscript : s.txScript = List.replicate (wireFrame S).length .ready) :
    ∃ e : Encoder, run (wireFrame S).length s = .next { s with
      requests := [], enc := e, txState := .awaitingAck, txRetryDeadline := now + s.retryInterval, txCursor := 0#9,
      txWire := s.txWire ++ wireFrame S, txScript := [], curOp := .none, result := some .ok } := by
  obtain ⟨e, -, hrun⟩ := attemptEmitsTheWireFrame now (Machine.begin (.pollTx now) { s with requests := [] }) S []
    ((h.withRequests []).begin _) rfl hidx hnone hs hcursor hS (by simp [hscript])
  exact ⟨e, (run_pollTxRequest h.neverWaitingRetry hop hrequests (wireFrame_length_pos S)).trans hrun⟩

/-- POLL_RX at a frame's start: the payload is returned and an ACK queued. -/
theorem run_deliveryRequest {s : State} {p : List Byte} (hp : p.length ≤ 255) (hfits : p.length + 4 ≤ s.M)
    (hs : s.txState ≠ .waitingRetry) (hop : s.curOp = .none) (hrequests : s.requests = [⟨0x03#8, []⟩])
    (hstart : decoderAtStart s) (hscript : s.rxScript = (wireFrame (iFrame p)).map .ready) :
    ∃ m : Memory, run (wireFrame (iFrame p)).length s = .next { s with
      requests := [], rxBuffer := m, sqValid := true, sqKind := .ack, curOp := .none,
      result := some (.okMessage (some p)), rxScript := [] } := by
  obtain ⟨m, hrun⟩ := wireFrameIsDelivered p (begin .pollRx { s with requests := [] }) [] hp hfits hs rfl hstart
    (by simp [hscript])
  exact ⟨m, (run_pollRxRequest hs hop hrequests (wireFrame_length_pos _)).trans hrun⟩

/-- A POLL_TX in progress of an Idle sender with an S-frame queued: it ends when the S-frame is on the wire. -/
theorem run_queuedSFrame {s : State} {now : Instant} (hidle : s.txState = .idle) (hop : s.curOp = .pollTx now)
    (hresult : s.result = none) (hidx : s.sIdx = 0#3) (hqueued : s.sqValid = true)
    (hscript : s.txScript = List.replicate 6 .ready) : run 7 s = .next (finish .ok (sFrameDone [] s)) := by
  have hs : s.txState ≠ .waitingRetry := by simp [hidle]
  have hsent : run 6 s = .next (sFrameDone [] s) :=
    run_sFrame 5 hs hop hresult (.inr ⟨hqueued, by simp [hidle]⟩) (by simp [hidx]) (by simp [hscript])
  have hquiet : select now (sFrameDone [] s) = (none, sFrameDone [] s) :=
    select_nothing rfl (if_pos hidx) (.inl hidle)
  rw [run_add 6 1 _ _ hsent, run_one, step_of_pollTx (s := sFrameDone [] s) hop hs, txMicro_of_select_none hquiet]

/-- POLL_TX of an Idle sender with an S-frame queued: the whole constant is put on the wire (42_arq_tx.md R126). -/
theorem run_answerRequest {s : State} {now : Instant} (hidle : s.txState = .idle) (hop : s.curOp = .none)
    (hrequests : s.requests = [⟨0x02#8, [.nat now]⟩]) (hidx : s.sIdx = 0#3) (hqueued : s.sqValid = true)
    (hscript : s.txScript = List.replicate 6 .ready) :
    ∃ t, run 7 s = .next t ∧ t.txWire = s.txWire ++ sBytes s.sqKind ∧ t.result = some .ok := by
  refine ⟨_, (run_pollTxRequest (by simp [hidle]) hop hrequests (by omega)).trans
    (run_queuedSFrame hidle rfl rfl hidx hqueued hscript), ?_, rfl⟩
  simp [sFrameDone, offeredKind, hidx]

theorem decodeFrame_ack : decodeFrame (sFrame .ack) = .ok (.frameAck 0x00#8 [] 0x3CF7#16) := by
  rw [sFrame_ack]
  rfl

/-- A POLL_RX in progress ends at a would-block (43_arq_rx.md R150). -/
theorem step_of_readWouldBlock {s : State} {rest : List RxResponse} (hs : s.txState ≠ .waitingRetry)
    (hop : s.curOp = .pollRx) (hscript : s.rxScript = .wouldBlock :: rest) :
    step s = .next (finish (.okMessage none) { s with rxScript := rest }) := by
  rw [step_of_pollRx hop hs, rxMicro, drawRx_of_script hscript]

/-- A POLL_RX in progress that reads an ACK: the sender is free, and the POLL_RX ends at the would-block. -/
theorem run_ackRead {s : State} (hawaiting : s.txState = .awaitingAck) (hop : s.curOp = .pollRx) (hM : 4 ≤ s.M)
    (hstart : decoderAtStart s) (hscript : s.rxScript = (sBytes .ack).map .ready ++ [.wouldBlock]) :
    ∃ m : Memory, run 7 s = .next (finish (.okMessage none)
      { s with rxBuffer := m, txState := .idle, txLen := 0#8, rxScript := [] }) := by
  rw [← wireFrame_sFrame] at hscript
  obtain ⟨m, hread⟩ := run_wireFrame (F := sFrame .ack) hM hop (by simp [hawaiting]) hstart hscript
  have hfreed := (ackFreesTheSender { s with rxBuffer := m, rxScript := [.wouldBlock] } hM).1 hawaiting
  rw [runFrame_eq_exec _ _ _ decodeFrame_ack, hfreed, wireFrame_sFrame] at hread
  exact ⟨m, (run_add 6 1 _ _ hread).trans ((run_one _).trans (step_of_readWouldBlock (by simp) hop rfl))⟩

/-- POLL_RX of a sender that awaits an answer, reading an ACK: the sender is Idle again. -/
theorem run_ackReadRequest {s : State} (hawaiting : s.txState = .awaitingAck) (hop : s.curOp = .none)
    (hrequests : s.requests = [⟨0x03#8, []⟩]) (hM : 4 ≤ s.M) (hstart : decoderAtStart s)
    (hscript : s.rxScript = (sBytes .ack).map .ready ++ [.wouldBlock]) :
    ∃ t, run 7 s = .next t ∧ t.result = some (.okMessage none) ∧ t.txState = .idle ∧ t.txLen = 0#8 := by
  obtain ⟨m, hrun⟩ := run_ackRead (s := begin .pollRx { s with requests := [] }) hawaiting rfl hM hstart hscript
  exact ⟨_, (run_pollRxRequest (by simp [hawaiting]) hop hrequests (by omega)).trans hrun, rfl, rfl, rfl⟩

/-! ### The exchange -/

/-- The sender's legs: SEND, the POLL_TX of the attempt, and the POLL_RX of the ACK. -/
theorem Inv.senderLegs {a : State} (h : Inv a) {p : List Byte} (now : Instant) (hop : a.curOp = .none)
    (hidle : a.txState = .idle) (hidx : a.sIdx = 0#3) (hnone : a.sqValid = false) (hstart : decoderAtStart a)
    (hM : 4 ≤ a.M) (hp : p.length ≤ cap a) :
    ∃ a1, run 1 { a with requests := [⟨0x01#8, [.bytes p]⟩] } = .next a1 ∧ a1.result = some .ok ∧
    ∃ a2, run (wireFrame (iFrame p)).length { a1 with
        requests := [⟨0x02#8, [.nat now]⟩]
        txScript := List.replicate (wireFrame (iFrame p)).length .ready } = .next a2 ∧
      a2.txWire = a.txWire ++ wireFrame (iFrame p) ∧ a2.result = some .ok ∧ a2.txState = .awaitingAck ∧
    ∃ a3, run 7 { a2 with
        requests := [⟨0x03#8, []⟩], rxScript := (sBytes .ack).map .ready ++ [.wouldBlock] } = .next a3 ∧
      a3.result = some (.okMessage none) ∧ a3.txState = .idle ∧ a3.txLen = 0#8 := by
  obtain ⟨m, hsend, hinv, hsource⟩ := h.run_sendRequest hop hidle hp
  obtain ⟨e, hattempt⟩ := Inv.run_attemptRequest
    (s := { Machine.finish .ok (attemptOf p m { a with requests := [] }) with
      requests := [⟨0x02#8, [.nat now]⟩], txScript := List.replicate (wireFrame (iFrame p)).length .ready })
    { hinv with } rfl rfl hidx hnone rfl rfl hsource rfl
  exact ⟨_, hsend, rfl, _, hattempt, rfl, rfl, rfl, run_ackReadRequest rfl rfl rfl hM hstart rfl⟩

/-- The receiver's legs: the POLL_RX of the wire frame, and the POLL_TX of the ACK. -/
theorem receiverLegs {b : State} {p : List Byte} (now : Instant) (hop : b.curOp = .none) (hidle : b.txState = .idle)
    (hidx : b.sIdx = 0#3) (hstart : decoderAtStart b) (hp : p.length ≤ 255) (hfits : p.length + 4 ≤ b.M) :
    ∃ b1, run (wireFrame (iFrame p)).length
        { b with requests := [⟨0x03#8, []⟩], rxScript := (wireFrame (iFrame p)).map .ready } = .next b1 ∧
      b1.result = some (.okMessage (some p)) ∧
    ∃ b2, run 7 { b1 with requests := [⟨0x02#8, [.nat now]⟩], txScript := List.replicate 6 .ready } = .next b2 ∧
      b2.txWire = b.txWire ++ sBytes .ack ∧ b2.result = some .ok := by
  obtain ⟨m, hdelivered⟩ := run_deliveryRequest (s := { b with
    requests := [⟨0x03#8, []⟩], rxScript := (wireFrame (iFrame p)).map .ready }) hp hfits (by simp [hidle]) hop rfl
    hstart rfl
  exact ⟨_, hdelivered, rfl, run_answerRequest hidle rfl rfl hidx rfl rfl⟩

/-- Settles O39: each peer's legs run by themselves, since what passes between the peers is the bytes on the wire. -/
theorem losslessExchangeCompletes : Obligations.LosslessExchangeCompletes := by
  intro p a b nowA nowB ha _ hopA hidleA hidxA hnoneA hstartA hMA hopB hidleB hidxB _ hstartB hp hfits
  obtain ⟨a1, hsend, hsent, a2, hattempt, hwire, hended, hawaiting, a3, hackRead, hnothing, hidle, hlen⟩ :=
    ha.senderLegs nowA hopA hidleA hidxA hnoneA hstartA hMA hp
  obtain ⟨b1, hdelivered, hpayload, b2, hanswer, hackWire, hacked⟩ :=
    receiverLegs nowB hopB hidleB hidxB hstartB (hp.trans (Nat.min_le_left ..)) hfits
  exact ⟨a1, a2, a3, b1, b2, hsend, hsent, hattempt, hwire, hended, hawaiting, hdelivered, hpayload, hanswer, hackWire,
    hacked, hackRead, hnothing, hidle, hlen⟩

end Sys2Proof.Machine

namespace Sys2Proof.Machine

/-! ## The results of the operations, and the transport (60_exceptions.md R190, R205) -/

/-! ### The two polls -/

/-- A micro-step of POLL_RX ends it with a result of R190, or leaves it in progress (44_host_ops.md R178). -/
theorem rxMicro_ends {s t : State} (h : rxMicro s = .next t) :
    (t.curOp = .none ∧ ((∃ msg, t.result = some (.okMessage msg)) ∨ ∃ e, t.result = some (.transportError e))) ∨
    (t.curOp = s.curOp ∧ t.result = s.result) := by
  obtain ⟨s1, hs1, hcase⟩ := rxMicro_next s t h
  have hread : s1.curOp = s.curOp ∧ s1.result = s.result := by
    rcases hs1 with rfl | ⟨r, rest, -, rfl⟩ <;> exact ⟨rfl, rfl⟩
  obtain ⟨hop, hresult⟩ := hread
  rcases hcase with rfl | ⟨e, rfl⟩ | ⟨b, hb⟩
  · exact .inl ⟨rfl, .inl ⟨none, rfl⟩⟩
  · exact .inl ⟨rfl, .inr ⟨e, rfl⟩⟩
  · rcases (receiveByte_next b s1 t hb).2 with ⟨hop', hresult', -⟩ | ⟨hended, ⟨p, hpayload⟩, -⟩ | ⟨hop', hresult', -⟩
    · exact .inr ⟨hop'.trans hop, hresult'.trans hresult⟩
    · exact .inl ⟨hended, .inl ⟨some p, hpayload⟩⟩
    · exact .inr ⟨hop'.trans hop, hresult'.trans hresult⟩

/-- A micro-step of POLL_RX writes nothing to the transport and takes at most one answer to a read
(43_arq_rx.md R150). -/
theorem rxMicro_transport {s t : State} (h : rxMicro s = .next t) :
    t.txWire = s.txWire ∧ t.txScript = s.txScript ∧
    (t.rxScript = s.rxScript ∨ ∃ r, s.rxScript = r :: t.rxScript) := by
  obtain ⟨s1, hs1, hcase⟩ := rxMicro_next s t h
  have hread : s1.txWire = s.txWire ∧ s1.txScript = s.txScript ∧
      (s1.rxScript = s.rxScript ∨ ∃ r, s.rxScript = r :: s1.rxScript) := by
    rcases hs1 with rfl | ⟨r, rest, hscript, rfl⟩
    · exact ⟨rfl, rfl, .inl rfl⟩
    · exact ⟨rfl, rfl, .inr ⟨r, hscript⟩⟩
  rcases hcase with rfl | ⟨e, rfl⟩ | ⟨b, hb⟩
  · exact hread
  · exact hread
  · have frame := (receiveByte_next b s1 t hb).1
    rwa [frame.txWire, frame.txScript, frame.rxScript]

/-! ### What each host operation ends with -/

theorem execSend_result {p : List Byte} {s t : State} (h : execSend p s = .next t) : t.curOp = .none ∧
    (t.result = some .ok ∨ (t.result = some .busy ∧ s.txState ≠ .idle) ∨
      (t.result = some .tooLong ∧ s.txState = .idle ∧ min 255 (s.N - 4) < p.length)) := by
  rcases (execSend_next p s t h).2 with ⟨hbusy, rfl⟩ | ⟨hidle, hlong, rfl⟩ | ⟨-, m, -, rfl⟩
  · exact ⟨rfl, .inr (.inl ⟨rfl, hbusy⟩)⟩
  · exact ⟨rfl, .inr (.inr ⟨rfl, hidle, hlong⟩)⟩
  · exact ⟨rfl, .inl rfl⟩

theorem execPollTx_result {now : Instant} {s t : State} (h : execPollTx now s = .next t) :
    (t.curOp = .pollTx now ∧ t.result = none) ∨
    (t.curOp = .none ∧ (t.result = some .ok ∨ ∃ e, t.result = some (.transportError e))) :=
  (txMicro_next now _ t (whenFree_next _ _ _ h).2).ends.symm

theorem execPollRx_result {s t : State} (h : execPollRx s = .next t) :
    (t.curOp = .pollRx ∧ t.result = none) ∨
    (t.curOp = .none ∧ ((∃ msg, t.result = some (.okMessage msg)) ∨ ∃ e, t.result = some (.transportError e))) :=
  (rxMicro_ends (whenFree_next _ _ _ h).2).symm

theorem execIsIdle_result {s t : State} (h : execIsIdle s = .next t) :
    t.curOp = .none ∧ t.result = some (.okBool (idleStatus s)) := by
  cases (whenFree_next _ _ _ h).2
  exact ⟨rfl, rfl⟩

/-- Settles O8, by the operation. -/
theorem resultsOfEachOperation : Obligations.ResultsOfEachOperation := by
  intro i s t h
  refine ⟨?_, ?_, ?_, ?_, ?_⟩
  · rintro n m interval rfl
    obtain ⟨-, -, rfl⟩ := execConstruct_next n m interval s t h
    exact ⟨rfl, rfl⟩
  · rintro p rfl
    exact execSend_result h
  · rintro now rfl
    exact execPollTx_result h
  · rintro rfl
    exact execPollRx_result h
  · rintro rfl
    obtain ⟨hended, hresult⟩ := execIsIdle_result h
    exact ⟨hended, _, hresult⟩

/-! ### Who calls the transport -/

/-- A SEND calls no transport (44_host_ops.md R174). -/
theorem execSend_transport {p : List Byte} {s t : State} (h : execSend p s = .next t) :
    t.txWire = s.txWire ∧ t.txScript = s.txScript ∧ t.rxScript = s.rxScript := by
  rcases (execSend_next p s t h).2 with ⟨-, rfl⟩ | ⟨-, -, rfl⟩ | ⟨-, m, -, rfl⟩ <;> exact ⟨rfl, rfl, rfl⟩

/-- A step of POLL_TX makes at most one write and no read, one of POLL_RX at most one read and no write, and every
other step neither. -/
theorem step_transport {s t : State} (h : step s = .next t) :
    (∃ now, stepOp s = some (.pollTx now) ∧ (t.txWire = s.txWire ∨ ∃ b, t.txWire = s.txWire ++ [b]) ∧
      (t.txScript = s.txScript ∨ ∃ r, s.txScript = r :: t.txScript) ∧ t.rxScript = s.rxScript) ∨
    (stepOp s = some .pollRx ∧ t.txWire = s.txWire ∧ t.txScript = s.txScript ∧
      (t.rxScript = s.rxScript ∨ ∃ r, s.rxScript = r :: t.rxScript)) ∨
    (t.txWire = s.txWire ∧ t.txScript = s.txScript ∧ t.rxScript = s.rxScript) := by
  rcases (step_next s t h).2 with ⟨now, u, hop, hu, hstart⟩ | ⟨u, hop, hu, hstart⟩ | ⟨-, rfl⟩ | ⟨p, rest, -, hsend⟩ |
    ⟨n, m, interval, rest, -, hconstruct⟩ | ⟨rest, -, rfl⟩
  · have micro := txMicro_next now u t hu
    rcases hstart with rfl | ⟨-, rest, rfl⟩ <;> exact .inl ⟨now, hop, micro.wire, micro.script, micro.rxScript⟩
  · have micro := rxMicro_transport hu
    rcases hstart with rfl | ⟨-, rest, rfl⟩ <;> exact .inr (.inl ⟨hop, micro⟩)
  · exact .inr (.inr ⟨rfl, rfl, rfl⟩)
  · have untouched := execSend_transport hsend
    exact .inr (.inr untouched)
  · obtain ⟨-, -, rfl⟩ := execConstruct_next n m interval _ t hconstruct
    exact .inr (.inr ⟨rfl, rfl, rfl⟩)
  · exact .inr (.inr ⟨rfl, rfl, rfl⟩)

/-- Settles O42, by whether the step is one of POLL_TX, of POLL_RX, or of neither. -/
theorem onlyPollsTouchTheTransport : Obligations.OnlyPollsTouchTheTransport := by
  intro s t h
  rcases step_transport h with ⟨now, hop, hwire, htx, hrx⟩ | ⟨hop, hwire, htx, hrx⟩ | ⟨hwire, htx, hrx⟩
  · exact ⟨hwire, htx, .inl hrx, fun hnotTx => absurd hop (hnotTx now), fun _ => hrx⟩
  · exact ⟨.inl hwire, .inl htx, hrx, fun _ => ⟨hwire, htx⟩, fun hnotRx => absurd hop hnotRx⟩
  · exact ⟨.inl hwire, .inl htx, .inl hrx, fun _ => ⟨hwire, htx⟩, fun _ => hrx⟩

end Sys2Proof.Machine

namespace Sys2Proof.Machine

/-! ## Stray delimiters, and the first operations (70_reset_and_hazards.md R211, R224, R228) -/

/-- At a frame's start, the decoder's registers are as a delimiter leaves them (40_cobs.md R92). -/
theorem decReset_of_decoderAtStart {s : State} (hstart : decoderAtStart s) : decReset s = s := by
  cases s
  obtain ⟨rfl, rfl, rfl, rfl⟩ := hstart
  rfl

/-- A stray delimiter ends an empty frame: it queues a NACK and leaves the decoder at a frame's start
(30_encoding.md R71 (a)). -/
theorem exec_wireDelim_of_decoderAtStart {s : State} (hstart : decoderAtStart s) :
    exec .wireDelim s = .next (nackQueued s) := by
  have hempty : delimEvent s = .malformed .empty := if_pos hstart.1
  rw [exec_wireDelim_of_malformed hempty, decReset_of_decoderAtStart hstart]

/-- A POLL_RX in progress that reads a stray delimiter goes on (43_arq_rx.md R150). -/
theorem step_of_strayDelimiter {s : State} {rest : List RxResponse} (hs : s.txState ≠ .waitingRetry)
    (hop : s.curOp = .pollRx) (hstart : decoderAtStart s) (hscript : s.rxScript = .ready 0x00#8 :: rest) :
    step s = .next (nackQueued { s with rxScript := rest }) :=
  (step_of_scriptedByte hs hop hscript).trans
    (exec_wireDelim_of_decoderAtStart (s := { s with rxScript := rest }) hstart)

/-- Settles O30, by induction on the delimiters: each leaves the POLL_RX in progress at a frame's start, and its NACK
replaces the one before (42_arq_tx.md R124). -/
theorem pollRxMayGoOnForEver : Obligations.PollRxMayGoOnForEver := by
  intro k
  induction k with
  | zero =>
    intro s rest hs hop hstart hscript
    exact (run_one s).trans (step_of_strayDelimiter hs hop hstart hscript)
  | succ k ih =>
    intro s rest hs hop hstart hscript
    have hstep : step s =
        .next (nackQueued { s with rxScript := List.replicate (k + 1) (.ready 0x00#8) ++ rest }) :=
      step_of_strayDelimiter hs hop hstart hscript
    exact (run_succ _ _ _ hstep).trans (ih _ rest hs hop hstart rfl)

/-- A requested POLL_RX that reads a frame's first code byte starts that byte's run and goes on (40_cobs.md R93). -/
theorem exec_pollRx_of_firstCode {s : State} {b : Byte} {rest : List RxResponse} (hop : s.curOp = .none)
    (hcode : s.decCode = 0#8) (hb : b ≠ 0#8) (hscript : s.rxScript = .ready b :: rest) :
    exec .pollRx s = .next (startRun b { begin .pollRx s with rxScript := rest }) :=
  calc exec .pollRx s
    _ = exec (decodeWire (wirePos s.decCode s.decCnt) b) { begin .pollRx s with rxScript := rest } :=
        (pollRxReadsOneByte s rest hop).2.2 b hscript
    _ = receiveByte b { begin .pollRx s with rxScript := rest } :=
        (exec_decodeWire b { begin .pollRx s with rxScript := rest }).trans (runWireByte_eq_receiveByte b _)
    _ = .next (startRun b { begin .pollRx s with rxScript := rest }) := receiveByte_firstCode hb hcode

/-- Settles O3: the state CONSTRUCT answers is Idle, with nothing to send and the decoder at a frame's start. -/
theorem firstOperationsAfterConstruct : Obligations.FirstOperationsAfterConstruct := by
  intro n m interval s t _ _ ht
  obtain ⟨-, -, rfl⟩ := execConstruct_next n m interval s t ht
  exact ⟨isIdleReportsTheSender _ rfl, fun now => pollTxWithNothingToSend now _ rfl rfl rfl (.inl rfl),
    fun _ _ hb hscript => exec_pollRx_of_firstCode rfl rfl hb hscript⟩

end Sys2Proof.Machine
